-- ==== Sys2Proof/Word.lean ====
section
/-! DEFINITION. The word types of TZE-127 and the 2×2 matrix of field elements. -/

namespace Sys2Proof

/-- One byte of MEM (10_state.md R37). -/
abbrev Byte := BitVec 8

/-- A 32-bit command word, scalar or address (10_state.md R22, 30_encoding.md R63). -/
abbrev Word := BitVec 32

/-- A field element: bit i is the coefficient of x^i, 0 ≤ i ≤ 126 (00_scope.md R9; 10_state.md R18
lets a model type the F registers as 127-bit values). -/
abbrev Elem := BitVec 127

/-- A 4-bit register field of a command word (30_encoding.md R64). -/
abbrev Reg := BitVec 4

/-- A 16-bit immediate field (30_encoding.md R64). -/
abbrev Imm := BitVec 16

/-- The matrix `[[a, b], [c, d]]` (10_state.md R19). -/
structure Mat where
  /-- top-left, the hash state's x0 (10_state.md R21) -/
  a : Elem
  /-- top-right, the hash state's x2 -/
  b : Elem
  /-- bottom-left, the hash state's x1 -/
  c : Elem
  /-- bottom-right, the hash state's x3 -/
  d : Elem
  deriving DecidableEq, Repr

end Sys2Proof
end

