-- ==== Sys2Proof/Machine/Bytes.lean ====
section
/-! DEFINITION. Big-endian byte strings and the codecs of elements and matrices (00_scope.md R10, R13;
20_memory.md R45, R48). -/

namespace Sys2Proof.Machine

/-- `be(bytes)`: the unsigned integer whose big-endian byte string is `bytes` (00_scope.md R10). -/
def be (bs : List Byte) : Nat := bs.foldl (fun acc b => acc * 256 + b.toNat) 0

/-- `be_n(v)`: the n-byte big-endian byte string of v, most significant byte first (00_scope.md R10). -/
def beBytes : Nat → Nat → List Byte
  | 0, _ => []
  | n + 1, v => BitVec.ofNat 8 (v / 256 ^ n) :: beBytes n v

/-- Bit 7 of the first byte: the top bit of an encoded element (00_scope.md R13). -/
def topBit : List Byte → Bool
  | [] => false
  | b :: _ => b.getLsbD 7

/-- `EncF(e)`: 16 bytes, `hi || lo`, big-endian (00_scope.md R13). -/
def encF (e : Elem) : List Byte := beBytes 16 e.toNat

/-- `DecF(b16)`: fails when the top bit of the first byte is set (00_scope.md R13). -/
def decF (bs : List Byte) : Option Elem :=
  if topBit bs then none else some (BitVec.ofNat 127 (be bs))

/-- `EncM((a, b, c, d))`: 64 bytes, `a || b || c || d` (00_scope.md R13). -/
def encM (m : Mat) : List Byte := encF m.a ++ encF m.b ++ encF m.c ++ encF m.d

/-- Chunk `j` of a 64-byte matrix encoding: its bytes 16j .. 16j+15. -/
def chunk (bs : List Byte) (j : Nat) : List Byte := (bs.drop (16 * j)).take 16

/-- `DecM(b64)`: fails when any of the four chunks fails DecF (00_scope.md R13). -/
def decM (bs : List Byte) : Option Mat :=
  match decF (chunk bs 0), decF (chunk bs 1), decF (chunk bs 2), decF (chunk bs 3) with
  | some a, some b, some c, some d => some ⟨a, b, c, d⟩
  | _, _, _, _ => none

end Sys2Proof.Machine
end

