-- ==== Sys2Proof/Config.lean ====
section
/-! DEFINITION. What an implementation or the platform fixes, and the free values: constants without a
body, so that nothing in Lean can evaluate them and a theorem holds whatever they are. -/

namespace Sys2Proof

/-- The constant the ID register reads: "T", "Z", 127, version 1 (10_state.md R32). -/
def Config.idValue : Word := 0x545A7F01#32

/-- The default of the build parameter MEM_SIZE (00_scope.md R7). -/
def Config.defaultMemSize : Nat := 65536

/-- The values MEM_SIZE may take: a power of two with 2^12 ≤ MEM_SIZE ≤ 2^31 (00_scope.md R7). -/
abbrev Config.LegalMemSize (n : Nat) : Prop := ∃ k < 20, n = 2 ^ (12 + k)

/-- Which of a step's reads a byte is read by: two reads of one unstable byte may give two values
(20_memory.md R58). -/
inductive ReadPort where
  /-- the command fetch (40_control.md R74) -/
  | fetch
  /-- a command's data range, HVAL's combined digest among them -/
  | data
  /-- the digest list of HVAL -/
  | list
  /-- a byte the host reads through the memory window -/
  | window
  deriving DecidableEq, Repr

/-- FREE VALUE (log 1, 7): MEM byte `addr` after the hardware reset numbered `epoch`, while nothing has
been written to it: "unspecified, each byte any value" (10_state.md R40). -/
opaque Config.powerOnByte (epoch addr : Nat) : Byte

/-- FREE VALUE (log 2): what a read of the unstable byte `addr` returns: "an unspecified byte (any value,
possibly different at each read)" (20_memory.md R58). -/
opaque Config.unstableByte (draw : Nat) (port : ReadPort) (addr : Nat) : Byte

/-- FREE VALUE (log 3): what a host read of a MEM byte returns while STATUS.BUSY = 1 (20_memory.md R58). -/
opaque Config.busyReadByte (draw addr : Nat) : Byte

/-- FREE VALUE (log 4): whether a host read of CPC during a run returns the next command's address
(10_state.md R29). -/
opaque Config.cpcReadsNext (draw : Nat) : Bool

/-- FREE VALUE (log 5): a byte of the store at CPC after an SRST during a run (70_reset_and_hazards.md R138). -/
opaque Config.tornByte (draw addr : Nat) : Byte

/-- Platform parameter (log 18): CSR_BASE divided by 256, its alignment (92_eei_decisions.md, open parameters). -/
opaque Config.csrBlock : Nat

/-- CSR_BASE, the host-bus address of the register block, aligned to 256 bytes (10_state.md R26). -/
def Config.csrBase : Nat := 256 * Config.csrBlock

/-- Platform parameter MEM_HOST_BASE (log 18): the host-bus address of MEM byte 0 (20_memory.md R42). -/
opaque Config.memHostBase : Nat

/-- Platform parameter HOST_BUS_ORDER (log 18): for a host access of `n` bytes to the window, wider than one
byte, the byte accesses it splits into, in their order; each pair is (offset from the access's address, which
byte of the access's data it carries) (20_memory.md R42). Used only through `busSplit`. -/
opaque Config.hostBusOrder (n : Nat) : List (Nat × Nat)

end Sys2Proof
end

