-- ==== Sys2Proof/Machine/State.lean ====
section
/-! DEFINITION. The state of TZE-127 as plain data, its value after reset, and the reasons the model stops. -/

namespace Sys2Proof.Machine

/-- The fault causes (60_exceptions.md R122); ERRCAUSE holds one of these, so codes 6..255 are never written. -/
inductive Cause where
  /-- no fault since the last START or reset -/
  | none
  /-- decode: the word is no command -/
  | illegalCmd
  /-- fetch: CPC not a multiple of 4, or its word not inside MEM -/
  | fetchFault
  /-- an accessed range is not inside MEM -/
  | memRange
  /-- a bad element chunk, or HCAT with count 0 -/
  | invalidInput
  /-- the inverse of ZERO, or of a matrix with determinant ZERO -/
  | divZero
  deriving DecidableEq, Repr

/-- What the last host read returned (the model's own, log 10). -/
inductive Reply where
  /-- the host has read nothing yet -/
  | none
  /-- a register of the host register block -/
  | word (v : Word)
  /-- a byte of the memory window -/
  | byte (b : Byte)
  deriving DecidableEq, Repr

/-- One host step: one register-block access, or one byte of the memory window (10_state.md R16). -/
inductive HostAccess where
  /-- a read of `size` bytes at byte offset `off` of the register block (10_state.md R26) -/
  | regRead (off : BitVec 8) (size : Nat)
  /-- a write of `size` bytes at byte offset `off` of the register block (10_state.md R26) -/
  | regWrite (off : BitVec 8) (size : Nat) (v : Word)
  /-- a read of MEM byte `i` through the window (20_memory.md R42) -/
  | memRead (i : Nat)
  /-- a write of MEM byte `i` through the window (20_memory.md R42) -/
  | memWrite (i : Nat) (b : Byte)
  deriving DecidableEq, Repr

/-- Whose turn it is: the interleaving of 10_state.md R16 as data (log 9). -/
inductive Turn where
  /-- the engine's: one engine step if STATUS.BUSY = 1 -/
  | engine
  /-- the host's -/
  | host (a : HostAccess)
  /-- the platform asserts the reset input (70_reset_and_hazards.md R137) -/
  | assertReset
  /-- the platform releases the reset input -/
  | releaseReset
  deriving DecidableEq, Repr

/-- MEM: the bytes written since the hardware reset, at strictly rising addresses. An unlisted address has
no value of its own; what it reads as is said once, in `State.memByte?` (10_state.md R37, R40; log 1, 25). -/
abbrev Memory := List Host.Cell

/-- The whole state. Matrix registers are views of `fregs`, ID and IRQ are computed (INVENTORY.md, State). -/
structure State where
  /-- F0..F15 (10_state.md R17) -/
  fregs : Vector Elem 16
  /-- S0..S15; entry 0 is read as 0 and never written (10_state.md R22, R23) -/
  sregs : Vector Word 16
  /-- the command pointer (10_state.md R24) -/
  cpc : Word
  /-- CTRL.IE (10_state.md R27) -/
  ie : Bool
  /-- STATUS.BUSY (10_state.md R28) -/
  busy : Bool
  /-- STATUS.DONE (10_state.md R28) -/
  done : Bool
  /-- STATUS.ERR (10_state.md R28) -/
  err : Bool
  /-- ERRCAUSE (10_state.md R30) -/
  errCause : Cause
  /-- ERRPC (10_state.md R31) -/
  errPc : Word
  /-- MEM_SIZE, a build parameter no step changes; MEMSIZE reads it (00_scope.md R7; 10_state.md R33; log 13) -/
  memSize : Nat
  /-- MEM (10_state.md R37) -/
  mem : Memory
  /-- the unstable bytes, at strictly rising addresses (20_memory.md R58; log 8) -/
  unstable : List Nat
  /-- the reset input is asserted (70_reset_and_hazards.md R137; log 11) -/
  resetInput : Bool
  /-- the model's own: what the last host read returned (log 10) -/
  hostReply : Reply
  /-- the model's own: the counter free values are drawn with (log 6) -/
  draws : Nat
  /-- the model's own: the number of hardware resets MEM has gone through (log 7) -/
  memEpoch : Nat
  /-- the model's own: the turns to come; with none left the engine has every turn (log 9) -/
  turns : List Turn
  deriving DecidableEq, Repr

/-- Every fault of TZE-127 is reported by the block itself (60_exceptions.md R125) and is a NEXT state of the
model, so there is no fault that stops the machine: this type has no constructor (log 29). Safe. -/
inductive Fault
  deriving DecidableEq, Repr

/-- Why the model gives no next state; both stops beside `notModelled` are host accesses that
93_implementation_defined.md puts outside the model's domain. -/
inductive Refusal where
  /-- raised by an arm of exec for an instruction without a meaning; no arm raises it. Safe. -/
  | notModelled (mnemonic : String)
  /-- raised by a host turn: a register access other than an aligned 32-bit one, whose effect is
  unspecified (10_state.md R34; log 15). Safe: the model stops where the block goes on. -/
  | registerAccessShape
  /-- raised by a host turn: a window access at or above MEM_SIZE, which the platform's bus answers
  (60_exceptions.md R129; log 16). Safe: the model stops where the platform goes on. -/
  | windowBeyondMem
  deriving DecidableEq, Repr

/-- The machine right after hardware reset (10_state.md R40; 70_reset_and_hazards.md R137). -/
def State.reset : State where
  fregs := Vector.replicate 16 0#127
  sregs := Vector.replicate 16 0#32
  cpc := 0#32
  ie := false
  busy := false
  done := false
  err := false
  errCause := .none
  errPc := 0#32
  memSize := Config.defaultMemSize
  mem := []
  unstable := []
  resetInput := false
  hostReply := .none
  draws := 0
  memEpoch := 0
  turns := []

end Sys2Proof.Machine
end

