-- ==== Sys2Proof/Machine/Flags.lean ====
section
/-! DEFINITION. The run status: TZE-127 has no condition codes (10_state.md R25); what it has are the bits of
CTRL and STATUS, the cause codes and the IRQ output, and no command computes a flag from a result. -/

namespace Sys2Proof.Machine

/-- The code ERRCAUSE holds for a cause (60_exceptions.md R122). -/
def Cause.code : Cause → BitVec 8
  | .none => 0
  | .illegalCmd => 1
  | .fetchFault => 2
  | .memRange => 3
  | .invalidInput => 4
  | .divZero => 5

/-- The CTRL register as the host reads it: START and SRST read 0, IE is bit 1 (10_state.md R27). -/
def State.ctrlWord (s : State) : Word := (BitVec.ofBool s.ie).setWidth 32 <<< 1

/-- The STATUS register as the host reads it: BUSY, DONE, ERR in bits 0, 1, 2 (10_state.md R28). -/
def State.statusWord (s : State) : Word :=
  (BitVec.ofBool s.err ++ BitVec.ofBool s.done ++ BitVec.ofBool s.busy).setWidth 32

/-- The IRQ output, `IE AND (DONE OR ERR)` (10_state.md R35). -/
def State.irq (s : State) : Bool := s.ie && (s.done || s.err)

/-- A host write to STATUS: a 1 clears DONE or ERR, BUSY is read-only (10_state.md R28). -/
def State.writeStatus (s : State) (v : Word) : State :=
  { s with done := s.done && !v.getLsbD 1, err := s.err && !v.getLsbD 2 }

/-- HALT's effect on the run status: the run ends with DONE (40_control.md R77). -/
def State.halted (s : State) : State := { s with busy := false, done := true }

/-- START's effect: DONE, ERR, ERRCAUSE and ERRPC cleared, BUSY set; F, S, CPC and MEM keep their values
(70_reset_and_hazards.md R139). -/
def State.started (s : State) : State :=
  { s with done := false, err := false, errCause := .none, errPc := 0#32, busy := true }

end Sys2Proof.Machine
end

