-- ==== Sys2Proof/Syntax.lean ====
section
/-! DEFINITION. The 24 commands of the TZE-127 command set, version 1: one constructor per row of the
opcode map (30_encoding.md R68), operands in field order. An F or S operand is any 4-bit field; an M
operand is a 4-bit field of which only 0..3 are legal (30_encoding.md R66; checked in WellFormed). -/

namespace Sys2Proof

inductive Instr where
  /-- HALT: stop the run (40_control.md R77) -/
  | halt
  /-- NOP (40_control.md R78) -/
  | nop
  /-- LIL Sd, imm16 (40_control.md R80) -/
  | lil (sd : Reg) (imm : Imm)
  /-- LIH Sd, imm16 (40_control.md R81) -/
  | lih (sd : Reg) (imm : Imm)
  /-- ADDI Sd, Sa, imm16 (40_control.md R82) -/
  | addi (sd sa : Reg) (imm : Imm)
  /-- SLD Sd, imm16(Sb) (40_control.md R83) -/
  | sld (sd sb : Reg) (imm : Imm)
  /-- SST Ss, imm16(Sb) (40_control.md R84) -/
  | sst (ss sb : Reg) (imm : Imm)
  /-- FADD Fd, Fa, Fb (41_gf127.md R93) -/
  | fadd (fd fa fb : Reg)
  /-- FMULX Fd, Fa (41_gf127.md R94) -/
  | fmulx (fd fa : Reg)
  /-- FMULX1 Fd, Fa (41_gf127.md R95) -/
  | fmulx1 (fd fa : Reg)
  /-- FMUL Fd, Fa, Fb (41_gf127.md R96) -/
  | fmul (fd fa fb : Reg)
  /-- FINV Fd, Fa (41_gf127.md R97) -/
  | finv (fd fa : Reg)
  /-- FLDI Fd, imm16 (41_gf127.md R98) -/
  | fldi (fd : Reg) (imm : Imm)
  /-- FLD Fd, imm16(Sb) (41_gf127.md R99) -/
  | fld (fd sb : Reg) (imm : Imm)
  /-- FST Fs, imm16(Sb) (41_gf127.md R100) -/
  | fst (fs sb : Reg) (imm : Imm)
  /-- MMUL Md, Ma, Mb (42_sl2.md R105) -/
  | mmul (md ma mb : Reg)
  /-- MINV Md, Ma (42_sl2.md R106) -/
  | minv (md ma : Reg)
  /-- MID Md (42_sl2.md R107) -/
  | mid (md : Reg)
  /-- MLD Md, imm16(Sb) (42_sl2.md R108) -/
  | mld (md sb : Reg) (imm : Imm)
  /-- MST Ms, imm16(Sb) (42_sl2.md R109) -/
  | mst (ms sb : Reg) (imm : Imm)
  /-- HBIT Md, b (43_tzhash.md R118) -/
  | hbit (md : Reg) (b : Bool)
  /-- HUPD Md, Sa (address), Sb (length) (43_tzhash.md R119) -/
  | hupd (md sa sb : Reg)
  /-- HCAT Md, Sa (address), Sb (count) (43_tzhash.md R120) -/
  | hcat (md sa sb : Reg)
  /-- HVAL Sd, Sa (combined), Sb (list), Sc (count) (43_tzhash.md R121) -/
  | hval (sd sa sb sc : Reg)
  deriving DecidableEq, Repr

end Sys2Proof
end

