-- ==== Sys2Proof/WellFormed.lean ====
section
/-! DEFINITION. Which terms of `Instr` are commands: every M operand names one of M0..M3. -/

namespace Sys2Proof

/-- An M operand field is legal when its upper two bits are 00 (30_encoding.md R66). -/
def legalM (m : Reg) : Bool := m.toNat < 4

/-- The M operands of a command (30_encoding.md R68, the operand kinds). -/
def Instr.mOperands : Instr → List Reg
  | .halt => []
  | .nop => []
  | .lil _ _ => []
  | .lih _ _ => []
  | .addi _ _ _ => []
  | .sld _ _ _ => []
  | .sst _ _ _ => []
  | .fadd _ _ _ => []
  | .fmulx _ _ => []
  | .fmulx1 _ _ => []
  | .fmul _ _ _ => []
  | .finv _ _ => []
  | .fldi _ _ => []
  | .fld _ _ _ => []
  | .fst _ _ _ => []
  | .mmul md ma mb => [md, ma, mb]
  | .minv md ma => [md, ma]
  | .mid md => [md]
  | .mld md _ _ => [md]
  | .mst ms _ _ => [ms]
  | .hbit md _ => [md]
  | .hupd md _ _ => [md]
  | .hcat md _ _ => [md]
  | .hval _ _ _ _ => []

/-- A command is well formed when each of its M operands is 0..3 (30_encoding.md R66, R70 point 3);
every other operand admits every value of its field. -/
def Instr.wellFormed (i : Instr) : Bool := i.mOperands.all legalM

end Sys2Proof
end

