-- ==== Sys2Proof/Machine/Operands.lean ====
section
/-! DEFINITION. The operand forms: F, S and M registers, immediates and effective addresses
(30_encoding.md R66, R67; 10_state.md R19, R23; 20_memory.md R44). -/

namespace Sys2Proof.Machine

/-! ### Registers -/

/-- F[r] (10_state.md R17). -/
def State.freg (s : State) (r : Reg) : Elem := s.fregs[r.toNat]'(by have := r.isLt; omega)

/-- `F[r] <- v` (10_state.md R17). -/
def State.setF (s : State) (r : Reg) (v : Elem) : State :=
  { s with fregs := s.fregs.set r.toNat v (by have := r.isLt; omega) }

/-- S[r]; S0 always reads as 0 (10_state.md R23). -/
def State.sreg (s : State) (r : Reg) : Word :=
  if r = 0#4 then 0#32 else s.sregs[r.toNat]'(by have := r.isLt; omega)

/-- `S[r] <- v`; a write to S0 is discarded (10_state.md R23). -/
def State.setS (s : State) (r : Reg) (v : Word) : State :=
  if r = 0#4 then s else { s with sregs := s.sregs.set r.toNat v (by have := r.isLt; omega) }

/-- The F register that holds element `j` of M[k]: F[4k+j] (10_state.md R19). -/
def mElem (k j : Reg) : Reg := (k <<< 2) + j

/-- M[k], the view (F[4k], F[4k+1], F[4k+2], F[4k+3]) (10_state.md R19). -/
def State.mreg (s : State) (k : Reg) : Mat :=
  ⟨s.freg (mElem k 0#4), s.freg (mElem k 1#4), s.freg (mElem k 2#4), s.freg (mElem k 3#4)⟩

/-- `M[k] <- (a, b, c, d)`: writes those four F registers (10_state.md R19). -/
def State.setM (s : State) (k : Reg) (m : Mat) : State :=
  (((s.setF (mElem k 0#4) m.a).setF (mElem k 1#4) m.b).setF (mElem k 2#4) m.c).setF (mElem k 3#4) m.d

/-! ### Immediates (30_encoding.md R67) -/

/-- `sext_32(imm16)`: displacements and ADDI's addend. -/
def sext32 (imm : Imm) : Word := imm.signExtend 32

/-- `zext_32(imm16)`: LIL. -/
def zext32 (imm : Imm) : Word := imm.setWidth 32

/-- `zext_127(imm16)`: FLDI. -/
def zext127 (imm : Imm) : Elem := imm.setWidth 127

/-- LIH's result: the immediate in bits 31:16, the low half kept (40_control.md R81). -/
def highHalf (imm : Imm) (old : Word) : Word := (imm.setWidth 32 <<< 16) ||| (old &&& 0x0000FFFF#32)

/-! ### Addresses (20_memory.md R44) -/

/-- base + displacement: `EA = (S[rb] + sext_32(imm16)) mod 2^32`. -/
def State.ea (s : State) (rb : Reg) (imm : Imm) : Nat := (s.sreg rb + sext32 imm).toNat

/-- register: the address, length or count `S[r]`. -/
def State.sval (s : State) (r : Reg) : Nat := (s.sreg r).toNat

/-! ### The checks of a command (60_exceptions.md R124), in the order a command makes them -/

/-- M operand fields must hold 0..3; 4..15 is ILLEGAL_CMD (30_encoding.md R66, R70; log 19). -/
def guardM (ms : List Reg) (e : Except Cause State) : Except Cause State :=
  if ms.all legalM then e else .error .illegalCmd

/-- The range [addr, addr + n) lies inside MEM, or is empty (00_scope.md R12; 20_memory.md R43). -/
abbrev State.InRange (s : State) (addr n : Nat) : Prop := n = 0 ∨ addr + n ≤ s.memSize

/-- `CheckRange(addr, n)` before the rest of the command (20_memory.md R43). -/
def State.checkRange (s : State) (addr n : Nat) (e : Except Cause State) : Except Cause State :=
  if s.InRange addr n then e else .error .memRange

/-- The rest of the command with a decoded value, or INVALID_INPUT where decoding failed
(00_scope.md R13; 60_exceptions.md R122). -/
def decoded {α : Type} (v : Option α) (e : α → Except Cause State) : Except Cause State :=
  match v with
  | some x => e x
  | none => .error .invalidInput

end Sys2Proof.Machine
end

