-- ==== Sys2Proof/Machine/Ops.lean ====
section
/-! DEFINITION. The shared operations: MEM, the end of a command (completing or taking a fault), fetch,
and the two resets. -/

namespace Sys2Proof.Machine

/-! ### MEM as a list in canonical form -/

/-- The canonical form: addresses strictly rising. An unlisted address has no value, so no entry can equal
one (log 25). -/
abbrev Memory.wf (m : Memory) : Prop := m.Pairwise fun p q => p.1 < q.1

/-- The byte listed at an address, if one is. -/
def Memory.lookup : Memory → Nat → Option Byte
  | [], _ => none
  | (k, b) :: rest, a => if k = a then some b else Memory.lookup rest a

/-- `MEM[a] <- b`, keeping the canonical form. -/
def Memory.write : Memory → Nat → Byte → Memory
  | [], a, b => [(a, b)]
  | (k, c) :: rest, a, b =>
    if a < k then (a, b) :: (k, c) :: rest
    else if a = k then (a, b) :: rest
    else (k, c) :: Memory.write rest a b

/-- Writes the bytes at a, a+1, … (00_scope.md R12). -/
def Memory.writeBytes : Memory → Nat → List Byte → Memory
  | m, _, [] => m
  | m, a, b :: bs => Memory.writeBytes (Memory.write m a b) (a + 1) bs

/-- Adds an address to a strictly rising list of addresses. -/
def insertAddr : List Nat → Nat → List Nat
  | [], a => [a]
  | k :: rest, a => if a < k then a :: k :: rest else if a = k then k :: rest else k :: insertAddr rest a

/-- Takes an address out of a list of addresses. -/
def removeAddr (l : List Nat) (a : Nat) : List Nat := l.filter fun k => k != a

/-! ### Reads and writes of MEM -/

/-- What MEM byte `a` holds: none while it is unstable (every read of it then returns any value,
20_memory.md R58); the byte written last; or the power-on byte, any value, while nothing has been written
(10_state.md R40). This is the one definition of what an unlisted address reads as (log 1). -/
def State.memByte? (s : State) (a : Nat) : Option Byte :=
  if s.unstable.contains a then none
  else some ((Memory.lookup s.mem a).getD (Config.powerOnByte s.memEpoch a))

/-- One read of MEM byte `a` (00_scope.md R12; 20_memory.md R58; log 2). -/
def State.readByte (s : State) (port : ReadPort) (a : Nat) : Byte :=
  (s.memByte? a).getD (Config.unstableByte s.draws port a)

/-- `MemBytes(addr, n)` (00_scope.md R12). -/
def State.memBytes (s : State) (port : ReadPort) : Nat → Nat → List Byte
  | _, 0 => []
  | a, n + 1 => s.readByte port a :: s.memBytes port (a + 1) n

/-- `MemRead(addr, 4)`: a 32-bit big-endian read (00_scope.md R12; 20_memory.md R48). -/
def State.memRead32 (s : State) (port : ReadPort) (a : Nat) : Word := BitVec.ofNat 32 (be (s.memBytes port a 4))

/-- Writes bytes to MEM; an engine write to an unstable byte does not make it stable (20_memory.md R58). -/
def State.storeBytes (s : State) (a : Nat) (bs : List Byte) : State :=
  { s with mem := Memory.writeBytes s.mem a bs }

/-- The decoded digests at `a`, `a + 64`, …, none when one of them fails DecM (43_tzhash.md R120, R121). -/
def State.readDigests (s : State) (port : ReadPort) : Nat → Nat → Option (List Mat)
  | _, 0 => some []
  | a, n + 1 =>
    match decM (s.memBytes port a 64), s.readDigests port (a + 64) n with
    | some m, some ms => some (m :: ms)
    | _, _ => none

/-! ### The end of a command -/

/-- The next draw of free values (the model's own, log 6). -/
def State.tick (s : State) : State := { s with draws := s.draws + 1 }

/-- `CPC <- (CPC + 4) mod 2^32` (40_control.md R73; 10_state.md R24). -/
def State.advance (s : State) : State := { s with cpc := s.cpc + 4#32 }

/-- Taking a fault: `Fault(cause)`. ERRPC saves CPC, which is not advanced; nothing else of the command
is written (60_exceptions.md R125, R126). There is no return from a fault but the host's START (R127). -/
def State.takeFault (s : State) (c : Cause) : State :=
  { s with err := true, errCause := c, errPc := s.cpc, busy := false }

/-- The state a command begun in `s` ends in: its effects and the advance of CPC, or the fault it raised. -/
def State.settled (s : State) : Except Cause State → State
  | .ok t => t.advance.tick
  | .error c => (s.takeFault c).tick

/-- Ends a command: every command, faulting or not, has a next state (60_exceptions.md R125). -/
def State.settle (s : State) (e : Except Cause State) : Host.Outcome State Fault Refusal := .next (s.settled e)

/-! ### Fetch (40_control.md R74) -/

/-- CPC is 4-aligned and its word lies inside MEM. -/
abbrev State.Fetchable (s : State) : Prop := s.cpc.toNat % 4 = 0 ∧ s.cpc.toNat + 4 ≤ s.memSize

/-- The bytes of the command at CPC. -/
def State.fetchBytes (s : State) : List Byte := s.memBytes .fetch s.cpc.toNat 4

/-! ### Resets (70_reset_and_hazards.md R137, R138) -/

/-- The registers after a soft reset; MEM is kept (70_reset_and_hazards.md R138; 10_state.md R40). -/
def State.clearRegisters (s : State) : State :=
  { s with
    fregs := State.reset.fregs
    sregs := State.reset.sregs
    cpc := State.reset.cpc
    ie := State.reset.ie
    busy := State.reset.busy
    done := State.reset.done
    err := State.reset.err
    errCause := State.reset.errCause
    errPc := State.reset.errPc }

/-- The release of the reset input: every register as `State.reset` has it, and MEM unspecified anew
(10_state.md R40; 70_reset_and_hazards.md R137; log 7, 8, 11). -/
def State.hardwareReset (s : State) : State :=
  { s.clearRegisters with
    mem := State.reset.mem
    resetInput := State.reset.resetInput
    memEpoch := s.memEpoch + 1 }

/-- Any value in each of the bytes [a, a + n): a store cut short by SRST (70_reset_and_hazards.md R138; log 5). -/
def State.tear (s : State) (a n : Nat) : State :=
  s.storeBytes a ((List.range n).map fun k => Config.tornByte s.draws (a + k))

end Sys2Proof.Machine
end

