-- ==== Sys2Proof/Machine/Control.lean ====
section
/-! DEFINITION. The control commands (40_control.md R77, R78). -/

namespace Sys2Proof.Machine

/-- HALT: the run ends with DONE; CPC advances too (40_control.md R77). -/
def execHalt (s : State) : Host.Outcome State Fault Refusal := s.settle (.ok s.halted)

/-- NOP (40_control.md R78). -/
def execNop (s : State) : Host.Outcome State Fault Refusal := s.settle (.ok s)

end Sys2Proof.Machine
end

