-- ==== Sys2Proof/Machine/Field.lean ====
section
/-! DEFINITION. The field functions of GF(2^127) (41_gf127.md R85 to R92). -/

namespace Sys2Proof.Machine

/-- The field element 0 (10_state.md R38). -/
def ZERO : Elem := 0#127

/-- The field element 1 (10_state.md R38). -/
def ONE : Elem := 1#127

/-- The reduction polynomial P = x^127 + x^63 + 1, 128 bits, not a field element (10_state.md R38). -/
def P : BitVec 128 := 0x80000000000000008000000000000001#128

/-- `lo(e) = e[63:0]` (00_scope.md R9). -/
def lo (e : Elem) : BitVec 64 := e.extractLsb' 0 64

/-- `hi(e) = e[126:64]`, as a 64-bit word whose bit 63 is 0 (00_scope.md R9). -/
def hi (e : Elem) : BitVec 64 := e.extractLsb' 64 64

/-- The element `(hi << 64) OR lo`, for `hi` with bit 63 clear (41_gf127.md R88). -/
def join (h l : BitVec 64) : Elem := (h ++ l).setWidth 127

/-- `fadd(a, b) = a XOR b`, addition and subtraction (41_gf127.md R87). -/
def fadd (a b : Elem) : Elem := a ^^^ b

/-- The reduction step shared by R88 and R89: the coefficient of x^127, bit 63 of `h`, is replaced by
x^63 + 1 (41_gf127.md R88; 90_conflicts.md C1). -/
def reduceTop (h l : BitVec 64) : Elem :=
  let mask := h &&& 0x8000000000000000#64
  join ((h ^^^ mask) &&& 0x7FFFFFFFFFFFFFFF#64) (l ^^^ (mask ||| (mask >>> 63)))

/-- `fmulx(e)`: e times x, modulo P (41_gf127.md R88). -/
def fmulx (e : Elem) : Elem :=
  reduceTop ((hi e <<< 1) ||| (lo e >>> 63)) (lo e <<< 1)

/-- `fmulx1(e)`: e times x + 1, modulo P (41_gf127.md R89). -/
def fmulx1 (e : Elem) : Elem :=
  reduceTop (((hi e <<< 1) ||| (lo e >>> 63)) ^^^ hi e) ((lo e <<< 1) ^^^ lo e)

/-- The accumulator and the running copy of `a` after the steps for bits 0 .. n-1 of `b` (41_gf127.md R90). -/
def fmulUpTo (a b : Elem) : Nat → Elem × Elem
  | 0 => (ZERO, a)
  | n + 1 =>
    let s := fmulUpTo a b n
    (if b.getLsbD n then s.1 ^^^ s.2 else s.1, fmulx s.2)

/-- `fmul(a, b)`: shift-and-add over the 127 bits of b (41_gf127.md R90). -/
def fmul (a b : Elem) : Elem := (fmulUpTo a b 127).1

/-- `deg(p)` for p ≠ 0, the index of the most significant set bit; no rule evaluates it at 0
(00_scope.md R10; 41_gf127.md R92). -/
def deg (p : BitVec 128) : Nat := p.toNat.log2

/-- The element x^j, for j ≤ 126. -/
def xPow (j : Nat) : Elem := ONE <<< j

/-- The loop of `finv`, at most `fuel` times round (41_gf127.md R91, with v starting at P: 90_conflicts.md C3). -/
def finvLoop : Nat → BitVec 128 → BitVec 128 → Elem → Elem → Elem
  | 0, _, _, c, _ => c
  | fuel + 1, u, v, c, d =>
    if deg u = 0 then c
    else if deg u < deg v then
      -- swapped: (u, v) is (v, u) and (c, d) is (d, c)
      finvLoop fuel (v ^^^ (u <<< (deg v - deg u))) u (d ^^^ fmul (xPow (deg v - deg u)) c) c
    else
      finvLoop fuel (u ^^^ (v <<< (deg u - deg v))) v (c ^^^ fmul (xPow (deg u - deg v)) d) d

/-- `finv(a)`, for a ≠ ZERO: the b with `fmul(a, b) = ONE`. The loop runs at most 253 times (41_gf127.md R91). -/
def finv (a : Elem) : Elem := finvLoop 253 (a.setWidth 128) P ONE ZERO

end Sys2Proof.Machine
end

