-- ==== Sys2Proof/Machine/Gf127.lean ====
section
/-! DEFINITION. The GF127 field commands (41_gf127.md R93 to R100). -/

namespace Sys2Proof.Machine

/-- FADD Fd, Fa, Fb (41_gf127.md R93). -/
def execFadd (fd fa fb : Reg) (s : State) : Host.Outcome State Fault Refusal :=
  s.settle (.ok (s.setF fd (fadd (s.freg fa) (s.freg fb))))

/-- FMULX Fd, Fa (41_gf127.md R94). -/
def execFmulx (fd fa : Reg) (s : State) : Host.Outcome State Fault Refusal :=
  s.settle (.ok (s.setF fd (fmulx (s.freg fa))))

/-- FMULX1 Fd, Fa (41_gf127.md R95). -/
def execFmulx1 (fd fa : Reg) (s : State) : Host.Outcome State Fault Refusal :=
  s.settle (.ok (s.setF fd (fmulx1 (s.freg fa))))

/-- FMUL Fd, Fa, Fb (41_gf127.md R96). -/
def execFmul (fd fa fb : Reg) (s : State) : Host.Outcome State Fault Refusal :=
  s.settle (.ok (s.setF fd (fmul (s.freg fa) (s.freg fb))))

/-- FINV Fd, Fa: DIV_ZERO for ZERO (41_gf127.md R97). -/
def execFinv (fd fa : Reg) (s : State) : Host.Outcome State Fault Refusal :=
  s.settle (if s.freg fa = ZERO then .error .divZero else .ok (s.setF fd (finv (s.freg fa))))

/-- FLDI Fd, imm16 (41_gf127.md R98). -/
def execFldi (fd : Reg) (imm : Imm) (s : State) : Host.Outcome State Fault Refusal :=
  s.settle (.ok (s.setF fd (zext127 imm)))

/-- FLD Fd, imm16(Sb): load and decode an element (41_gf127.md R99). -/
def execFld (fd sb : Reg) (imm : Imm) (s : State) : Host.Outcome State Fault Refusal :=
  s.settle (s.checkRange (s.ea sb imm) 16
    (decoded (decF (s.memBytes .data (s.ea sb imm) 16)) fun e => .ok (s.setF fd e)))

/-- FST Fs, imm16(Sb): encode and store an element (41_gf127.md R100). -/
def execFst (fs sb : Reg) (imm : Imm) (s : State) : Host.Outcome State Fault Refusal :=
  s.settle (s.checkRange (s.ea sb imm) 16 (.ok (s.storeBytes (s.ea sb imm) (encF (s.freg fs)))))

end Sys2Proof.Machine
end

