-- ==== Sys2Proof/Machine/Scalar.lean ====
section
/-! DEFINITION. The scalar commands (40_control.md R79 to R84): 32-bit unsigned, with wrap-around. -/

namespace Sys2Proof.Machine

/-- LIL Sd, imm16: `S[r1] <- zext_32(imm16)` (40_control.md R80). -/
def execLil (sd : Reg) (imm : Imm) (s : State) : Host.Outcome State Fault Refusal :=
  s.settle (.ok (s.setS sd (zext32 imm)))

/-- LIH Sd, imm16 (40_control.md R81). -/
def execLih (sd : Reg) (imm : Imm) (s : State) : Host.Outcome State Fault Refusal :=
  s.settle (.ok (s.setS sd (highHalf imm (s.sreg sd))))

/-- ADDI Sd, Sa, imm16: `S[r1] <- (S[r2] + sext_32(imm16)) mod 2^32` (40_control.md R82). -/
def execAddi (sd sa : Reg) (imm : Imm) (s : State) : Host.Outcome State Fault Refusal :=
  s.settle (.ok (s.setS sd (s.sreg sa + sext32 imm)))

/-- SLD Sd, imm16(Sb): load a 32-bit scalar (40_control.md R83). -/
def execSld (sd sb : Reg) (imm : Imm) (s : State) : Host.Outcome State Fault Refusal :=
  s.settle (s.checkRange (s.ea sb imm) 4 (.ok (s.setS sd (s.memRead32 .data (s.ea sb imm)))))

/-- SST Ss, imm16(Sb): store a 32-bit scalar (40_control.md R84). -/
def execSst (ss sb : Reg) (imm : Imm) (s : State) : Host.Outcome State Fault Refusal :=
  s.settle (s.checkRange (s.ea sb imm) 4 (.ok (s.storeBytes (s.ea sb imm) (beBytes 4 (s.sreg ss).toNat))))

end Sys2Proof.Machine
end

