-- ==== Sys2Proof/Machine/Matrix.lean ====
section
/-! DEFINITION. The SL2 matrix functions (42_sl2.md R101 to R103). -/

namespace Sys2Proof.Machine

/-- `IDENTITY = (ONE, ZERO, ZERO, ONE)` (10_state.md R38). -/
def IDENTITY : Mat := ⟨ONE, ZERO, ZERO, ONE⟩

/-- `mmul(M, N)`: the 2×2 matrix product (42_sl2.md R101). -/
def mmul (m n : Mat) : Mat where
  a := fmul m.a n.a ^^^ fmul m.b n.c
  b := fmul m.a n.b ^^^ fmul m.b n.d
  c := fmul m.c n.a ^^^ fmul m.d n.c
  d := fmul m.c n.b ^^^ fmul m.d n.d

/-- `det(M) = a d + b c` (42_sl2.md R102). -/
def det (m : Mat) : Elem := fmul m.a m.d ^^^ fmul m.b m.c

/-- `minv(M)`, for det(M) ≠ ZERO: `det^-1 · [[d, b], [c, a]]` (42_sl2.md R103). -/
def minv (m : Mat) : Mat :=
  let di := finv (det m)
  ⟨fmul di m.d, fmul di m.b, fmul di m.c, fmul di m.a⟩

end Sys2Proof.Machine
end

