-- ==== Sys2Proof/Machine/Sl2.lean ====
section
/-! DEFINITION. The SL2 matrix commands (42_sl2.md R105 to R109). -/

namespace Sys2Proof.Machine

/-- MMUL Md, Ma, Mb: Md = Ma · Mb (42_sl2.md R105). -/
def execMmul (md ma mb : Reg) (s : State) : Host.Outcome State Fault Refusal :=
  s.settle (guardM [md, ma, mb] (.ok (s.setM md (mmul (s.mreg ma) (s.mreg mb)))))

/-- MINV Md, Ma: DIV_ZERO when the determinant is ZERO (42_sl2.md R106). -/
def execMinv (md ma : Reg) (s : State) : Host.Outcome State Fault Refusal :=
  s.settle (guardM [md, ma]
    (if det (s.mreg ma) = ZERO then .error .divZero else .ok (s.setM md (minv (s.mreg ma)))))

/-- MID Md: the identity matrix (42_sl2.md R107). -/
def execMid (md : Reg) (s : State) : Host.Outcome State Fault Refusal :=
  s.settle (guardM [md] (.ok (s.setM md IDENTITY)))

/-- MLD Md, imm16(Sb): load and decode a matrix (42_sl2.md R108). -/
def execMld (md sb : Reg) (imm : Imm) (s : State) : Host.Outcome State Fault Refusal :=
  s.settle (guardM [md] (s.checkRange (s.ea sb imm) 64
    (decoded (decM (s.memBytes .data (s.ea sb imm) 64)) fun m => .ok (s.setM md m))))

/-- MST Ms, imm16(Sb): encode and store a matrix, the digest of a hash state (42_sl2.md R109; 43_tzhash.md R114). -/
def execMst (ms sb : Reg) (imm : Imm) (s : State) : Host.Outcome State Fault Refusal :=
  s.settle (guardM [ms] (s.checkRange (s.ea sb imm) 64
    (.ok (s.storeBytes (s.ea sb imm) (encM (s.mreg ms))))))

end Sys2Proof.Machine
end

