-- ==== Sys2Proof/Machine/HashFn.lean ====
section
/-! DEFINITION. The Tillich-Zémor hash functions (43_tzhash.md R110 to R115). -/

namespace Sys2Proof.Machine

/-- The generator for message bit 0, `[[x, 1], [1, 0]]` (43_tzhash.md R110). -/
def G0 : Mat := ⟨0x2#127, 0x1#127, 0x1#127, 0x0#127⟩

/-- The generator for message bit 1, `[[x, x+1], [1, 1]]` (43_tzhash.md R110; 90_conflicts.md C2). -/
def G1 : Mat := ⟨0x2#127, 0x3#127, 0x1#127, 0x1#127⟩

/-- `tzbit(M, bit)`: the per-bit state transition, every right-hand side from the old values; x0, x2, x1, x3
are a, b, c, d (43_tzhash.md R111; 10_state.md R21). -/
def tzbit (m : Mat) (bit : Bool) : Mat :=
  if bit then
    { a := fmulx m.a ^^^ m.b, b := fmulx1 m.a ^^^ m.b, c := fmulx m.c ^^^ m.d, d := fmulx1 m.c ^^^ m.d }
  else
    { a := fmulx m.a ^^^ m.b, b := m.a, c := fmulx m.c ^^^ m.d, d := m.c }

/-- The bits of a byte, most significant first (20_memory.md R47). -/
def bitsOf (b : Byte) : List Bool := [7, 6, 5, 4, 3, 2, 1, 0].map fun k => b.getLsbD k

/-- The eight transitions of one byte. -/
def tzbyte (m : Mat) (b : Byte) : Mat := (bitsOf b).foldl tzbit m

/-- `tzupd(M, s)`: tzbit once per bit, bytes in order (43_tzhash.md R112). -/
def tzupd (m : Mat) (bs : List Byte) : Mat := bs.foldl tzbyte m

/-- `H(s)`, the hash of a byte string (43_tzhash.md R113). -/
def tzHash (bs : List Byte) : Mat := tzupd IDENTITY bs

/-- The product of decoded digests, the accumulator on the left (43_tzhash.md R115; 90_conflicts.md C4). -/
def concatMats (ms : List Mat) : Mat := ms.foldl mmul IDENTITY

end Sys2Proof.Machine
end

