-- ==== Sys2Proof/Machine/TzHash.lean ====
section
/-! DEFINITION. The Tillich-Zémor hash commands (43_tzhash.md R118 to R121). -/

namespace Sys2Proof.Machine

/-- HBIT Md, b: one message bit (43_tzhash.md R118). -/
def execHbit (md : Reg) (b : Bool) (s : State) : Host.Outcome State Fault Refusal :=
  s.settle (guardM [md] (.ok (s.setM md (tzbit (s.mreg md) b))))

/-- HUPD Md, Sa, Sb: absorb the S[b] bytes at S[a] (43_tzhash.md R119). -/
def execHupd (md sa sb : Reg) (s : State) : Host.Outcome State Fault Refusal :=
  s.settle (guardM [md] (s.checkRange (s.sval sa) (s.sval sb)
    (.ok (s.setM md (tzupd (s.mreg md) (s.memBytes .data (s.sval sa) (s.sval sb)))))))

/-- HCAT Md, Sa, Sb: combine the S[b] digests at S[a]; an empty list is INVALID_INPUT (43_tzhash.md R120). -/
def execHcat (md sa sb : Reg) (s : State) : Host.Outcome State Fault Refusal :=
  s.settle (guardM [md]
    (if s.sval sb = 0 then .error .invalidInput
     else s.checkRange (s.sval sa) (64 * s.sval sb)
      (decoded (s.readDigests .data (s.sval sa) (s.sval sb)) fun ms => .ok (s.setM md (concatMats ms)))))

/-- HVAL's result: the list is not empty, every digest of it decodes, and the product's 64 bytes are the
combined digest's (43_tzhash.md R121). -/
def validates (comb : List Byte) (digests : Option (List Mat)) : Bool :=
  match digests with
  | none => false
  | some [] => false
  | some ms => encM (concatMats ms) == comb

/-- HVAL Sd, Sa, Sb, Sc: validate the digest at S[a] against the S[c] digests at S[b] (43_tzhash.md R121). -/
def execHval (sd sa sb sc : Reg) (s : State) : Host.Outcome State Fault Refusal :=
  s.settle (s.checkRange (s.sval sa) 64 (s.checkRange (s.sval sb) (64 * s.sval sc)
    (.ok (s.setS sd
      (if validates (s.memBytes .data (s.sval sa) 64) (s.readDigests .list (s.sval sb) (s.sval sc))
       then 1#32 else 0#32)))))

end Sys2Proof.Machine
end

