-- ==== Sys2Proof/Machine/Dispatch.lean ====
section
/-! DEFINITION. exec: one arm per command of the opcode map (30_encoding.md R68), each one call of its meaning. -/

namespace Sys2Proof.Machine

def exec (i : Instr) (s : State) : Host.Outcome State Fault Refusal :=
  match i with
  | .halt => Sys2Proof.Machine.execHalt s
  | .nop => Sys2Proof.Machine.execNop s
  | .lil sd imm => Sys2Proof.Machine.execLil sd imm s
  | .lih sd imm => Sys2Proof.Machine.execLih sd imm s
  | .addi sd sa imm => Sys2Proof.Machine.execAddi sd sa imm s
  | .sld sd sb imm => Sys2Proof.Machine.execSld sd sb imm s
  | .sst ss sb imm => Sys2Proof.Machine.execSst ss sb imm s
  | .fadd fd fa fb => Sys2Proof.Machine.execFadd fd fa fb s
  | .fmulx fd fa => Sys2Proof.Machine.execFmulx fd fa s
  | .fmulx1 fd fa => Sys2Proof.Machine.execFmulx1 fd fa s
  | .fmul fd fa fb => Sys2Proof.Machine.execFmul fd fa fb s
  | .finv fd fa => Sys2Proof.Machine.execFinv fd fa s
  | .fldi fd imm => Sys2Proof.Machine.execFldi fd imm s
  | .fld fd sb imm => Sys2Proof.Machine.execFld fd sb imm s
  | .fst fs sb imm => Sys2Proof.Machine.execFst fs sb imm s
  | .mmul md ma mb => Sys2Proof.Machine.execMmul md ma mb s
  | .minv md ma => Sys2Proof.Machine.execMinv md ma s
  | .mid md => Sys2Proof.Machine.execMid md s
  | .mld md sb imm => Sys2Proof.Machine.execMld md sb imm s
  | .mst ms sb imm => Sys2Proof.Machine.execMst ms sb imm s
  | .hbit md b => Sys2Proof.Machine.execHbit md b s
  | .hupd md sa sb => Sys2Proof.Machine.execHupd md sa sb s
  | .hcat md sa sb => Sys2Proof.Machine.execHcat md sa sb s
  | .hval sd sa sb sc => Sys2Proof.Machine.execHval sd sa sb sc s

end Sys2Proof.Machine
end

