-- ==== Sys2Proof/Decode.lean ====
section
/-! DEFINITION. The decoder, total on any bytes and rejecting by name, and the encoder, both written from
the formats and the opcode map (30_encoding.md R64 to R70). -/

namespace Sys2Proof

/-- Why a byte string is no command: the three cases of 30_encoding.md R70, and too few bytes. -/
inductive Reject where
  /-- the opcode is not in the opcode map (R70 point 1) -/
  | unassignedOpcode
  /-- a bit the format shows as 0 is 1 (R70 point 2) -/
  | reservedBit
  /-- an M operand field holds 4..15 (R70 point 3) -/
  | matrixField
  /-- fewer than the 4 bytes of a command word (R63) -/
  | truncated
  deriving DecidableEq, Repr

/-! ### Fields of a command word (30_encoding.md R64) -/

def fieldOp (w : Word) : BitVec 8 := w.extractLsb' 24 8
def fieldR1 (w : Word) : Reg := w.extractLsb' 20 4
def fieldR2 (w : Word) : Reg := w.extractLsb' 16 4
def fieldR3 (w : Word) : Reg := w.extractLsb' 12 4
def fieldR4 (w : Word) : Reg := w.extractLsb' 8 4
def fieldImm (w : Word) : Imm := w.extractLsb' 0 16
def fieldB (w : Word) : Bool := w.getLsbD 0

/-- One row of the opcode map, read for the word `w`: `w` is the command `i` when `(w AND mask) = pattern`
(R69). `format` is the mask of the opcode and of the bits the format shows as 0 (R65); `mask` adds the
upper two bits of the M fields (R66). -/
def acceptRow (w pattern format mask : Word) (i : Instr) : Except Reject Instr :=
  if w &&& format ≠ pattern then .error .reservedBit
  else if w &&& mask ≠ pattern then .error .matrixField
  else .ok i

/-- Decodes a command word by the row of its opcode (30_encoding.md R68, R69). -/
def decodeWord (w : Word) : Except Reject Instr :=
  let r1 := fieldR1 w
  let r2 := fieldR2 w
  let r3 := fieldR3 w
  let r4 := fieldR4 w
  let imm := fieldImm w
  match (fieldOp w).toNat with
  | 0x00 => acceptRow w 0x00000000#32 0xFFFFFFFF#32 0xFFFFFFFF#32 .halt
  | 0x01 => acceptRow w 0x01000000#32 0xFFFFFFFF#32 0xFFFFFFFF#32 .nop
  | 0x02 => acceptRow w 0x02000000#32 0xFF0F0000#32 0xFF0F0000#32 (.lil r1 imm)
  | 0x03 => acceptRow w 0x03000000#32 0xFF0F0000#32 0xFF0F0000#32 (.lih r1 imm)
  | 0x04 => acceptRow w 0x04000000#32 0xFF000000#32 0xFF000000#32 (.addi r1 r2 imm)
  | 0x05 => acceptRow w 0x05000000#32 0xFF000000#32 0xFF000000#32 (.sld r1 r2 imm)
  | 0x06 => acceptRow w 0x06000000#32 0xFF000000#32 0xFF000000#32 (.sst r1 r2 imm)
  | 0x10 => acceptRow w 0x10000000#32 0xFF000FFF#32 0xFF000FFF#32 (.fadd r1 r2 r3)
  | 0x11 => acceptRow w 0x11000000#32 0xFF00FFFF#32 0xFF00FFFF#32 (.fmulx r1 r2)
  | 0x12 => acceptRow w 0x12000000#32 0xFF00FFFF#32 0xFF00FFFF#32 (.fmulx1 r1 r2)
  | 0x13 => acceptRow w 0x13000000#32 0xFF000FFF#32 0xFF000FFF#32 (.fmul r1 r2 r3)
  | 0x14 => acceptRow w 0x14000000#32 0xFF00FFFF#32 0xFF00FFFF#32 (.finv r1 r2)
  | 0x15 => acceptRow w 0x15000000#32 0xFF0F0000#32 0xFF0F0000#32 (.fldi r1 imm)
  | 0x16 => acceptRow w 0x16000000#32 0xFF000000#32 0xFF000000#32 (.fld r1 r2 imm)
  | 0x17 => acceptRow w 0x17000000#32 0xFF000000#32 0xFF000000#32 (.fst r1 r2 imm)
  | 0x20 => acceptRow w 0x20000000#32 0xFF000FFF#32 0xFFCCCFFF#32 (.mmul r1 r2 r3)
  | 0x21 => acceptRow w 0x21000000#32 0xFF00FFFF#32 0xFFCCFFFF#32 (.minv r1 r2)
  | 0x22 => acceptRow w 0x22000000#32 0xFF0FFFFF#32 0xFFCFFFFF#32 (.mid r1)
  | 0x23 => acceptRow w 0x23000000#32 0xFF000000#32 0xFFC00000#32 (.mld r1 r2 imm)
  | 0x24 => acceptRow w 0x24000000#32 0xFF000000#32 0xFFC00000#32 (.mst r1 r2 imm)
  | 0x30 => acceptRow w 0x30000000#32 0xFF0FFFFE#32 0xFFCFFFFE#32 (.hbit r1 (fieldB w))
  | 0x31 => acceptRow w 0x31000000#32 0xFF000FFF#32 0xFFC00FFF#32 (.hupd r1 r2 r3)
  | 0x32 => acceptRow w 0x32000000#32 0xFF000FFF#32 0xFFC00FFF#32 (.hcat r1 r2 r3)
  | 0x33 => acceptRow w 0x33000000#32 0xFF0000FF#32 0xFF0000FF#32 (.hval r1 r2 r3 r4)
  | _ => .error .unassignedOpcode

/-- The command word whose bytes, in address order, begin `bs`: big-endian (20_memory.md R48). -/
def wordOfBytes (bs : List Byte) : Word := BitVec.ofNat 32 (Machine.be (bs.take 4))

/-- The bytes of a command word in address order (20_memory.md R48). -/
def bytesOfWord (w : Word) : List Byte := Machine.beBytes 4 w.toNat

/-- Decodes the command at the front of a byte string and returns the bytes after it; every command is
4 bytes long (30_encoding.md R63). -/
def decode (bs : List Byte) : Except Reject (Instr × List Byte) :=
  if bs.length < 4 then .error .truncated
  else
    match decodeWord (wordOfBytes bs) with
    | .ok i => .ok (i, bs.drop 4)
    | .error r => .error r

/-- The instruction the decoder reads from the opcode-table bits `w` of an instruction of `nbits` bits:
one command word, laid out as MEM stores it. -/
def decodeTableWord (nbits w : Nat) : Option Instr :=
  match decode (bytesOfWord (BitVec.ofNat 32 (w % 2 ^ nbits))) with
  | .ok (i, _) => some i
  | .error _ => none

/-! ### The encoder (30_encoding.md R65, R68) -/

/-- A word of an opcode, four register fields and the low byte. -/
def packR (op : BitVec 8) (r1 r2 r3 r4 : Reg) (low : BitVec 8) : Word := op ++ r1 ++ r2 ++ r3 ++ r4 ++ low

/-- A word of an opcode, two register fields and an immediate. -/
def packI (op : BitVec 8) (r1 r2 : Reg) (imm : Imm) : Word := op ++ r1 ++ r2 ++ imm

/-- The word of a command; for a well-formed one it is the word R68 gives. -/
def encode : Instr → Word
  | .halt => packR 0x00 0 0 0 0 0
  | .nop => packR 0x01 0 0 0 0 0
  | .lil sd imm => packI 0x02 sd 0 imm
  | .lih sd imm => packI 0x03 sd 0 imm
  | .addi sd sa imm => packI 0x04 sd sa imm
  | .sld sd sb imm => packI 0x05 sd sb imm
  | .sst ss sb imm => packI 0x06 ss sb imm
  | .fadd fd fa fb => packR 0x10 fd fa fb 0 0
  | .fmulx fd fa => packR 0x11 fd fa 0 0 0
  | .fmulx1 fd fa => packR 0x12 fd fa 0 0 0
  | .fmul fd fa fb => packR 0x13 fd fa fb 0 0
  | .finv fd fa => packR 0x14 fd fa 0 0 0
  | .fldi fd imm => packI 0x15 fd 0 imm
  | .fld fd sb imm => packI 0x16 fd sb imm
  | .fst fs sb imm => packI 0x17 fs sb imm
  | .mmul md ma mb => packR 0x20 md ma mb 0 0
  | .minv md ma => packR 0x21 md ma 0 0 0
  | .mid md => packR 0x22 md 0 0 0 0
  | .mld md sb imm => packI 0x23 md sb imm
  | .mst ms sb imm => packI 0x24 ms sb imm
  | .hbit md b => packR 0x30 md 0 0 0 ((BitVec.ofBool b).setWidth 8)
  | .hupd md sa sb => packR 0x31 md sa sb 0 0
  | .hcat md sa sb => packR 0x32 md sa sb 0 0
  | .hval sd sa sb sc => packR 0x33 sd sa sb sc 0

end Sys2Proof
end

