-- ==== Sys2Proof/Machine/Fetch.lean ====
section
/-! DEFINITION. Fetch and decode of the command at CPC, and placing a command there. -/

namespace Sys2Proof.Machine

/-- The command at CPC, or the fault that fetching or decoding it raises (40_control.md R73, R74;
30_encoding.md R69, R70; 60_exceptions.md R124 points 1 and 2). Fetch reads the current MEM
(20_memory.md R61). -/
def State.command (s : State) : Except Cause Instr :=
  if s.Fetchable then
    match decode s.fetchBytes with
    | .ok (i, _) => .ok i
    | .error _ => .error .illegalCmd
  else .error .fetchFault

/-- The range a command stores to, for SST, FST and MST (20_memory.md R52). -/
def storeRange (i : Instr) (s : State) : Option (Nat × Nat) :=
  match i with
  | .sst _ sb imm => some (s.ea sb imm, 4)
  | .fst _ sb imm => some (s.ea sb imm, 16)
  | .mst _ sb imm => some (s.ea sb imm, 64)
  | .halt | .nop | .lil .. | .lih .. | .addi .. | .sld .. => none
  | .fadd .. | .fmulx .. | .fmulx1 .. | .fmul .. | .finv .. | .fldi .. | .fld .. => none
  | .mmul .. | .minv .. | .mid .. | .mld .. => none
  | .hbit .. | .hupd .. | .hcat .. | .hval .. => none

/-- The range of the store at CPC during a run, when it passes CheckRange (70_reset_and_hazards.md R138). -/
def State.storeAtCpc (s : State) : Option (Nat × Nat) :=
  if s.busy then
    match s.command with
    | .ok i => (storeRange i s).filter fun r => decide (s.InRange r.1 r.2)
    | .error _ => none
  else none

/-- `s` about to fetch the bytes `bs` of one command: they stand at CPC (at address 0 where CPC cannot be
fetched from), a run is on, the engine has the next turn (log 17). -/
def State.aboutToFetch (s : State) (bs : List Byte) : State :=
  let c : Word := if s.Fetchable then s.cpc else 0#32
  { (if s.busy then s else { s with
      done := false, err := false, errCause := .none, errPc := 0#32, busy := true }) with
    cpc := c
    mem := Memory.writeBytes s.mem c.toNat bs
    unstable := s.unstable.filter fun a => decide (a < c.toNat ∨ c.toNat + 4 ≤ a)
    resetInput := false
    turns := [] }

end Sys2Proof.Machine
end

