-- ==== Sys2Proof/Machine/Engine.lean ====
section
/-! DEFINITION. The engine step (40_control.md R73). -/

namespace Sys2Proof.Machine

/-- One turn of the engine: fetch, decode, execute while STATUS.BUSY = 1; no step while BUSY = 0, and the idle
engine keeps its state (40_control.md R73; 60_exceptions.md R136; log 12), nor while the reset input is
asserted (70_reset_and_hazards.md R137). -/
def engineTurn (s : State) : Host.Outcome State Fault Refusal :=
  if s.busy && !s.resetInput then
    match s.command with
    | .ok i => exec i s
    | .error c => s.settle (.error c)
  else .next s

end Sys2Proof.Machine
end

