-- ==== Sys2Proof/Machine/HostPort.lean ====
section
/-! DEFINITION. The host's side: the register block, the memory window, soft reset, and how a host-bus
access becomes host turns (10_state.md R26 to R36; 20_memory.md R42, R58; 70_reset_and_hazards.md R137 to R139). -/

namespace Sys2Proof.Machine

/-! ### The register block (10_state.md R26) -/

/-- What a host read of CPC returns: CPC while idle; during a run the address of the command in execution
or of the next one (10_state.md R29; log 4). -/
def State.cpcRead (s : State) : Word :=
  if s.busy && Config.cpcReadsNext s.draws then s.cpc + 4#32 else s.cpc

/-- What a read of the register at `off` returns; reserved offsets read 0 and no read has a side effect
(10_state.md R26 to R33; 20_memory.md R54). -/
def State.regValue (s : State) (off : BitVec 8) : Word :=
  match off.toNat with
  | 0x00 => s.ctrlWord
  | 0x04 => s.statusWord
  | 0x08 => s.cpcRead
  | 0x0C => s.errCause.code.setWidth 32
  | 0x10 => s.errPc
  | 0x14 => Config.idValue
  | 0x18 => BitVec.ofNat 32 s.memSize
  | _ => 0#32

/-- Soft reset: a store at CPC during a run may have been cut short, every register takes its reset value,
every other byte of MEM is kept (70_reset_and_hazards.md R138; 90_conflicts.md C6). -/
def State.softReset (s : State) : State :=
  match s.storeAtCpc with
  | some (a, n) => (s.tear a n).clearRegisters
  | none => s.clearRegisters

/-- A host write to CTRL: SRST wins over START; IE takes its written value; START counts only while idle
(10_state.md R27; 70_reset_and_hazards.md R138, R139; log 14). -/
def State.writeCtrl (s : State) (v : Word) : State :=
  if v.getLsbD 2 then s.softReset
  else
    let t := { s with ie := v.getLsbD 1 }
    if v.getLsbD 0 && !s.busy then t.started else t

/-- A host write to the register at `off`; CPC only while idle, read-only and reserved ones ignore it
(10_state.md R26 to R33; 60_exceptions.md R129). -/
def State.writeReg (s : State) (off : BitVec 8) (v : Word) : State :=
  match off.toNat with
  | 0x00 => s.writeCtrl v
  | 0x04 => s.writeStatus v
  | 0x08 => if s.busy then s else { s with cpc := v }
  | _ => s

/-- The accesses the register block answers: 32-bit, aligned (10_state.md R34). -/
abbrev alignedWord (off : BitVec 8) (size : Nat) : Prop := size = 4 ∧ off.toNat % 4 = 0

/-! ### The memory window (20_memory.md R42, R58) -/

/-- What a host read of MEM byte `i` returns: any value during a run (20_memory.md R58; log 3). -/
def State.windowByte (s : State) (i : Nat) : Byte :=
  if s.busy then Config.busyReadByte s.draws i else s.readByte .window i

/-- A host write of MEM byte `i`: while idle it sets the byte and makes it stable, during a run it makes it
unstable (20_memory.md R58). -/
def State.windowWrite (s : State) (i : Nat) (b : Byte) : State :=
  if s.busy then { s with unstable := insertAddr s.unstable i }
  else { s with mem := Memory.write s.mem i b, unstable := removeAddr s.unstable i }

/-! ### One host step (10_state.md R16) -/

/-- One host access; ignored while the reset input is asserted (70_reset_and_hazards.md R137). -/
def hostTurn (a : HostAccess) (s : State) : Host.Outcome State Fault Refusal :=
  if s.resetInput then .next s
  else
    match a with
    | .regRead off size =>
      if alignedWord off size then .next { s with hostReply := .word (s.regValue off) }.tick
      else .refused .registerAccessShape
    | .regWrite off size v =>
      if alignedWord off size then .next (s.writeReg off v).tick
      else .refused .registerAccessShape
    | .memRead i =>
      if i < s.memSize then .next { s with hostReply := .byte (s.windowByte i) }.tick
      else .refused .windowBeyondMem
    | .memWrite i b =>
      if i < s.memSize then .next (s.windowWrite i b).tick
      else .refused .windowBeyondMem

/-- The platform asserts the reset input (70_reset_and_hazards.md R137). -/
def State.assertReset (s : State) : State := { s with resetInput := true }

/-- The platform releases the reset input: every piece of state takes its reset value, if the input was
asserted (70_reset_and_hazards.md R137; log 11). -/
def State.releaseReset (s : State) : State := if s.resetInput then s.hardwareReset else s

/-! ### The host bus (10_state.md R26; 20_memory.md R42; log 18) -/

/-- The host-bus address of the register at `off` (10_state.md R26). -/
def regBusAddress (off : BitVec 8) : Nat := Config.csrBase + off.toNat

/-- The host-bus address of MEM byte `i` (20_memory.md R42). -/
def windowBusAddress (i : Nat) : Nat := Config.memHostBase + i

/-- The byte accesses a window access of `size` bytes splits into: HOST_BUS_ORDER is open only for accesses
wider than a byte; a one-byte access is that byte, with the data's only byte (20_memory.md R42). -/
def busSplit (size : Nat) : List (Nat × Nat) :=
  match size with
  | 0 => []
  | 1 => [(0, 0)]
  | n + 2 => Config.hostBusOrder (n + 2)

/-- The turns a host-bus read of `size` bytes at `addr` takes: one register access, or byte accesses of the
window in the platform's order; none where the block does not answer. -/
def busReadTurns (addr size : Nat) : List Turn :=
  if Config.csrBase ≤ addr ∧ addr < Config.csrBase + 256 then
    [.host (.regRead (BitVec.ofNat 8 (addr - Config.csrBase)) size)]
  else if Config.memHostBase ≤ addr then
    (busSplit size).map fun p => .host (.memRead (addr - Config.memHostBase + p.1))
  else []

/-- The turns a host-bus write of `size` bytes with the value `v` at `addr` takes; byte k of the data is
bits 8k+7..8k of `v`. -/
def busWriteTurns (addr size : Nat) (v : Nat) : List Turn :=
  if Config.csrBase ≤ addr ∧ addr < Config.csrBase + 256 then
    [.host (.regWrite (BitVec.ofNat 8 (addr - Config.csrBase)) size (BitVec.ofNat 32 v))]
  else if Config.memHostBase ≤ addr then
    (busSplit size).map fun p =>
      .host (.memWrite (addr - Config.memHostBase + p.1) (BitVec.ofNat 8 (v / 256 ^ p.2)))
  else []

end Sys2Proof.Machine
end

