-- ==== Sys2Proof/Machine/Step.lean ====
section
/-! DEFINITION. One step of the whole machine: the turn that is due. -/

namespace Sys2Proof.Machine

/-- Takes the first turn of `turns`; with none left the turn is the engine's (10_state.md R15, R16; log 9). -/
def step (s : State) : Host.Outcome State Fault Refusal :=
  match s.turns with
  | [] => engineTurn s
  | .engine :: ts => engineTurn { s with turns := ts }
  | .host a :: ts => hostTurn a { s with turns := ts }
  | .assertReset :: ts => .next { s with turns := ts }.assertReset
  | .releaseReset :: ts => .next { s with turns := ts }.releaseReset

/-- `s` with the command word whose opcode-table bits are `w` where the next step fetches it, and all that
takes: a run is on and the engine has the next turn (log 17). -/
def State.withFetchWord (s : State) (nbits w : Nat) : State :=
  s.aboutToFetch (bytesOfWord (BitVec.ofNat 32 (w % 2 ^ nbits)))

end Sys2Proof.Machine
end

