-- ==== Sys2Proof/Safety.lean ====
section
/-! DEFINITION. The terms the claims use: what a command leaves unchanged, how a command ends, the invariant
every step keeps, and the polynomial an element stands for. -/

namespace Sys2Proof.Machine

/-! ### Frames -/

/-- Every field register holds what it held. -/
def SameF (s t : State) : Prop := ∀ r : Reg, t.freg r = s.freg r

/-- Every scalar register reads as it did. -/
def SameS (s t : State) : Prop := ∀ r : Reg, t.sreg r = s.sreg r

/-- Every byte of MEM reads as it did (an unstable byte stays unstable). -/
def SameMem (s t : State) : Prop := ∀ a : Nat, t.memByte? a = s.memByte? a

/-- Every byte of MEM outside [a, a + n) reads as it did. -/
def SameMemOutside (s t : State) (a n : Nat) : Prop :=
  ∀ k : Nat, k < a ∨ a + n ≤ k → t.memByte? k = s.memByte? k

/-- Every F register but `d` holds what it held. -/
def SameFBut (s t : State) (d : Reg) : Prop := ∀ r : Reg, r ≠ d → t.freg r = s.freg r

/-- Every F register that is no part of M[k] holds what it held (10_state.md R19). -/
def SameFOutsideM (s t : State) (k : Reg) : Prop :=
  ∀ r : Reg, r.toNat < 4 * k.toNat ∨ 4 * k.toNat + 3 < r.toNat → t.freg r = s.freg r

/-- M[k] is the registers F[4k], F[4k+1], F[4k+2], F[4k+3], in the order a, b, c, d (10_state.md R19, R21). -/
def ViewsF (s : State) (k : Reg) : Prop :=
  (s.mreg k).a = s.freg (BitVec.ofNat 4 (4 * k.toNat)) ∧
  (s.mreg k).b = s.freg (BitVec.ofNat 4 (4 * k.toNat + 1)) ∧
  (s.mreg k).c = s.freg (BitVec.ofNat 4 (4 * k.toNat + 2)) ∧
  (s.mreg k).d = s.freg (BitVec.ofNat 4 (4 * k.toNat + 3))

/-- Every S register but `d` reads as it did. -/
def SameSBut (s t : State) (d : Reg) : Prop := ∀ r : Reg, r ≠ d → t.sreg r = s.sreg r

/-- What no command touches: CTRL.IE, MEM_SIZE, the unstable marks, the reset input, and the model's own
fields but the draw counter (20_memory.md R41: no command can reach the host register block). -/
structure SameShell (s t : State) : Prop where
  ie : t.ie = s.ie
  memSize : t.memSize = s.memSize
  unstable : t.unstable = s.unstable
  resetInput : t.resetInput = s.resetInput
  hostReply : t.hostReply = s.hostReply
  memEpoch : t.memEpoch = s.memEpoch
  turns : t.turns = s.turns

/-- The whole block as it was: every register, bit and byte, the model's own fields `hostReply`, `draws` and
`turns` apart. -/
structure SameBlock (s t : State) : Prop where
  fregs : SameF s t
  sregs : SameS s t
  cpc : t.cpc = s.cpc
  ie : t.ie = s.ie
  busy : t.busy = s.busy
  done : t.done = s.done
  err : t.err = s.err
  errCause : t.errCause = s.errCause
  errPc : t.errPc = s.errPc
  memSize : t.memSize = s.memSize
  mem : SameMem s t
  resetInput : t.resetInput = s.resetInput
  memEpoch : t.memEpoch = s.memEpoch

/-- Every register and status bit as it was, MEM aside. -/
structure SameRegisters (s t : State) : Prop where
  fregs : SameF s t
  sregs : SameS s t
  cpc : t.cpc = s.cpc
  ie : t.ie = s.ie
  busy : t.busy = s.busy
  done : t.done = s.done
  err : t.err = s.err
  errCause : t.errCause = s.errCause
  errPc : t.errPc = s.errPc
  memSize : t.memSize = s.memSize
  resetInput : t.resetInput = s.resetInput

/-! ### How a command ends -/

/-- The command completed and the run goes on: CPC advanced, run status, ERRCAUSE and ERRPC as they were
(10_state.md R24; 40_control.md R73). -/
structure Completed (s t : State) : Prop extends SameShell s t where
  cpc : t.cpc = s.cpc + 4#32
  busy : t.busy = s.busy
  done : t.done = s.done
  err : t.err = s.err
  errCause : t.errCause = s.errCause
  errPc : t.errPc = s.errPc

/-- HALT's end: the run is over with DONE, CPC advanced, all else as it was (40_control.md R77). -/
structure HaltedFrom (s t : State) : Prop extends SameShell s t where
  cpc : t.cpc = s.cpc + 4#32
  busy : t.busy = false
  done : t.done = true
  err : t.err = s.err
  errCause : t.errCause = s.errCause
  errPc : t.errPc = s.errPc
  fregs : SameF s t
  sregs : SameS s t
  mem : SameMem s t

/-- The command faulted with cause `c` and had no effect (60_exceptions.md R125, R126). -/
structure Faulted (s t : State) (c : Cause) : Prop extends SameShell s t where
  err : t.err = true
  errCause : t.errCause = c
  errPc : t.errPc = s.cpc
  busy : t.busy = false
  done : t.done = s.done
  cpc : t.cpc = s.cpc
  fregs : SameF s t
  sregs : SameS s t
  mem : SameMem s t

/-! ### The tables of the spec the claims are held against -/

/-- The match and mask columns of the opcode map (30_encoding.md R68). -/
def opcodeRows : List (Word × Word) :=
  [ (0x00000000#32, 0xFFFFFFFF#32), (0x01000000#32, 0xFFFFFFFF#32), (0x02000000#32, 0xFF0F0000#32),
    (0x03000000#32, 0xFF0F0000#32), (0x04000000#32, 0xFF000000#32), (0x05000000#32, 0xFF000000#32),
    (0x06000000#32, 0xFF000000#32), (0x10000000#32, 0xFF000FFF#32), (0x11000000#32, 0xFF00FFFF#32),
    (0x12000000#32, 0xFF00FFFF#32), (0x13000000#32, 0xFF000FFF#32), (0x14000000#32, 0xFF00FFFF#32),
    (0x15000000#32, 0xFF0F0000#32), (0x16000000#32, 0xFF000000#32), (0x17000000#32, 0xFF000000#32),
    (0x20000000#32, 0xFFCCCFFF#32), (0x21000000#32, 0xFFCCFFFF#32), (0x22000000#32, 0xFFCFFFFF#32),
    (0x23000000#32, 0xFFC00000#32), (0x24000000#32, 0xFFC00000#32), (0x30000000#32, 0xFFCFFFFE#32),
    (0x31000000#32, 0xFFC00FFF#32), (0x32000000#32, 0xFFC00FFF#32), (0x33000000#32, 0xFF0000FF#32) ]

/-- `w` is a command word: it matches a row (30_encoding.md R69). -/
def IsCommandWord (w : Word) : Prop := ∃ row ∈ opcodeRows, w &&& row.2 = row.1

/-- The causes a command's own rule names, beside FETCH_FAULT and ILLEGAL_CMD (60_exceptions.md R122, R123). -/
def ownCauses : Instr → List Cause
  | .halt | .nop | .lil .. | .lih .. | .addi .. => []
  | .sld .. | .sst .. => [.memRange]
  | .fadd .. | .fmulx .. | .fmulx1 .. | .fmul .. | .fldi .. => []
  | .finv .. => [.divZero]
  | .fld .. => [.memRange, .invalidInput]
  | .fst .. => [.memRange]
  | .mmul .. | .mid .. => []
  | .minv .. => [.divZero]
  | .mld .. => [.memRange, .invalidInput]
  | .mst .. => [.memRange]
  | .hbit .. => []
  | .hupd .. => [.memRange]
  | .hcat .. => [.memRange, .invalidInput]
  | .hval .. => [.memRange]

/-! ### Sequences -/

/-- Commands executed one after another, each from the state the one before it left. For claims only: the
machine fetches each command (40_control.md R73). -/
def execSeq : List Instr → State → Host.Outcome State Fault Refusal
  | [], s => .next s
  | i :: is, s =>
    match exec i s with
    | .next t => execSeq is t
    | .fault r => .fault r
    | .refused r => .refused r

/-- The engine has the next turn of `s` and a run is on; nothing but the engine has a turn to come. -/
structure Running (s : State) : Prop where
  busy : s.busy = true
  resetInput : s.resetInput = false
  turns : s.turns = []

/-- The host has the next turn of `s`, with the access `a`; `ts` are the turns after it. -/
structure HostDue (s : State) (a : HostAccess) (ts : List Turn) : Prop where
  resetInput : s.resetInput = false
  turns : s.turns = .host a :: ts

/-! ### Bytes of MEM -/

/-- MEM holds the stable bytes `bs` at `a`, `a + 1`, …. -/
def Holds (s : State) (a : Nat) (bs : List Byte) : Prop :=
  ∀ k : Nat, ∀ h : k < bs.length, s.memByte? (a + k) = some bs[k]

/-- Every byte of [a, a + n) that is stable in `s` holds, in `t`, its byte of `bs`; an unstable one stays
unstable (20_memory.md R58). -/
def Stored (s t : State) (a : Nat) (bs : List Byte) : Prop :=
  ∀ k : Nat, ∀ h : k < bs.length, t.memByte? (a + k) = if a + k ∈ s.unstable then none else some bs[k]

/-! ### The invariant every step keeps -/

/-- What is true of every state the machine reaches. -/
structure Inv (s : State) : Prop where
  /-- MEM_SIZE is one of its legal values (00_scope.md R7) -/
  memSize : Config.LegalMemSize s.memSize
  /-- MEM is in its canonical form -/
  memWf : Memory.wf s.mem
  /-- MEM has the addresses 0 to MEM_SIZE - 1 (10_state.md R37) -/
  memInside : ∀ c ∈ s.mem, c.1 < s.memSize
  /-- the unstable addresses are listed in rising order -/
  unstableRising : s.unstable.Pairwise (· < ·)
  /-- the unstable bytes are bytes of MEM -/
  unstableInside : ∀ a ∈ s.unstable, a < s.memSize
  /-- S0 is never written (10_state.md R23) -/
  s0 : s.sregs[0] = 0#32
  /-- at most one of BUSY, DONE and ERR is 1 (10_state.md R28) -/
  oneStatus : ¬(s.busy = true ∧ s.done = true) ∧ ¬(s.busy = true ∧ s.err = true) ∧ ¬(s.done = true ∧ s.err = true)
  /-- a run in progress, or one that halted, has no fault recorded (60_exceptions.md R128) -/
  noOldFault : s.busy = true ∨ s.done = true → s.errCause = .none ∧ s.errPc = 0#32
  /-- ERR is set with a cause (60_exceptions.md R122) -/
  errHasCause : s.err = true → s.errCause ≠ .none

/-! ### The polynomial an element stands for -/

/-- The polynomial over GF(2) whose coefficient of x^i is bit i of `e` (00_scope.md R9). For claims only. -/
noncomputable def toPoly (e : Elem) : Polynomial (ZMod 2) :=
  ∑ i ∈ Finset.range 127, if e.getLsbD i then Polynomial.X ^ i else 0

/-- The reduction polynomial x^127 + x^63 + 1 (41_gf127.md R85). For claims only. -/
noncomputable def polyP : Polynomial (ZMod 2) := Polynomial.X ^ 127 + Polynomial.X ^ 63 + 1

end Sys2Proof.Machine
end

