-- ==== Sys2Proof/Certificates/Slice0/Obligations.lean ====
section
/-! DEFINITION. The statements for the provers. -/

open Sys2Proof Sys2Proof.Machine

/-! ## Encoding -/

/-- Encoding a well-formed command and decoding the word, or the bytes MEM would hold, gives the command back,
with every operand at every value (30_encoding.md R63 to R70). -/
def Obligations.DecodeOfEncode : Prop :=
  ∀ (i : Instr) (rest : List Byte), i.wellFormed = true →
    decodeWord (encode i) = .ok i ∧ decode (bytesOfWord (encode i) ++ rest) = .ok (i, rest)

/-- Every word the decoder accepts is the encoding of the well-formed command it gives: no bit of the word is
dropped (30_encoding.md R65, R69). -/
def Obligations.EncodeOfDecode : Prop :=
  ∀ (w : Word) (i : Instr), decodeWord w = .ok i → i.wellFormed = true ∧ encode i = w

/-- The decoder accepts exactly the words that match a row of the opcode map, and no word matches two rows
(30_encoding.md R68, R69). -/
def Obligations.DecodeAcceptsExactlyTheOpcodeMap : Prop :=
  (∀ w : Word, (∃ i, decodeWord w = .ok i) ↔ IsCommandWord w) ∧
  ∀ (w : Word) (row row' : Word × Word), row ∈ opcodeRows → row' ∈ opcodeRows →
    w &&& row.2 = row.1 → w &&& row'.2 = row'.1 → row = row'

/-- Words written out from the spec's encoding of them decode to the command they stand for, one or more of each
family (95_test_vectors.md section 2.1). -/
def Obligations.SampleWordsDecode : Prop :=
  decodeWord 0x0421FFFC#32 = .ok (.addi 2 1 0xFFFC) ∧ decodeWord 0x05320008#32 = .ok (.sld 3 2 8) ∧
  decodeWord 0x10312000#32 = .ok (.fadd 3 1 2) ∧ decodeWord 0x17210010#32 = .ok (.fst 2 1 16) ∧
  decodeWord 0x20312000#32 = .ok (.mmul 3 1 2) ∧ decodeWord 0x24310040#32 = .ok (.mst 3 1 64) ∧
  decodeWord 0x30000001#32 = .ok (.hbit 0 true) ∧ decodeWord 0x33735600#32 = .ok (.hval 7 3 5 6)

/-! ## The engine step -/

/-- When the bytes at CPC decode to a command, the step is the execution of that command (40_control.md R73). -/
def Obligations.StepRunsDecodedCommand : Prop :=
  ∀ (s : State) (i : Instr) (rest : List Byte), s.busy = true → s.resetInput = false →
    s.cpc.toNat % 4 = 0 → s.cpc.toNat + 4 ≤ s.memSize →
    decode (s.memBytes .fetch s.cpc.toNat 4) = .ok (i, rest) →
    (s.turns = [] → step s = exec i s) ∧
    ∀ ts, s.turns = .engine :: ts → step s = exec i { s with turns := ts }

/-- A fetch from a CPC that is not 4-aligned, or whose word is not inside MEM, raises FETCH_FAULT, with no other
effect (40_control.md R74; 20_memory.md R51). -/
def Obligations.UnfetchableCpcRaisesFetchFault : Prop :=
  ∀ s : State, Running s → (s.cpc.toNat % 4 ≠ 0 ∨ s.memSize < s.cpc.toNat + 4) →
    ∃ t, step s = .next t ∧ Faulted s t .fetchFault

/-- A word that matches no row of the opcode map raises ILLEGAL_CMD, with no other effect (30_encoding.md R70). -/
def Obligations.IllegalWordRaisesIllegalCmd : Prop :=
  ∀ (s : State) (w : Word), Running s → s.cpc.toNat % 4 = 0 → s.cpc.toNat + 4 ≤ s.memSize →
    Holds s s.cpc.toNat (bytesOfWord w) → ¬IsCommandWord w →
    ∃ t, step s = .next t ∧ Faulted s t .illegalCmd

/-- An idle engine takes no step and keeps its state (40_control.md R73; 60_exceptions.md R136). That the model
shows this as a step that changes nothing is its own choice (log 12). -/
def Obligations.IdleEngineKeepsItsState : Prop :=
  ∀ s : State, s.busy = false →
    (s.turns = [] → step s = .next s) ∧ ∀ ts, s.turns = .engine :: ts → step s = .next { s with turns := ts }

/-- Every command, in every state, has a next state: it faults and has no effect, or it completes and CPC
advances by 4, or it is HALT (60_exceptions.md R125, R126; 10_state.md R24). -/
def Obligations.EveryCommandCompletesOrFaultsPrecisely : Prop :=
  ∀ (i : Instr) (s : State), ∃ t, exec i s = .next t ∧
    ((∃ c, c ≠ .none ∧ c ≠ .fetchFault ∧ Faulted s t c) ∨
     (i ≠ .halt ∧ Completed s t) ∨ (i = .halt ∧ HaltedFrom s t))

/-- A well-formed command faults only with a cause the table of causes lists for it; HALT, NOP, LIL, LIH, ADDI,
FADD, FMULX, FMULX1, FMUL, FLDI, MMUL, MID and HBIT have none and never fault (60_exceptions.md R122, R123). -/
def Obligations.CommandsFaultOnlyWithTheirOwnCauses : Prop :=
  ∀ (i : Instr) (s t : State) (c : Cause), i.wellFormed = true → exec i s = .next t → Faulted s t c →
    c ∈ ownCauses i

/-- An M operand of 4..15 is ILLEGAL_CMD, before any other check of the command (30_encoding.md R66, R70;
60_exceptions.md R124). That a term takes the fault its word would is the model's inference (log 19). -/
def Obligations.BadMatrixFieldRaisesIllegalCmd : Prop :=
  ∀ (i : Instr) (s : State), i.wellFormed = false → ∃ t, exec i s = .next t ∧ Faulted s t .illegalCmd

/-- No command makes an unstable byte stable (20_memory.md R58), and none touches memory outside the range of a
store (20_memory.md R52). -/
def Obligations.OnlyStoresWriteMemory : Prop :=
  ∀ (i : Instr) (s t : State), exec i s = .next t →
    (∀ a, s.memByte? a = none → t.memByte? a = none) ∧
    (storeRange i s = none → SameMem s t) ∧
    ∀ a n, storeRange i s = some (a, n) → SameMemOutside s t a n

/-! ## Invariant and runs -/

/-- Every step, of the engine, the host or the reset input, keeps the invariant. Its clauses on the form of the
lists of MEM and of the unstable bytes are the model's own (log 25); the others are the spec's (00_scope.md R7;
10_state.md R23, R28, R37; 60_exceptions.md R122, R128). -/
def Obligations.EveryStepKeepsTheInvariant : Prop :=
  ∀ s t : State, Inv s → step s = .next t → Inv t

/-- The reset state has the invariant, every register holds the reset value the spec gives, the engine is idle, and
every byte of MEM is unspecified (10_state.md R40). That such a byte reads as a free value of its address is the
model's form of "any value" (log 1). -/
def Obligations.ResetStateHasItsValuesAndTheInvariant : Prop :=
  Inv State.reset ∧ (∀ r, State.reset.freg r = ZERO) ∧ (∀ r, State.reset.sreg r = 0#32) ∧
    (∀ k, State.reset.mreg k = ⟨ZERO, ZERO, ZERO, ZERO⟩) ∧ State.reset.cpc = 0#32 ∧
    State.reset.regValue 0x00 = 0#32 ∧ State.reset.regValue 0x04 = 0#32 ∧ State.reset.regValue 0x08 = 0#32 ∧
    State.reset.regValue 0x0C = 0#32 ∧ State.reset.regValue 0x10 = 0#32 ∧ State.reset.irq = false ∧
    ∀ a, State.reset.memByte? a = some (Config.powerOnByte 0 a)

/-- Every run without host turns ends, within floor((MEM_SIZE - c) / 4) + 1 steps from CPC = c < MEM_SIZE and
within 1 step otherwise (40_control.md R76). -/
def Obligations.EveryRunEnds : Prop :=
  ∀ s : State, Running s → Config.LegalMemSize s.memSize →
    ∃ n t, n ≤ (if s.cpc.toNat < s.memSize then (s.memSize - s.cpc.toNat) / 4 + 1 else 1) ∧
      Host.Core.run Sys2Proof.core n s = .next t ∧ t.busy = false

/-- After a fault, a START with nothing else changed retries the faulting command and gives the same fault again
(60_exceptions.md R127). -/
def Obligations.RetryGivesTheSameFault : Prop :=
  ∀ (s t : State) (v : Word), Running s → s.err = false → s.unstable = [] →
    step s = .next t → t.err = true → v.getLsbD 0 = true → v.getLsbD 2 = false →
    ∃ u w, step { t with turns := [.host (.regWrite 0x00 4 v)] } = .next u ∧ step u = .next w ∧
      w.err = true ∧ w.busy = false ∧ w.errCause = t.errCause ∧ w.errPc = t.errPc ∧ w.cpc = t.cpc ∧
      SameF t w ∧ SameS t w ∧ SameMem t w

/-- A store over the next command's bytes is seen by its fetch (20_memory.md R61). -/
def Obligations.StoreOverTheNextCommandIsFetched : Prop :=
  ∀ (s : State) (ss sb : Reg) (imm : Imm) (j : Instr), Running s →
    s.cpc.toNat % 4 = 0 → s.cpc.toNat + 8 ≤ s.memSize → s.memSize ≤ 2 ^ 31 →
    Holds s s.cpc.toNat (bytesOfWord (encode (.sst ss sb imm))) →
    s.ea sb imm = s.cpc.toNat + 4 → decodeWord (s.sreg ss) = .ok j →
    (∀ k < 4, s.cpc.toNat + 4 + k ∉ s.unstable) →
    ∃ t, step s = .next t ∧ t.cpc = s.cpc + 4#32 ∧ step t = exec j t

/-! ## Control and scalar commands -/

/-- HALT ends the run: BUSY 0, DONE 1, CPC advanced, all else kept; NOP leaves all state but CPC unchanged
(40_control.md R77, R78). -/
def Obligations.ControlCommands : Prop :=
  ∀ s : State, (∃ t, exec .halt s = .next t ∧ HaltedFrom s t) ∧
    ∃ t, exec .nop s = .next t ∧ Completed s t ∧ SameF s t ∧ SameS s t ∧ SameMem s t

/-- LIL clears the high half, LIH keeps the low half, and both write nothing when Sd is S0
(40_control.md R80, R81). -/
def Obligations.LoadImmediateCommands : Prop :=
  ∀ (s : State) (sd : Reg) (imm : Imm),
    (∃ t, exec (.lil sd imm) s = .next t ∧ Completed s t ∧ SameF s t ∧ SameMem s t ∧ SameSBut s t sd ∧
      t.sreg sd = if sd = 0#4 then 0#32 else 0#16 ++ imm) ∧
    (∃ t, exec (.lih sd imm) s = .next t ∧ Completed s t ∧ SameF s t ∧ SameMem s t ∧ SameSBut s t sd ∧
      t.sreg sd = if sd = 0#4 then 0#32 else imm ++ (s.sreg sd).extractLsb' 0 16)

/-- ADDI adds the signed immediate modulo 2^32; a write to S0 is discarded (40_control.md R82). -/
def Obligations.AddImmediateWraps : Prop :=
  ∀ (s : State) (sd sa : Reg) (imm : Imm),
    ∃ t, exec (.addi sd sa imm) s = .next t ∧ Completed s t ∧ SameF s t ∧ SameMem s t ∧ SameSBut s t sd ∧
      (sd = 0#4 → t.sreg sd = 0#32) ∧
      (sd ≠ 0#4 → ((t.sreg sd).toNat : Int) = ((s.sreg sa).toNat + imm.toInt) % 2 ^ 32)

/-- SLD loads the big-endian word at the effective address, at any alignment; outside MEM it is MEM_RANGE, with
Sd unchanged (40_control.md R83). -/
def Obligations.ScalarLoad : Prop :=
  ∀ (s : State) (sd sb : Reg) (imm : Imm),
    (s.ea sb imm + 4 ≤ s.memSize →
      ∃ t, exec (.sld sd sb imm) s = .next t ∧ Completed s t ∧ SameF s t ∧ SameMem s t ∧ SameSBut s t sd ∧
        (sd = 0#4 → t.sreg sd = 0#32) ∧
        ∀ b3 b2 b1 b0 : Byte, sd ≠ 0#4 → Holds s (s.ea sb imm) [b3, b2, b1, b0] →
          t.sreg sd = b3 ++ b2 ++ b1 ++ b0) ∧
    (s.memSize < s.ea sb imm + 4 →
      ∃ t, exec (.sld sd sb imm) s = .next t ∧ Faulted s t .memRange)

/-- SST stores the word big-endian at the effective address and changes no other byte; outside MEM it is
MEM_RANGE and no byte is written (40_control.md R84). -/
def Obligations.ScalarStore : Prop :=
  ∀ (s : State) (ss sb : Reg) (imm : Imm),
    (s.ea sb imm + 4 ≤ s.memSize →
      ∃ t, exec (.sst ss sb imm) s = .next t ∧ Completed s t ∧ SameF s t ∧ SameS s t ∧
        SameMemOutside s t (s.ea sb imm) 4 ∧
        Stored s t (s.ea sb imm)
          [(s.sreg ss).extractLsb' 24 8, (s.sreg ss).extractLsb' 16 8, (s.sreg ss).extractLsb' 8 8,
           (s.sreg ss).extractLsb' 0 8]) ∧
    (s.memSize < s.ea sb imm + 4 →
      ∃ t, exec (.sst ss sb imm) s = .next t ∧ Faulted s t .memRange)

/-- The effective address is the base register plus the signed displacement, modulo 2^32 (20_memory.md R44). -/
def Obligations.EffectiveAddressWraps : Prop :=
  ∀ (s : State) (rb : Reg) (imm : Imm), (s.ea rb imm : Int) = ((s.sreg rb).toNat + imm.toInt) % 2 ^ 32

/-- S0 always reads as 0, before and after every command, no command writes its storage, and as a base it gives the
absolute address form (10_state.md R23). -/
def Obligations.ScalarZeroIsNeverWritten : Prop :=
  ∀ (i : Instr) (s t : State), exec i s = .next t →
    s.sreg 0#4 = 0#32 ∧ t.sreg 0#4 = 0#32 ∧ t.sregs[0] = s.sregs[0] ∧
    ∀ imm : Imm, (s.ea 0#4 imm : Int) = imm.toInt % 2 ^ 32

/-! ## GF127 -/

/-- fmulx multiplies by x modulo P = x^127 + x^63 + 1; fmulx1 is fmulx plus the element, which is multiplication
by x + 1 modulo P (41_gf127.md R88, R89). -/
def Obligations.FmulxAndFmulx1ModP : Prop :=
  ∀ e : Elem, toPoly (fmulx e) = (Polynomial.X * toPoly e) %ₘ polyP ∧ fmulx1 e = fmulx e ^^^ e ∧
    toPoly (fmulx1 e) = ((Polynomial.X + 1) * toPoly e) %ₘ polyP

/-- Shift-and-add computes the product of the polynomials modulo P (41_gf127.md R90). -/
def Obligations.FmulIsProductModP : Prop :=
  ∀ a b : Elem, toPoly (fmul a b) = (toPoly a * toPoly b) %ₘ polyP

/-- The field laws: XOR is addition and its own inverse; fmul is commutative and associative, distributes over
XOR, and has ONE as identity and ZERO as absorbing element (41_gf127.md R85). -/
def Obligations.FieldLaws : Prop :=
  ∀ a b c : Elem, fadd a a = ZERO ∧ fadd a ZERO = a ∧ fmul a b = fmul b a ∧
    fmul (fmul a b) c = fmul a (fmul b c) ∧ fmul a (fadd b c) = fadd (fmul a b) (fmul a c) ∧
    fmul a ONE = a ∧ fmul a ZERO = ZERO

/-- The extended-Euclid loop computes the unique inverse of every nonzero element (41_gf127.md R91; the
polynomial P is irreducible, R85). -/
def Obligations.FinvIsTheUniqueInverse : Prop :=
  ∀ a : Elem, a ≠ ZERO → fmul a (finv a) = ONE ∧ ∀ b : Elem, fmul a b = ONE → b = finv a

/-- FADD, FMULX, FMULX1, FMUL and FLDI write the function of the old sources to Fd and nothing else, whichever
registers are the same (41_gf127.md R93 to R96, R98). -/
def Obligations.FieldRegisterCommands : Prop :=
  ∀ (s : State) (fd fa fb : Reg) (imm : Imm),
    (∃ t, exec (.fadd fd fa fb) s = .next t ∧ Completed s t ∧ SameS s t ∧ SameMem s t ∧ SameFBut s t fd ∧
      t.freg fd = s.freg fa ^^^ s.freg fb) ∧
    (∃ t, exec (.fmulx fd fa) s = .next t ∧ Completed s t ∧ SameS s t ∧ SameMem s t ∧ SameFBut s t fd ∧
      t.freg fd = fmulx (s.freg fa)) ∧
    (∃ t, exec (.fmulx1 fd fa) s = .next t ∧ Completed s t ∧ SameS s t ∧ SameMem s t ∧ SameFBut s t fd ∧
      t.freg fd = fmulx1 (s.freg fa)) ∧
    (∃ t, exec (.fmul fd fa fb) s = .next t ∧ Completed s t ∧ SameS s t ∧ SameMem s t ∧ SameFBut s t fd ∧
      t.freg fd = fmul (s.freg fa) (s.freg fb)) ∧
    (∃ t, exec (.fldi fd imm) s = .next t ∧ Completed s t ∧ SameS s t ∧ SameMem s t ∧ SameFBut s t fd ∧
      (t.freg fd).toNat = imm.toNat)

/-- FINV writes finv of Fa, the inverse of FinvIsTheUniqueInverse; of ZERO it is DIV_ZERO, with Fd not written
(41_gf127.md R97). -/
def Obligations.InverseCommand : Prop :=
  ∀ (s : State) (fd fa : Reg),
    (s.freg fa ≠ ZERO → ∃ t, exec (.finv fd fa) s = .next t ∧ Completed s t ∧ SameS s t ∧ SameMem s t ∧
      SameFBut s t fd ∧ t.freg fd = finv (s.freg fa)) ∧
    (s.freg fa = ZERO → ∃ t, exec (.finv fd fa) s = .next t ∧ Faulted s t .divZero)

/-- The element codec: 16 bytes, byte k holding bits 127-8k..120-8k of the element with bit 127 = 0; DecF undoes
EncF, refuses a set top bit, and every 16 bytes with the top bit clear are the encoding of an element
(00_scope.md R13; 20_memory.md R45). -/
def Obligations.ElementCodec : Prop :=
  (∀ e : Elem, ∃ h : (encF e).length = 16, decF (encF e) = some e ∧
    ∀ k, ∀ hk : k < 16, (encF e)[k]'(by rw [h]; exact hk) = (0#1 ++ e).extractLsb' (120 - 8 * k) 8) ∧
  (∀ bs : List Byte, bs.length = 16 → topBit bs = false → ∃ e, decF bs = some e ∧ encF e = bs) ∧
  (∀ bs : List Byte, bs.length = 16 → topBit bs = true → decF bs = none)

/-- FLD loads the element whose big-endian bytes stand at the effective address; a set top bit is INVALID_INPUT, a
range outside MEM is MEM_RANGE, and on either fault nothing is written (41_gf127.md R99). -/
def Obligations.ElementLoad : Prop :=
  ∀ (s : State) (fd sb : Reg) (imm : Imm),
    (∀ bs : List Byte, s.ea sb imm + 16 ≤ s.memSize → bs.length = 16 → Holds s (s.ea sb imm) bs →
      topBit bs = false →
      ∃ t, exec (.fld fd sb imm) s = .next t ∧ Completed s t ∧ SameS s t ∧ SameMem s t ∧ SameFBut s t fd ∧
        (t.freg fd).toNat = be bs) ∧
    (∀ b : Byte, s.ea sb imm + 16 ≤ s.memSize → Holds s (s.ea sb imm) [b] → b.getLsbD 7 = true →
      ∃ t, exec (.fld fd sb imm) s = .next t ∧ Faulted s t .invalidInput) ∧
    (s.memSize < s.ea sb imm + 16 → ∃ t, exec (.fld fd sb imm) s = .next t ∧ Faulted s t .memRange)

/-- FST stores the 16 encoded bytes of the element at the effective address and changes no other byte; outside MEM
it is MEM_RANGE (41_gf127.md R100). -/
def Obligations.ElementStore : Prop :=
  ∀ (s : State) (fs sb : Reg) (imm : Imm),
    (s.ea sb imm + 16 ≤ s.memSize →
      ∃ t, exec (.fst fs sb imm) s = .next t ∧ Completed s t ∧ SameF s t ∧ SameS s t ∧
        SameMemOutside s t (s.ea sb imm) 16 ∧ Stored s t (s.ea sb imm) (encF (s.freg fs))) ∧
    (s.memSize < s.ea sb imm + 16 → ∃ t, exec (.fst fs sb imm) s = .next t ∧ Faulted s t .memRange)

/-- FLD of the bytes FST stored gives back the element (41_gf127.md R100). -/
def Obligations.LoadOfStoredElement : Prop :=
  ∀ (s : State) (fs fd sb : Reg) (imm : Imm), s.ea sb imm + 16 ≤ s.memSize →
    (∀ k < 16, s.ea sb imm + k ∉ s.unstable) →
    ∃ t u, exec (.fst fs sb imm) s = .next t ∧ exec (.fld fd sb imm) t = .next u ∧ Completed t u ∧
      u.freg fd = s.freg fs ∧ SameFBut s u fd

/-! ## SL2 -/

/-- mmul is the row-by-column product over the field and det is ad + bc; mmul is associative with identity IDENTITY, it
is not commutative, and the determinant of a product is the product of the determinants (42_sl2.md R101, R102,
R104). -/
def Obligations.MatrixLaws : Prop :=
  (∀ a b c d e f g h : Elem,
    mmul ⟨a, b, c, d⟩ ⟨e, f, g, h⟩ =
      ⟨fmul a e ^^^ fmul b g, fmul a f ^^^ fmul b h, fmul c e ^^^ fmul d g, fmul c f ^^^ fmul d h⟩ ∧
    det ⟨a, b, c, d⟩ = fmul a d ^^^ fmul b c) ∧
  (∀ m n o : Mat, mmul (mmul m n) o = mmul m (mmul n o)) ∧
  (∀ m : Mat, mmul IDENTITY m = m ∧ mmul m IDENTITY = m) ∧
  (∃ m n : Mat, mmul m n ≠ mmul n m) ∧
  ∀ m n : Mat, det (mmul m n) = fmul (det m) (det n)

/-- minv is the inverse on both sides of every matrix with a nonzero determinant, and for determinant ONE it is
(d, b, c, a) (42_sl2.md R103, R104). -/
def Obligations.MinvIsTheMatrixInverse : Prop :=
  ∀ m : Mat, (det m ≠ ZERO → mmul m (minv m) = IDENTITY ∧ mmul (minv m) m = IDENTITY) ∧
    (det m = ONE → minv m = ⟨m.d, m.b, m.c, m.a⟩)

/-- M[k] is F[4k], F[4k+1], F[4k+2], F[4k+3] in the order a, b, c, d, in every state; and MMUL, MID and HBIT write
M[r1], that is those four F registers in that order, from the old sources, and nothing else: the product Ma · Mb,
the identity, and the state times the bit's generator (10_state.md R19, R21; 42_sl2.md R101, R105, R107;
43_tzhash.md R118). -/
def Obligations.MatrixRegisterCommands : Prop :=
  (∀ (s : State) (k : Reg), legalM k = true → ViewsF s k) ∧
  ∀ (s : State) (md ma mb : Reg) (b : Bool), legalM md = true →
    (legalM ma = true → legalM mb = true → ∃ t, exec (.mmul md ma mb) s = .next t ∧ Completed s t ∧ SameS s t ∧
      SameMem s t ∧ SameFOutsideM s t md ∧ t.mreg md = mmul (s.mreg ma) (s.mreg mb) ∧
      t.freg (BitVec.ofNat 4 (4 * md.toNat)) = (mmul (s.mreg ma) (s.mreg mb)).a ∧
      t.freg (BitVec.ofNat 4 (4 * md.toNat + 1)) = (mmul (s.mreg ma) (s.mreg mb)).b ∧
      t.freg (BitVec.ofNat 4 (4 * md.toNat + 2)) = (mmul (s.mreg ma) (s.mreg mb)).c ∧
      t.freg (BitVec.ofNat 4 (4 * md.toNat + 3)) = (mmul (s.mreg ma) (s.mreg mb)).d) ∧
    (∃ t, exec (.mid md) s = .next t ∧ Completed s t ∧ SameS s t ∧ SameMem s t ∧ SameFOutsideM s t md ∧
      t.mreg md = IDENTITY ∧ t.freg (BitVec.ofNat 4 (4 * md.toNat)) = ONE ∧
      t.freg (BitVec.ofNat 4 (4 * md.toNat + 1)) = ZERO ∧ t.freg (BitVec.ofNat 4 (4 * md.toNat + 2)) = ZERO ∧
      t.freg (BitVec.ofNat 4 (4 * md.toNat + 3)) = ONE) ∧
    (∃ t, exec (.hbit md b) s = .next t ∧ Completed s t ∧ SameS s t ∧ SameMem s t ∧ SameFOutsideM s t md ∧
      t.mreg md = mmul (s.mreg md) (if b then G1 else G0))

/-- MINV writes minv of Ma, the inverse of MinvIsTheMatrixInverse; a determinant of ZERO is DIV_ZERO, with Md not written (42_sl2.md R106). -/
def Obligations.MatrixInverseCommand : Prop :=
  ∀ (s : State) (md ma : Reg), legalM md = true → legalM ma = true →
    (det (s.mreg ma) ≠ ZERO → ∃ t, exec (.minv md ma) s = .next t ∧ Completed s t ∧ SameS s t ∧ SameMem s t ∧
      SameFOutsideM s t md ∧ t.mreg md = minv (s.mreg ma)) ∧
    (det (s.mreg ma) = ZERO → ∃ t, exec (.minv md ma) s = .next t ∧ Faulted s t .divZero)

/-- MLD loads the four elements at the effective address; a set top bit in any chunk is INVALID_INPUT, a range
outside MEM is MEM_RANGE whatever the bytes are, and on either fault nothing is written (42_sl2.md R108). -/
def Obligations.MatrixLoad : Prop :=
  ∀ (s : State) (md sb : Reg) (imm : Imm), legalM md = true →
    (∀ m : Mat, s.ea sb imm + 64 ≤ s.memSize → Holds s (s.ea sb imm) (encF m.a ++ encF m.b ++ encF m.c ++ encF m.d) →
      ∃ t, exec (.mld md sb imm) s = .next t ∧ Completed s t ∧ SameS s t ∧ SameMem s t ∧
        SameFOutsideM s t md ∧ t.mreg md = m) ∧
    (∀ (j : Nat) (b : Byte), s.ea sb imm + 64 ≤ s.memSize → j < 4 → Holds s (s.ea sb imm + 16 * j) [b] →
      b.getLsbD 7 = true → ∃ t, exec (.mld md sb imm) s = .next t ∧ Faulted s t .invalidInput) ∧
    (s.memSize < s.ea sb imm + 64 → ∃ t, exec (.mld md sb imm) s = .next t ∧ Faulted s t .memRange)

/-- MST stores the 64 bytes a, b, c, d of the matrix, a hash state's digest x0, x2, x1, x3, and changes no other
byte and no register; outside MEM it is MEM_RANGE (42_sl2.md R109; 43_tzhash.md R114). -/
def Obligations.MatrixStore : Prop :=
  ∀ (s : State) (ms sb : Reg) (imm : Imm), legalM ms = true →
    (s.ea sb imm + 64 ≤ s.memSize →
      ∃ t, exec (.mst ms sb imm) s = .next t ∧ Completed s t ∧ SameF s t ∧ SameS s t ∧
        SameMemOutside s t (s.ea sb imm) 64 ∧
        Stored s t (s.ea sb imm) (encF (s.mreg ms).a ++ encF (s.mreg ms).b ++ encF (s.mreg ms).c ++
          encF (s.mreg ms).d)) ∧
    (s.memSize < s.ea sb imm + 64 → ∃ t, exec (.mst ms sb imm) s = .next t ∧ Faulted s t .memRange)

/-! ## Tillich-Zémor hash -/

/-- The per-bit transition is right-multiplication by the bit's generator; the generators are [[x, 1], [1, 0]] and
[[x, x + 1], [1, 1]], both of determinant ONE (43_tzhash.md R110, R111; 90_conflicts.md C2). -/
def Obligations.TzbitIsRightMultiplication : Prop :=
  (∀ (m : Mat) (b : Bool), tzbit m b = mmul m (if b then G1 else G0)) ∧
    G0 = ⟨0x2#127, 0x1#127, 0x1#127, 0x0#127⟩ ∧ G1 = ⟨0x2#127, 0x3#127, 0x1#127, 0x1#127⟩ ∧
    det G0 = ONE ∧ det G1 = ONE

/-- The homomorphic property: the hash of a concatenation is the product of the hashes, the hash of the empty string
is IDENTITY, and for any split into parts the digests of the parts decode to matrices whose product is the hash of
the whole (43_tzhash.md R116). -/
def Obligations.HashOfConcatenation : Prop :=
  (∀ a b : List Byte, tzHash (a ++ b) = mmul (tzHash a) (tzHash b)) ∧ tzHash [] = IDENTITY ∧
    ∀ parts : List (List Byte),
      (∀ p ∈ parts, decM (encM (tzHash p)) = some (tzHash p)) ∧
      concatMats (parts.map tzHash) = tzHash parts.flatten

/-- Every hash has determinant ONE, and from the all-ZERO matrix every update stays ZERO (42_sl2.md R104;
70_reset_and_hazards.md R140). -/
def Obligations.HashDeterminantAndZeroState : Prop :=
  ∀ bs : List Byte, det (tzHash bs) = ONE ∧ tzupd ⟨ZERO, ZERO, ZERO, ZERO⟩ bs = ⟨ZERO, ZERO, ZERO, ZERO⟩

/-- HUPD absorbs the S[b] bytes at S[a] in order, an empty string leaves Md as it is and never faults; a range
outside MEM is MEM_RANGE before any bit is absorbed (43_tzhash.md R119). -/
def Obligations.HashUpdateCommand : Prop :=
  ∀ (s : State) (md sa sb : Reg), legalM md = true →
    ((s.sreg sb).toNat = 0 ∨ (s.sreg sa).toNat + (s.sreg sb).toNat ≤ s.memSize →
      ∃ t, exec (.hupd md sa sb) s = .next t ∧ Completed s t ∧ SameS s t ∧ SameMem s t ∧
        SameFOutsideM s t md ∧
        ∀ bs : List Byte, bs.length = (s.sreg sb).toNat → Holds s (s.sreg sa).toNat bs →
          t.mreg md = tzupd (s.mreg md) bs) ∧
    ((s.sreg sb).toNat ≠ 0 → s.memSize < (s.sreg sa).toNat + (s.sreg sb).toNat →
      ∃ t, exec (.hupd md sa sb) s = .next t ∧ Faulted s t .memRange)

/-- Eight HBITs with the bits of a byte, most significant first, equal one HUPD of that byte (43_tzhash.md R118). -/
def Obligations.EightHbitsEqualOneHupd : Prop :=
  ∀ (s : State) (md sa sb : Reg) (b : Byte), legalM md = true → (s.sreg sb).toNat = 1 →
    (s.sreg sa).toNat + 1 ≤ s.memSize → Holds s (s.sreg sa).toNat [b] →
    ∃ t u, execSeq ([7, 6, 5, 4, 3, 2, 1, 0].map fun k => .hbit md (b.getLsbD k)) s = .next t ∧
      exec (.hupd md sa sb) s = .next u ∧ SameF t u ∧ SameS t u ∧ SameMem t u

/-- Two HUPDs of adjoining strings equal one HUPD of their concatenation (43_tzhash.md R119). -/
def Obligations.RepeatedHupdsEqualOne : Prop :=
  ∀ (s : State) (md sa sb sa' sb' sc : Reg) (bs cs : List Byte), legalM md = true →
    (s.sreg sb).toNat = bs.length → (s.sreg sb').toNat = cs.length →
    (s.sreg sa').toNat = (s.sreg sa).toNat + bs.length → (s.sreg sc).toNat = bs.length + cs.length →
    (s.sreg sa).toNat + bs.length + cs.length ≤ s.memSize → Holds s (s.sreg sa).toNat (bs ++ cs) →
    ∃ t u, execSeq [.hupd md sa sb, .hupd md sa' sb'] s = .next t ∧ exec (.hupd md sa sc) s = .next u ∧
      SameF t u ∧ SameS t u ∧ SameMem t u

/-- HCAT writes the product of the decoded digests in list order; an empty list or a chunk with its top bit set is
INVALID_INPUT, a range outside MEM is MEM_RANGE, and on any fault Md is unchanged (43_tzhash.md R115, R120). -/
def Obligations.HashConcatenateCommand : Prop :=
  ∀ (s : State) (md sa sb : Reg), legalM md = true →
    (∀ ms : List Mat, ms ≠ [] → ms.length = (s.sreg sb).toNat →
      (s.sreg sa).toNat + 64 * (s.sreg sb).toNat ≤ s.memSize → Holds s (s.sreg sa).toNat (ms.flatMap encM) →
      ∃ t, exec (.hcat md sa sb) s = .next t ∧ Completed s t ∧ SameS s t ∧ SameMem s t ∧
        SameFOutsideM s t md ∧ t.mreg md = ms.foldl mmul IDENTITY) ∧
    ((s.sreg sb).toNat = 0 → ∃ t, exec (.hcat md sa sb) s = .next t ∧ Faulted s t .invalidInput) ∧
    (∀ (j : Nat) (b : Byte), j < 4 * (s.sreg sb).toNat →
      (s.sreg sa).toNat + 64 * (s.sreg sb).toNat ≤ s.memSize → Holds s ((s.sreg sa).toNat + 16 * j) [b] →
      b.getLsbD 7 = true → ∃ t, exec (.hcat md sa sb) s = .next t ∧ Faulted s t .invalidInput) ∧
    ((s.sreg sb).toNat ≠ 0 → s.memSize < (s.sreg sa).toNat + 64 * (s.sreg sb).toNat →
      ∃ t, exec (.hcat md sa sb) s = .next t ∧ Faulted s t .memRange)

/-- HVAL writes 1 when the list is not empty and its product's 64 bytes are the combined digest's, 0 otherwise, a
malformed digest included; only a range outside MEM faults (43_tzhash.md R121). -/
def Obligations.HashValidateCommand : Prop :=
  ∀ (s : State) (sd sa sb sc : Reg),
    ((s.sreg sa).toNat + 64 ≤ s.memSize →
      (s.sreg sc).toNat = 0 ∨ (s.sreg sb).toNat + 64 * (s.sreg sc).toNat ≤ s.memSize →
      ∃ t, exec (.hval sd sa sb sc) s = .next t ∧ Completed s t ∧ SameF s t ∧ SameMem s t ∧ SameSBut s t sd ∧
        (t.sreg sd = 0#32 ∨ t.sreg sd = 1#32) ∧
        (∀ (comb : List Byte) (ms : List Mat), sd ≠ 0#4 → comb.length = 64 → ms.length = (s.sreg sc).toNat →
          Holds s (s.sreg sa).toNat comb → Holds s (s.sreg sb).toNat (ms.flatMap encM) →
          (t.sreg sd = 1#32 ↔ ms ≠ [] ∧ encM (ms.foldl mmul IDENTITY) = comb)) ∧
        ∀ (j : Nat) (b : Byte), j < 4 * (s.sreg sc).toNat → Holds s ((s.sreg sb).toNat + 16 * j) [b] →
          b.getLsbD 7 = true → t.sreg sd = 0#32) ∧
    (s.memSize < (s.sreg sa).toNat + 64 ∨
        ((s.sreg sc).toNat ≠ 0 ∧ s.memSize < (s.sreg sb).toNat + 64 * (s.sreg sc).toNat) →
      ∃ t, exec (.hval sd sa sb sc) s = .next t ∧ Faulted s t .memRange)

/-- The source's reference scenario: of the stored digests of A and B, HCAT gives the hash of A ++ B, and HVAL of
the digest of A ++ B against them gives 1 (43_tzhash.md R116, R120, R121). -/
def Obligations.PartDigestsCombineAndValidate : Prop :=
  ∀ (s : State) (a b : List Byte) (md sd sa sb sc : Reg), legalM md = true → sd ≠ 0#4 →
    (s.sreg sc).toNat = 2 → (s.sreg sa).toNat + 64 ≤ s.memSize → (s.sreg sb).toNat + 128 ≤ s.memSize →
    Holds s (s.sreg sa).toNat (encM (tzHash (a ++ b))) →
    Holds s (s.sreg sb).toNat (encM (tzHash a) ++ encM (tzHash b)) →
    (∃ t, exec (.hcat md sb sc) s = .next t ∧ Completed s t ∧ t.mreg md = tzHash (a ++ b)) ∧
    ∃ t, exec (.hval sd sa sb sc) s = .next t ∧ Completed s t ∧ t.sreg sd = 1#32

/-- Of a list of the digests of A and B with one of the two digests changed in any way, HVAL against the digest of
A ++ B gives 0, with no fault (95_test_vectors.md property 7; 43_tzhash.md R121). -/
def Obligations.ChangedPartDigestFailsValidation : Prop :=
  ∀ (s : State) (a b : List Byte) (x y : List Byte) (sd sa sb sc : Reg),
    x.length = 64 → y.length = 64 →
    (x ≠ encM (tzHash a) ∧ y = encM (tzHash b)) ∨ (x = encM (tzHash a) ∧ y ≠ encM (tzHash b)) →
    (s.sreg sc).toNat = 2 → (s.sreg sa).toNat + 64 ≤ s.memSize → (s.sreg sb).toNat + 128 ≤ s.memSize →
    Holds s (s.sreg sa).toNat (encM (tzHash (a ++ b))) → Holds s (s.sreg sb).toNat (x ++ y) →
    ∃ t, exec (.hval sd sa sb sc) s = .next t ∧ Completed s t ∧ t.sreg sd = 0#32

/-! ## Host register block and window -/

/-- A write to CTRL without SRST sets IE; with START while idle it begins a run and clears DONE, ERR, ERRCAUSE and
ERRPC; START while BUSY is ignored; F, S, CPC and MEM keep their values (10_state.md R27;
70_reset_and_hazards.md R139). -/
def Obligations.StartBeginsARun : Prop :=
  ∀ (s : State) (v : Word) (ts : List Turn), HostDue s (.regWrite 0x00 4 v) ts → v.getLsbD 2 = false →
    ∃ t, step s = .next t ∧ t.turns = ts ∧ t.ie = v.getLsbD 1 ∧ SameF s t ∧ SameS s t ∧ SameMem s t ∧
      t.cpc = s.cpc ∧ t.memSize = s.memSize ∧ t.resetInput = s.resetInput ∧
      (v.getLsbD 0 = true ∧ s.busy = false →
        t.busy = true ∧ t.done = false ∧ t.err = false ∧ t.errCause = .none ∧ t.errPc = 0#32) ∧
      (v.getLsbD 0 = false ∨ s.busy = true →
        t.busy = s.busy ∧ t.done = s.done ∧ t.err = s.err ∧ t.errCause = s.errCause ∧ t.errPc = s.errPc)

/-- A write to CTRL with SRST, START set or not, idle or not: every register takes its reset value, and MEM is kept,
but for the range of a store at CPC during a run (70_reset_and_hazards.md R138). That the command at CPC is judged
by its bytes as they read at that turn, and that the IE bit of the word has no effect, are inferences (log 5, 14). -/
def Obligations.SoftResetClearsRegistersAndKeepsMem : Prop :=
  ∀ (s : State) (v : Word) (ts : List Turn), HostDue s (.regWrite 0x00 4 v) ts → v.getLsbD 2 = true →
    ∃ t, step s = .next t ∧ t.turns = ts ∧ (∀ r, t.freg r = ZERO) ∧ (∀ r, t.sreg r = 0#32) ∧ t.cpc = 0#32 ∧
      t.ie = false ∧ t.busy = false ∧ t.done = false ∧ t.err = false ∧ t.errCause = .none ∧ t.errPc = 0#32 ∧
      t.memSize = s.memSize ∧ t.irq = false ∧
      (∀ i a n, s.busy = true → s.command = .ok i → storeRange i s = some (a, n) → a + n ≤ s.memSize →
        SameMemOutside s t a n) ∧
      (s.busy = false ∨
        (∀ i a n, s.command = .ok i → storeRange i s = some (a, n) → s.memSize < a + n) → SameMem s t)

/-- Host writes to STATUS, CPC and the rest: a 1 clears DONE or ERR and BUSY is read-only; a write to CPC counts
while idle and is ignored during a run; writes to the read-only and reserved offsets are ignored
(10_state.md R26, R28 to R33). -/
def Obligations.RegisterBlockWrites : Prop :=
  ∀ (s : State) (off : BitVec 8) (v : Word) (ts : List Turn), HostDue s (.regWrite off 4 v) ts →
    (off = 0x04 → ∃ t, step s = .next t ∧ t.turns = ts ∧ SameMem s t ∧
      SameRegisters { s with
        done := if v.getLsbD 1 then false else s.done, err := if v.getLsbD 2 then false else s.err } t) ∧
    (off = 0x08 → s.busy = false → ∃ t, step s = .next t ∧ t.turns = ts ∧ SameMem s t ∧
      SameRegisters { s with cpc := v } t) ∧
    (off = 0x08 → s.busy = true → ∃ t, step s = .next t ∧ t.turns = ts ∧ SameBlock s t) ∧
    (off.toNat % 4 = 0 → 0x0C ≤ off.toNat → ∃ t, step s = .next t ∧ t.turns = ts ∧ SameBlock s t)

/-- What the host reads at each offset of the register block, with no side effect: CTRL, STATUS, CPC (during a run,
its value or the next command's address), ERRCAUSE, ERRPC, ID, MEMSIZE, and 0 at every reserved offset
(10_state.md R26 to R33). That the next command's address is CPC + 4 at a host turn is the model's inference (log 4). -/
def Obligations.RegisterBlockReads : Prop :=
  ∀ (s : State) (off : BitVec 8) (ts : List Turn), HostDue s (.regRead off 4) ts → off.toNat % 4 = 0 →
    ∃ t v, step s = .next t ∧ t.turns = ts ∧ SameBlock s t ∧ t.hostReply = .word v ∧
      (off = 0x00 → v = if s.ie then 2#32 else 0#32) ∧
      (off = 0x04 → v.toNat = s.busy.toNat + 2 * s.done.toNat + 4 * s.err.toNat) ∧
      (off = 0x08 → s.busy = false → v = s.cpc) ∧
      (off = 0x08 → s.busy = true → v = s.cpc ∨ v = s.cpc + 4#32) ∧
      (off = 0x0C → v.toNat = match s.errCause with
        | .none => 0 | .illegalCmd => 1 | .fetchFault => 2 | .memRange => 3 | .invalidInput => 4 | .divZero => 5) ∧
      (off = 0x10 → v = s.errPc) ∧ (off = 0x14 → v = 0x545A7F01#32) ∧
      (off = 0x18 → Config.LegalMemSize s.memSize → v.toNat = s.memSize) ∧
      (0x1C ≤ off.toNat → v = 0#32)

/-- IRQ is low throughout a run, and the engine's turn that ends the run, by HALT, by a fault of a command, by a
FETCH_FAULT or by a word that is no command, raises it exactly when IE is 1; so does the execution of any command
(10_state.md R35; 60_exceptions.md R125, R130). -/
def Obligations.IrqRisesWhenARunEnds : Prop :=
  ∀ s : State, Inv s → s.busy = true → s.irq = false ∧
    (∀ t, (s.turns = [] ∨ ∃ ts, s.turns = .engine :: ts) → step s = .next t →
      (t.irq = true ↔ t.busy = false ∧ s.ie = true)) ∧
    ∀ i t, exec i s = .next t → (t.irq = true ↔ t.busy = false ∧ s.ie = true)

/-- While the engine is idle a host write sets the byte, for every later read of it, and no other byte, even if it
was unstable; a host read returns the byte (20_memory.md R58). -/
def Obligations.WindowAccessWhileIdle : Prop :=
  ∀ (s : State) (i : Nat) (b : Byte) (ts : List Turn), s.busy = false → i < s.memSize →
    (HostDue s (.memWrite i b) ts → ∃ t, step s = .next t ∧ t.turns = ts ∧ SameRegisters s t ∧
      (∀ k, t.memByte? k = if k = i then some b else s.memByte? k) ∧ ∀ p, t.readByte p i = b) ∧
    (HostDue s (.memRead i) ts → s.memByte? i = some b → ∃ t, step s = .next t ∧ t.turns = ts ∧ SameBlock s t ∧
      t.hostReply = .byte b)

/-- A host write during a run makes the byte unstable and changes no other byte; a host read during a run changes
nothing, whatever it returns (20_memory.md R58). -/
def Obligations.WindowAccessDuringARun : Prop :=
  ∀ (s : State) (i : Nat) (b : Byte) (ts : List Turn), s.busy = true → i < s.memSize →
    (HostDue s (.memWrite i b) ts → ∃ t, step s = .next t ∧ t.turns = ts ∧ SameRegisters s t ∧
      ∀ k, t.memByte? k = if k = i then none else s.memByte? k) ∧
    (HostDue s (.memRead i) ts → ∃ t v, step s = .next t ∧ t.turns = ts ∧ SameBlock s t ∧ t.hostReply = .byte v)

/-- The host reaches no F or S register, and its accesses never fault: whatever it does but SRST leaves F and S, and
no access sets ERR (10_state.md R36; 60_exceptions.md R129). -/
def Obligations.HostAccessesNeverFaultNorReachRegisters : Prop :=
  ∀ (s t : State) (a : HostAccess) (ts : List Turn), HostDue s a ts → step s = .next t →
    (t.err = true → s.err = true) ∧
    ((∀ v : Word, a = .regWrite 0x00 4 v → v.getLsbD 2 = false) → SameF s t ∧ SameS s t)

/-- The model's two stops, both its own rendering of 93_implementation_defined.md's treatment `refuse` (log 15, 16):
a register access that is not an aligned 32-bit one, and a window access at or above MEM_SIZE. -/
def Obligations.HostAccessesOutsideTheModel : Prop :=
  ∀ (s : State) (off : BitVec 8) (size i : Nat) (v : Word) (b : Byte) (ts : List Turn),
    ((size ≠ 4 ∨ off.toNat % 4 ≠ 0) →
      (HostDue s (.regRead off size) ts → step s = .refused .registerAccessShape) ∧
      (HostDue s (.regWrite off size v) ts → step s = .refused .registerAccessShape)) ∧
    (s.memSize ≤ i →
      (HostDue s (.memRead i) ts → step s = .refused .windowBeyondMem) ∧
      (HostDue s (.memWrite i b) ts → step s = .refused .windowBeyondMem))

/-- When the platform asserts the reset input, the input is asserted and nothing else changes; while it is asserted
the block takes no step and ignores host accesses; when it is released every register holds its reset value and the
engine is idle (70_reset_and_hazards.md R137; 10_state.md R40). That the registers keep their values until the
release, and that a release with no assertion before it changes nothing, are the model's choices (log 11). -/
def Obligations.HardwareReset : Prop :=
  ∀ (s : State) (ts : List Turn),
    (s.turns = .assertReset :: ts → step s = .next { s with turns := ts, resetInput := true }) ∧
    (s.resetInput = false → s.turns = .releaseReset :: ts → step s = .next { s with turns := ts }) ∧
    (s.resetInput = true →
      (s.turns = [] → step s = .next s) ∧
      (∀ a, s.turns = .engine :: ts ∨ s.turns = .host a :: ts → step s = .next { s with turns := ts }) ∧
      (s.turns = .releaseReset :: ts → ∃ t, step s = .next t ∧ t.turns = ts ∧ t.resetInput = false ∧
        (∀ r, t.freg r = ZERO) ∧ (∀ r, t.sreg r = 0#32) ∧ t.cpc = 0#32 ∧ t.ie = false ∧ t.busy = false ∧
        t.done = false ∧ t.err = false ∧ t.errCause = .none ∧ t.errPc = 0#32 ∧ t.irq = false ∧
        t.memSize = s.memSize))
end

