-- ==== Sys2Proof/Laws/Bytes.lean ====
section
/-! SUPPORT. Big-endian byte strings: `be` and `beBytes` undo each other. -/

namespace Sys2Proof.Machine

theorem be_foldl (bs : List Byte) : ∀ acc : Nat,
    bs.foldl (fun acc b => acc * 256 + b.toNat) acc = acc * 256 ^ bs.length + be bs := by
  induction bs with
  | nil => intro acc; simp [be]
  | cons b bs ih =>
    intro acc
    simp only [be, List.foldl_cons, List.length_cons]
    rw [ih, ih (0 * 256 + b.toNat)]
    ring

@[simp] theorem be_nil : be [] = 0 := rfl

/-- The first byte is the most significant one (20_memory.md R48). -/
theorem be_cons (b : Byte) (bs : List Byte) : be (b :: bs) = b.toNat * 256 ^ bs.length + be bs := by
  simp only [be, List.foldl_cons]
  rw [be_foldl]
  simp [be]

theorem be_lt (bs : List Byte) : be bs < 256 ^ bs.length := by
  induction bs with
  | nil => simp
  | cons b bs ih =>
    rw [be_cons, List.length_cons, Nat.pow_succ]
    have := b.isLt
    nlinarith [Nat.pow_pos (n := bs.length) (show 0 < 256 by norm_num)]

@[simp] theorem beBytes_length (n v : Nat) : (beBytes n v).length = n := by
  induction n with
  | zero => rfl
  | succ n ih => simp [beBytes, ih]

/-- `be(be_n(v)) = v` for v < 256^n (00_scope.md R10). -/
theorem be_beBytes (n v : Nat) : be (beBytes n v) = v % 256 ^ n := by
  induction n with
  | zero => simp [beBytes, Nat.mod_one]
  | succ n ih =>
    have h := Nat.mod_mul (a := 256 ^ n) (b := 256) (x := v)
    rw [beBytes, be_cons, ih, beBytes_length, BitVec.toNat_ofNat, Nat.pow_succ 256 n, h, Nat.add_comm]
    simp only [Nat.reducePow, Nat.mul_comm]

/-- A byte string is determined by its length and its value. -/
theorem be_inj {bs cs : List Byte} (hl : bs.length = cs.length) (h : be bs = be cs) : bs = cs := by
  induction bs generalizing cs with
  | nil => exact (List.length_eq_zero_iff.mp hl.symm).symm
  | cons b bs ih =>
    cases cs with
    | nil => simp at hl
    | cons c cs =>
      simp only [List.length_cons, Nat.add_right_cancel_iff] at hl
      rw [be_cons, be_cons, hl] at h
      have h1 := be_lt bs
      have h2 := be_lt cs
      rw [hl] at h1
      have hb : b.toNat = c.toNat := by
        have e1 : (b.toNat * 256 ^ cs.length + be bs) / 256 ^ cs.length = b.toNat := by
          rw [Nat.mul_comm, Nat.mul_add_div (by positivity), Nat.div_eq_of_lt h1, Nat.add_zero]
        have e2 : (c.toNat * 256 ^ cs.length + be cs) / 256 ^ cs.length = c.toNat := by
          rw [Nat.mul_comm, Nat.mul_add_div (by positivity), Nat.div_eq_of_lt h2, Nat.add_zero]
        rw [← e1, ← e2, h]
      rw [hb] at h
      rw [ih hl (by omega), BitVec.eq_of_toNat_eq hb]

/-- `be_n(be(bs)) = bs` for a string of n bytes. -/
theorem beBytes_be (bs : List Byte) : beBytes bs.length (be bs) = bs := by
  refine be_inj (by simp) ?_
  rw [be_beBytes, Nat.mod_eq_of_lt (be_lt bs)]

@[simp] theorem encF_length (e : Elem) : (encF e).length = 16 := beBytes_length 16 _

@[simp] theorem encM_length (m : Mat) : (encM m).length = 64 := by simp [encM]

end Sys2Proof.Machine
end

