-- ==== Sys2Proof/Laws/Encoding.lean ====
section
/-! SUPPORT. The fields of a word, a word from its fields, and what accepting a row says. -/

namespace Sys2Proof

theorem toNat_append_eq {n m : Nat} (x : BitVec n) (y : BitVec m) :
    (x ++ y).toNat = x.toNat * 2 ^ m + y.toNat := by
  rw [BitVec.toNat_append, Nat.shiftLeft_eq, Nat.mul_comm, ← Nat.two_pow_add_eq_or_of_lt y.isLt]

theorem packR_toNat (op : BitVec 8) (r1 r2 r3 r4 : Reg) (low : BitVec 8) :
    (packR op r1 r2 r3 r4 low).toNat = op.toNat * 2 ^ 24 + r1.toNat * 2 ^ 20 + r2.toNat * 2 ^ 16 +
      r3.toNat * 2 ^ 12 + r4.toNat * 2 ^ 8 + low.toNat := by
  show BitVec.toNat (w := 8 + 4 + 4 + 4 + 4 + 8) (op ++ r1 ++ r2 ++ r3 ++ r4 ++ low) = _
  simp only [toNat_append_eq]
  omega

theorem packI_toNat (op : BitVec 8) (r1 r2 : Reg) (imm : Imm) :
    (packI op r1 r2 imm).toNat = op.toNat * 2 ^ 24 + r1.toNat * 2 ^ 20 + r2.toNat * 2 ^ 16 + imm.toNat := by
  show BitVec.toNat (w := 8 + 4 + 4 + 16) (op ++ r1 ++ r2 ++ imm) = _
  simp only [toNat_append_eq]
  omega

theorem toNat_field (w : Word) (k n : Nat) : (w.extractLsb' k n).toNat = w.toNat / 2 ^ k % 2 ^ n := by
  simp [BitVec.extractLsb'_toNat, Nat.shiftRight_eq_div_pow]

/-! ### Fields of a word of registers (30_encoding.md R64) -/

section
variable (op : BitVec 8) (r1 r2 r3 r4 : Reg) (low : BitVec 8)

@[simp] theorem fieldOp_packR : fieldOp (packR op r1 r2 r3 r4 low) = op := by
  apply BitVec.eq_of_toNat_eq
  have := op.isLt; have := r1.isLt; have := r2.isLt; have := r3.isLt; have := r4.isLt; have := low.isLt
  simp only [fieldOp, toNat_field, packR_toNat]
  omega

@[simp] theorem fieldR1_packR : fieldR1 (packR op r1 r2 r3 r4 low) = r1 := by
  apply BitVec.eq_of_toNat_eq
  have := op.isLt; have := r1.isLt; have := r2.isLt; have := r3.isLt; have := r4.isLt; have := low.isLt
  simp only [fieldR1, toNat_field, packR_toNat]
  omega

@[simp] theorem fieldR2_packR : fieldR2 (packR op r1 r2 r3 r4 low) = r2 := by
  apply BitVec.eq_of_toNat_eq
  have := op.isLt; have := r1.isLt; have := r2.isLt; have := r3.isLt; have := r4.isLt; have := low.isLt
  simp only [fieldR2, toNat_field, packR_toNat]
  omega

@[simp] theorem fieldR3_packR : fieldR3 (packR op r1 r2 r3 r4 low) = r3 := by
  apply BitVec.eq_of_toNat_eq
  have := op.isLt; have := r1.isLt; have := r2.isLt; have := r3.isLt; have := r4.isLt; have := low.isLt
  simp only [fieldR3, toNat_field, packR_toNat]
  omega

@[simp] theorem fieldR4_packR : fieldR4 (packR op r1 r2 r3 r4 low) = r4 := by
  apply BitVec.eq_of_toNat_eq
  have := op.isLt; have := r1.isLt; have := r2.isLt; have := r3.isLt; have := r4.isLt; have := low.isLt
  simp only [fieldR4, toNat_field, packR_toNat]
  omega

@[simp] theorem fieldB_packR : fieldB (packR op r1 r2 r3 r4 low) = low.getLsbD 0 := by
  have h := packR_toNat op r1 r2 r3 r4 low
  simp only [fieldB, BitVec.getLsbD, h, Nat.testBit_zero]
  congr 1
  simp only [eq_iff_iff]
  omega

end

/-! ### Fields of a word with an immediate -/

section
variable (op : BitVec 8) (r1 r2 : Reg) (imm : Imm)

@[simp] theorem fieldOp_packI : fieldOp (packI op r1 r2 imm) = op := by
  apply BitVec.eq_of_toNat_eq
  have := op.isLt; have := r1.isLt; have := r2.isLt; have := imm.isLt
  simp only [fieldOp, toNat_field, packI_toNat]
  omega

@[simp] theorem fieldR1_packI : fieldR1 (packI op r1 r2 imm) = r1 := by
  apply BitVec.eq_of_toNat_eq
  have := op.isLt; have := r1.isLt; have := r2.isLt; have := imm.isLt
  simp only [fieldR1, toNat_field, packI_toNat]
  omega

@[simp] theorem fieldR2_packI : fieldR2 (packI op r1 r2 imm) = r2 := by
  apply BitVec.eq_of_toNat_eq
  have := op.isLt; have := r1.isLt; have := r2.isLt; have := imm.isLt
  simp only [fieldR2, toNat_field, packI_toNat]
  omega

@[simp] theorem fieldImm_packI : fieldImm (packI op r1 r2 imm) = imm := by
  apply BitVec.eq_of_toNat_eq
  have := op.isLt; have := r1.isLt; have := r2.isLt; have := imm.isLt
  simp only [fieldImm, toNat_field, packI_toNat]
  omega

end

/-! ### A word from its fields -/

/-- A word is its opcode, two register fields and immediate field. -/
theorem packI_fields (w : Word) : packI (fieldOp w) (fieldR1 w) (fieldR2 w) (fieldImm w) = w := by
  apply BitVec.eq_of_toNat_eq
  have := w.isLt
  simp only [packI_toNat, fieldOp, fieldR1, fieldR2, fieldImm, toNat_field]
  omega

/-- A word is its opcode, four register fields and low byte. -/
theorem packR_fields (w : Word) :
    packR (fieldOp w) (fieldR1 w) (fieldR2 w) (fieldR3 w) (fieldR4 w) (w.extractLsb' 0 8) = w := by
  apply BitVec.eq_of_toNat_eq
  have := w.isLt
  simp only [packR_toNat, fieldOp, fieldR1, fieldR2, fieldR3, fieldR4, toNat_field]
  omega

/-- Masking a word masks its fields. -/
theorem packR_and (op op' : BitVec 8) (r1 r1' r2 r2' r3 r3' r4 r4' : Reg) (low low' : BitVec 8) :
    packR op r1 r2 r3 r4 low &&& packR op' r1' r2' r3' r4' low' =
      packR (op &&& op') (r1 &&& r1') (r2 &&& r2') (r3 &&& r3') (r4 &&& r4') (low &&& low') := by
  show BitVec.and (n := 8 + 4 + 4 + 4 + 4 + 8) (op ++ r1 ++ r2 ++ r3 ++ r4 ++ low)
    (op' ++ r1' ++ r2' ++ r3' ++ r4' ++ low') =
    (op &&& op') ++ (r1 &&& r1') ++ (r2 &&& r2') ++ (r3 &&& r3') ++ (r4 &&& r4') ++ (low &&& low')
  simp only [← BitVec.and_append]
  rfl

theorem packI_and (op op' : BitVec 8) (r1 r1' r2 r2' : Reg) (imm imm' : Imm) :
    packI op r1 r2 imm &&& packI op' r1' r2' imm' =
      packI (op &&& op') (r1 &&& r1') (r2 &&& r2') (imm &&& imm') := by
  show BitVec.and (n := 8 + 4 + 4 + 16) (op ++ r1 ++ r2 ++ imm) (op' ++ r1' ++ r2' ++ imm') =
    (op &&& op') ++ (r1 &&& r1') ++ (r2 &&& r2') ++ (imm &&& imm')
  simp only [← BitVec.and_append]
  rfl

theorem packR_inj {op op' : BitVec 8} {r1 r1' r2 r2' r3 r3' r4 r4' : Reg} {low low' : BitVec 8} :
    packR op r1 r2 r3 r4 low = packR op' r1' r2' r3' r4' low' ↔
      op = op' ∧ r1 = r1' ∧ r2 = r2' ∧ r3 = r3' ∧ r4 = r4' ∧ low = low' := by
  refine ⟨fun h => ?_, fun ⟨h1, h2, h3, h4, h5, h6⟩ => by rw [h1, h2, h3, h4, h5, h6]⟩
  have h' := congrArg BitVec.toNat h
  simp only [packR_toNat] at h'
  simp only [← BitVec.toNat_inj]
  have := low.isLt; have := low'.isLt
  have := r1.isLt; have := r2.isLt; have := r3.isLt; have := r4.isLt
  have := r1'.isLt; have := r2'.isLt; have := r3'.isLt; have := r4'.isLt
  omega

theorem packI_inj {op op' : BitVec 8} {r1 r1' r2 r2' : Reg} {imm imm' : Imm} :
    packI op r1 r2 imm = packI op' r1' r2' imm' ↔ op = op' ∧ r1 = r1' ∧ r2 = r2' ∧ imm = imm' := by
  refine ⟨fun h => ?_, fun ⟨h1, h2, h3, h4⟩ => by rw [h1, h2, h3, h4]⟩
  have h' := congrArg BitVec.toNat h
  simp only [packI_toNat] at h'
  simp only [← BitVec.toNat_inj]
  have := imm.isLt; have := imm'.isLt
  have := r1.isLt; have := r2.isLt; have := r1'.isLt; have := r2'.isLt
  omega

/-- A row accepts a word exactly when the word's masked bits are the row's pattern (30_encoding.md R69). -/
theorem acceptRow_ok {w pattern format mask : Word} {i j : Instr} :
    acceptRow w pattern format mask i = .ok j ↔
      w &&& format = pattern ∧ w &&& mask = pattern ∧ i = j := by
  unfold acceptRow
  split_ifs <;> simp_all

end Sys2Proof
end

