-- ==== Sys2Proof/Laws/State.lean ====
section
/-! SUPPORT. One lemma per field per update of State, so that no proof unfolds a record update, and the
register views under every update. -/

namespace Sys2Proof.Machine

/-! ### setF -/

@[simp] theorem State.setF_sregs (s : State) (r : Reg) (v : Elem) : (s.setF r v).sregs = s.sregs := rfl
@[simp] theorem State.setF_cpc (s : State) (r : Reg) (v : Elem) : (s.setF r v).cpc = s.cpc := rfl
@[simp] theorem State.setF_ie (s : State) (r : Reg) (v : Elem) : (s.setF r v).ie = s.ie := rfl
@[simp] theorem State.setF_busy (s : State) (r : Reg) (v : Elem) : (s.setF r v).busy = s.busy := rfl
@[simp] theorem State.setF_done (s : State) (r : Reg) (v : Elem) : (s.setF r v).done = s.done := rfl
@[simp] theorem State.setF_err (s : State) (r : Reg) (v : Elem) : (s.setF r v).err = s.err := rfl
@[simp] theorem State.setF_errCause (s : State) (r : Reg) (v : Elem) : (s.setF r v).errCause = s.errCause := rfl
@[simp] theorem State.setF_errPc (s : State) (r : Reg) (v : Elem) : (s.setF r v).errPc = s.errPc := rfl
@[simp] theorem State.setF_memSize (s : State) (r : Reg) (v : Elem) : (s.setF r v).memSize = s.memSize := rfl
@[simp] theorem State.setF_mem (s : State) (r : Reg) (v : Elem) : (s.setF r v).mem = s.mem := rfl
@[simp] theorem State.setF_unstable (s : State) (r : Reg) (v : Elem) : (s.setF r v).unstable = s.unstable := rfl
@[simp] theorem State.setF_resetInput (s : State) (r : Reg) (v : Elem) : (s.setF r v).resetInput = s.resetInput := rfl
@[simp] theorem State.setF_hostReply (s : State) (r : Reg) (v : Elem) : (s.setF r v).hostReply = s.hostReply := rfl
@[simp] theorem State.setF_draws (s : State) (r : Reg) (v : Elem) : (s.setF r v).draws = s.draws := rfl
@[simp] theorem State.setF_memEpoch (s : State) (r : Reg) (v : Elem) : (s.setF r v).memEpoch = s.memEpoch := rfl
@[simp] theorem State.setF_turns (s : State) (r : Reg) (v : Elem) : (s.setF r v).turns = s.turns := rfl

/-! ### setS -/

@[simp] theorem State.setS_fregs (s : State) (r : Reg) (v : Word) : (s.setS r v).fregs = s.fregs := by unfold State.setS; split <;> rfl
@[simp] theorem State.setS_cpc (s : State) (r : Reg) (v : Word) : (s.setS r v).cpc = s.cpc := by unfold State.setS; split <;> rfl
@[simp] theorem State.setS_ie (s : State) (r : Reg) (v : Word) : (s.setS r v).ie = s.ie := by unfold State.setS; split <;> rfl
@[simp] theorem State.setS_busy (s : State) (r : Reg) (v : Word) : (s.setS r v).busy = s.busy := by unfold State.setS; split <;> rfl
@[simp] theorem State.setS_done (s : State) (r : Reg) (v : Word) : (s.setS r v).done = s.done := by unfold State.setS; split <;> rfl
@[simp] theorem State.setS_err (s : State) (r : Reg) (v : Word) : (s.setS r v).err = s.err := by unfold State.setS; split <;> rfl
@[simp] theorem State.setS_errCause (s : State) (r : Reg) (v : Word) : (s.setS r v).errCause = s.errCause := by unfold State.setS; split <;> rfl
@[simp] theorem State.setS_errPc (s : State) (r : Reg) (v : Word) : (s.setS r v).errPc = s.errPc := by unfold State.setS; split <;> rfl
@[simp] theorem State.setS_memSize (s : State) (r : Reg) (v : Word) : (s.setS r v).memSize = s.memSize := by unfold State.setS; split <;> rfl
@[simp] theorem State.setS_mem (s : State) (r : Reg) (v : Word) : (s.setS r v).mem = s.mem := by unfold State.setS; split <;> rfl
@[simp] theorem State.setS_unstable (s : State) (r : Reg) (v : Word) : (s.setS r v).unstable = s.unstable := by unfold State.setS; split <;> rfl
@[simp] theorem State.setS_resetInput (s : State) (r : Reg) (v : Word) : (s.setS r v).resetInput = s.resetInput := by unfold State.setS; split <;> rfl
@[simp] theorem State.setS_hostReply (s : State) (r : Reg) (v : Word) : (s.setS r v).hostReply = s.hostReply := by unfold State.setS; split <;> rfl
@[simp] theorem State.setS_draws (s : State) (r : Reg) (v : Word) : (s.setS r v).draws = s.draws := by unfold State.setS; split <;> rfl
@[simp] theorem State.setS_memEpoch (s : State) (r : Reg) (v : Word) : (s.setS r v).memEpoch = s.memEpoch := by unfold State.setS; split <;> rfl
@[simp] theorem State.setS_turns (s : State) (r : Reg) (v : Word) : (s.setS r v).turns = s.turns := by unfold State.setS; split <;> rfl

/-! ### setM -/

@[simp] theorem State.setM_sregs (s : State) (k : Reg) (m : Mat) : (s.setM k m).sregs = s.sregs := rfl
@[simp] theorem State.setM_cpc (s : State) (k : Reg) (m : Mat) : (s.setM k m).cpc = s.cpc := rfl
@[simp] theorem State.setM_ie (s : State) (k : Reg) (m : Mat) : (s.setM k m).ie = s.ie := rfl
@[simp] theorem State.setM_busy (s : State) (k : Reg) (m : Mat) : (s.setM k m).busy = s.busy := rfl
@[simp] theorem State.setM_done (s : State) (k : Reg) (m : Mat) : (s.setM k m).done = s.done := rfl
@[simp] theorem State.setM_err (s : State) (k : Reg) (m : Mat) : (s.setM k m).err = s.err := rfl
@[simp] theorem State.setM_errCause (s : State) (k : Reg) (m : Mat) : (s.setM k m).errCause = s.errCause := rfl
@[simp] theorem State.setM_errPc (s : State) (k : Reg) (m : Mat) : (s.setM k m).errPc = s.errPc := rfl
@[simp] theorem State.setM_memSize (s : State) (k : Reg) (m : Mat) : (s.setM k m).memSize = s.memSize := rfl
@[simp] theorem State.setM_mem (s : State) (k : Reg) (m : Mat) : (s.setM k m).mem = s.mem := rfl
@[simp] theorem State.setM_unstable (s : State) (k : Reg) (m : Mat) : (s.setM k m).unstable = s.unstable := rfl
@[simp] theorem State.setM_resetInput (s : State) (k : Reg) (m : Mat) : (s.setM k m).resetInput = s.resetInput := rfl
@[simp] theorem State.setM_hostReply (s : State) (k : Reg) (m : Mat) : (s.setM k m).hostReply = s.hostReply := rfl
@[simp] theorem State.setM_draws (s : State) (k : Reg) (m : Mat) : (s.setM k m).draws = s.draws := rfl
@[simp] theorem State.setM_memEpoch (s : State) (k : Reg) (m : Mat) : (s.setM k m).memEpoch = s.memEpoch := rfl
@[simp] theorem State.setM_turns (s : State) (k : Reg) (m : Mat) : (s.setM k m).turns = s.turns := rfl

/-! ### storeBytes -/

@[simp] theorem State.storeBytes_fregs (s : State) (a : Nat) (bs : List Byte) : (s.storeBytes a bs).fregs = s.fregs := rfl
@[simp] theorem State.storeBytes_sregs (s : State) (a : Nat) (bs : List Byte) : (s.storeBytes a bs).sregs = s.sregs := rfl
@[simp] theorem State.storeBytes_cpc (s : State) (a : Nat) (bs : List Byte) : (s.storeBytes a bs).cpc = s.cpc := rfl
@[simp] theorem State.storeBytes_ie (s : State) (a : Nat) (bs : List Byte) : (s.storeBytes a bs).ie = s.ie := rfl
@[simp] theorem State.storeBytes_busy (s : State) (a : Nat) (bs : List Byte) : (s.storeBytes a bs).busy = s.busy := rfl
@[simp] theorem State.storeBytes_done (s : State) (a : Nat) (bs : List Byte) : (s.storeBytes a bs).done = s.done := rfl
@[simp] theorem State.storeBytes_err (s : State) (a : Nat) (bs : List Byte) : (s.storeBytes a bs).err = s.err := rfl
@[simp] theorem State.storeBytes_errCause (s : State) (a : Nat) (bs : List Byte) : (s.storeBytes a bs).errCause = s.errCause := rfl
@[simp] theorem State.storeBytes_errPc (s : State) (a : Nat) (bs : List Byte) : (s.storeBytes a bs).errPc = s.errPc := rfl
@[simp] theorem State.storeBytes_memSize (s : State) (a : Nat) (bs : List Byte) : (s.storeBytes a bs).memSize = s.memSize := rfl
@[simp] theorem State.storeBytes_mem (s : State) (a : Nat) (bs : List Byte) : (s.storeBytes a bs).mem = Memory.writeBytes s.mem a bs := rfl
@[simp] theorem State.storeBytes_unstable (s : State) (a : Nat) (bs : List Byte) : (s.storeBytes a bs).unstable = s.unstable := rfl
@[simp] theorem State.storeBytes_resetInput (s : State) (a : Nat) (bs : List Byte) : (s.storeBytes a bs).resetInput = s.resetInput := rfl
@[simp] theorem State.storeBytes_hostReply (s : State) (a : Nat) (bs : List Byte) : (s.storeBytes a bs).hostReply = s.hostReply := rfl
@[simp] theorem State.storeBytes_draws (s : State) (a : Nat) (bs : List Byte) : (s.storeBytes a bs).draws = s.draws := rfl
@[simp] theorem State.storeBytes_memEpoch (s : State) (a : Nat) (bs : List Byte) : (s.storeBytes a bs).memEpoch = s.memEpoch := rfl
@[simp] theorem State.storeBytes_turns (s : State) (a : Nat) (bs : List Byte) : (s.storeBytes a bs).turns = s.turns := rfl

/-! ### tear -/

@[simp] theorem State.tear_fregs (s : State) (a n : Nat) : (s.tear a n).fregs = s.fregs := rfl
@[simp] theorem State.tear_sregs (s : State) (a n : Nat) : (s.tear a n).sregs = s.sregs := rfl
@[simp] theorem State.tear_cpc (s : State) (a n : Nat) : (s.tear a n).cpc = s.cpc := rfl
@[simp] theorem State.tear_ie (s : State) (a n : Nat) : (s.tear a n).ie = s.ie := rfl
@[simp] theorem State.tear_busy (s : State) (a n : Nat) : (s.tear a n).busy = s.busy := rfl
@[simp] theorem State.tear_done (s : State) (a n : Nat) : (s.tear a n).done = s.done := rfl
@[simp] theorem State.tear_err (s : State) (a n : Nat) : (s.tear a n).err = s.err := rfl
@[simp] theorem State.tear_errCause (s : State) (a n : Nat) : (s.tear a n).errCause = s.errCause := rfl
@[simp] theorem State.tear_errPc (s : State) (a n : Nat) : (s.tear a n).errPc = s.errPc := rfl
@[simp] theorem State.tear_memSize (s : State) (a n : Nat) : (s.tear a n).memSize = s.memSize := rfl
@[simp] theorem State.tear_unstable (s : State) (a n : Nat) : (s.tear a n).unstable = s.unstable := rfl
@[simp] theorem State.tear_resetInput (s : State) (a n : Nat) : (s.tear a n).resetInput = s.resetInput := rfl
@[simp] theorem State.tear_hostReply (s : State) (a n : Nat) : (s.tear a n).hostReply = s.hostReply := rfl
@[simp] theorem State.tear_draws (s : State) (a n : Nat) : (s.tear a n).draws = s.draws := rfl
@[simp] theorem State.tear_memEpoch (s : State) (a n : Nat) : (s.tear a n).memEpoch = s.memEpoch := rfl
@[simp] theorem State.tear_turns (s : State) (a n : Nat) : (s.tear a n).turns = s.turns := rfl

/-! ### tick -/

@[simp] theorem State.tick_fregs (s : State) : (s.tick).fregs = s.fregs := rfl
@[simp] theorem State.tick_sregs (s : State) : (s.tick).sregs = s.sregs := rfl
@[simp] theorem State.tick_cpc (s : State) : (s.tick).cpc = s.cpc := rfl
@[simp] theorem State.tick_ie (s : State) : (s.tick).ie = s.ie := rfl
@[simp] theorem State.tick_busy (s : State) : (s.tick).busy = s.busy := rfl
@[simp] theorem State.tick_done (s : State) : (s.tick).done = s.done := rfl
@[simp] theorem State.tick_err (s : State) : (s.tick).err = s.err := rfl
@[simp] theorem State.tick_errCause (s : State) : (s.tick).errCause = s.errCause := rfl
@[simp] theorem State.tick_errPc (s : State) : (s.tick).errPc = s.errPc := rfl
@[simp] theorem State.tick_memSize (s : State) : (s.tick).memSize = s.memSize := rfl
@[simp] theorem State.tick_mem (s : State) : (s.tick).mem = s.mem := rfl
@[simp] theorem State.tick_unstable (s : State) : (s.tick).unstable = s.unstable := rfl
@[simp] theorem State.tick_resetInput (s : State) : (s.tick).resetInput = s.resetInput := rfl
@[simp] theorem State.tick_hostReply (s : State) : (s.tick).hostReply = s.hostReply := rfl
@[simp] theorem State.tick_draws (s : State) : (s.tick).draws = s.draws + 1 := rfl
@[simp] theorem State.tick_memEpoch (s : State) : (s.tick).memEpoch = s.memEpoch := rfl
@[simp] theorem State.tick_turns (s : State) : (s.tick).turns = s.turns := rfl

/-! ### advance -/

@[simp] theorem State.advance_fregs (s : State) : (s.advance).fregs = s.fregs := rfl
@[simp] theorem State.advance_sregs (s : State) : (s.advance).sregs = s.sregs := rfl
@[simp] theorem State.advance_cpc (s : State) : (s.advance).cpc = s.cpc + 4#32 := rfl
@[simp] theorem State.advance_ie (s : State) : (s.advance).ie = s.ie := rfl
@[simp] theorem State.advance_busy (s : State) : (s.advance).busy = s.busy := rfl
@[simp] theorem State.advance_done (s : State) : (s.advance).done = s.done := rfl
@[simp] theorem State.advance_err (s : State) : (s.advance).err = s.err := rfl
@[simp] theorem State.advance_errCause (s : State) : (s.advance).errCause = s.errCause := rfl
@[simp] theorem State.advance_errPc (s : State) : (s.advance).errPc = s.errPc := rfl
@[simp] theorem State.advance_memSize (s : State) : (s.advance).memSize = s.memSize := rfl
@[simp] theorem State.advance_mem (s : State) : (s.advance).mem = s.mem := rfl
@[simp] theorem State.advance_unstable (s : State) : (s.advance).unstable = s.unstable := rfl
@[simp] theorem State.advance_resetInput (s : State) : (s.advance).resetInput = s.resetInput := rfl
@[simp] theorem State.advance_hostReply (s : State) : (s.advance).hostReply = s.hostReply := rfl
@[simp] theorem State.advance_draws (s : State) : (s.advance).draws = s.draws := rfl
@[simp] theorem State.advance_memEpoch (s : State) : (s.advance).memEpoch = s.memEpoch := rfl
@[simp] theorem State.advance_turns (s : State) : (s.advance).turns = s.turns := rfl

/-! ### takeFault -/

@[simp] theorem State.takeFault_fregs (s : State) (c : Cause) : (s.takeFault c).fregs = s.fregs := rfl
@[simp] theorem State.takeFault_sregs (s : State) (c : Cause) : (s.takeFault c).sregs = s.sregs := rfl
@[simp] theorem State.takeFault_cpc (s : State) (c : Cause) : (s.takeFault c).cpc = s.cpc := rfl
@[simp] theorem State.takeFault_ie (s : State) (c : Cause) : (s.takeFault c).ie = s.ie := rfl
@[simp] theorem State.takeFault_busy (s : State) (c : Cause) : (s.takeFault c).busy = false := rfl
@[simp] theorem State.takeFault_done (s : State) (c : Cause) : (s.takeFault c).done = s.done := rfl
@[simp] theorem State.takeFault_err (s : State) (c : Cause) : (s.takeFault c).err = true := rfl
@[simp] theorem State.takeFault_errCause (s : State) (c : Cause) : (s.takeFault c).errCause = c := rfl
@[simp] theorem State.takeFault_errPc (s : State) (c : Cause) : (s.takeFault c).errPc = s.cpc := rfl
@[simp] theorem State.takeFault_memSize (s : State) (c : Cause) : (s.takeFault c).memSize = s.memSize := rfl
@[simp] theorem State.takeFault_mem (s : State) (c : Cause) : (s.takeFault c).mem = s.mem := rfl
@[simp] theorem State.takeFault_unstable (s : State) (c : Cause) : (s.takeFault c).unstable = s.unstable := rfl
@[simp] theorem State.takeFault_resetInput (s : State) (c : Cause) : (s.takeFault c).resetInput = s.resetInput := rfl
@[simp] theorem State.takeFault_hostReply (s : State) (c : Cause) : (s.takeFault c).hostReply = s.hostReply := rfl
@[simp] theorem State.takeFault_draws (s : State) (c : Cause) : (s.takeFault c).draws = s.draws := rfl
@[simp] theorem State.takeFault_memEpoch (s : State) (c : Cause) : (s.takeFault c).memEpoch = s.memEpoch := rfl
@[simp] theorem State.takeFault_turns (s : State) (c : Cause) : (s.takeFault c).turns = s.turns := rfl

/-! ### halted -/

@[simp] theorem State.halted_fregs (s : State) : (s.halted).fregs = s.fregs := rfl
@[simp] theorem State.halted_sregs (s : State) : (s.halted).sregs = s.sregs := rfl
@[simp] theorem State.halted_cpc (s : State) : (s.halted).cpc = s.cpc := rfl
@[simp] theorem State.halted_ie (s : State) : (s.halted).ie = s.ie := rfl
@[simp] theorem State.halted_busy (s : State) : (s.halted).busy = false := rfl
@[simp] theorem State.halted_done (s : State) : (s.halted).done = true := rfl
@[simp] theorem State.halted_err (s : State) : (s.halted).err = s.err := rfl
@[simp] theorem State.halted_errCause (s : State) : (s.halted).errCause = s.errCause := rfl
@[simp] theorem State.halted_errPc (s : State) : (s.halted).errPc = s.errPc := rfl
@[simp] theorem State.halted_memSize (s : State) : (s.halted).memSize = s.memSize := rfl
@[simp] theorem State.halted_mem (s : State) : (s.halted).mem = s.mem := rfl
@[simp] theorem State.halted_unstable (s : State) : (s.halted).unstable = s.unstable := rfl
@[simp] theorem State.halted_resetInput (s : State) : (s.halted).resetInput = s.resetInput := rfl
@[simp] theorem State.halted_hostReply (s : State) : (s.halted).hostReply = s.hostReply := rfl
@[simp] theorem State.halted_draws (s : State) : (s.halted).draws = s.draws := rfl
@[simp] theorem State.halted_memEpoch (s : State) : (s.halted).memEpoch = s.memEpoch := rfl
@[simp] theorem State.halted_turns (s : State) : (s.halted).turns = s.turns := rfl

/-! ### started -/

@[simp] theorem State.started_fregs (s : State) : (s.started).fregs = s.fregs := rfl
@[simp] theorem State.started_sregs (s : State) : (s.started).sregs = s.sregs := rfl
@[simp] theorem State.started_cpc (s : State) : (s.started).cpc = s.cpc := rfl
@[simp] theorem State.started_ie (s : State) : (s.started).ie = s.ie := rfl
@[simp] theorem State.started_busy (s : State) : (s.started).busy = true := rfl
@[simp] theorem State.started_done (s : State) : (s.started).done = false := rfl
@[simp] theorem State.started_err (s : State) : (s.started).err = false := rfl
@[simp] theorem State.started_errCause (s : State) : (s.started).errCause = .none := rfl
@[simp] theorem State.started_errPc (s : State) : (s.started).errPc = 0#32 := rfl
@[simp] theorem State.started_memSize (s : State) : (s.started).memSize = s.memSize := rfl
@[simp] theorem State.started_mem (s : State) : (s.started).mem = s.mem := rfl
@[simp] theorem State.started_unstable (s : State) : (s.started).unstable = s.unstable := rfl
@[simp] theorem State.started_resetInput (s : State) : (s.started).resetInput = s.resetInput := rfl
@[simp] theorem State.started_hostReply (s : State) : (s.started).hostReply = s.hostReply := rfl
@[simp] theorem State.started_draws (s : State) : (s.started).draws = s.draws := rfl
@[simp] theorem State.started_memEpoch (s : State) : (s.started).memEpoch = s.memEpoch := rfl
@[simp] theorem State.started_turns (s : State) : (s.started).turns = s.turns := rfl

/-! ### writeStatus -/

@[simp] theorem State.writeStatus_fregs (s : State) (v : Word) : (s.writeStatus v).fregs = s.fregs := rfl
@[simp] theorem State.writeStatus_sregs (s : State) (v : Word) : (s.writeStatus v).sregs = s.sregs := rfl
@[simp] theorem State.writeStatus_cpc (s : State) (v : Word) : (s.writeStatus v).cpc = s.cpc := rfl
@[simp] theorem State.writeStatus_ie (s : State) (v : Word) : (s.writeStatus v).ie = s.ie := rfl
@[simp] theorem State.writeStatus_busy (s : State) (v : Word) : (s.writeStatus v).busy = s.busy := rfl
@[simp] theorem State.writeStatus_done (s : State) (v : Word) : (s.writeStatus v).done = (s.done && !v.getLsbD 1) := rfl
@[simp] theorem State.writeStatus_err (s : State) (v : Word) : (s.writeStatus v).err = (s.err && !v.getLsbD 2) := rfl
@[simp] theorem State.writeStatus_errCause (s : State) (v : Word) : (s.writeStatus v).errCause = s.errCause := rfl
@[simp] theorem State.writeStatus_errPc (s : State) (v : Word) : (s.writeStatus v).errPc = s.errPc := rfl
@[simp] theorem State.writeStatus_memSize (s : State) (v : Word) : (s.writeStatus v).memSize = s.memSize := rfl
@[simp] theorem State.writeStatus_mem (s : State) (v : Word) : (s.writeStatus v).mem = s.mem := rfl
@[simp] theorem State.writeStatus_unstable (s : State) (v : Word) : (s.writeStatus v).unstable = s.unstable := rfl
@[simp] theorem State.writeStatus_resetInput (s : State) (v : Word) : (s.writeStatus v).resetInput = s.resetInput := rfl
@[simp] theorem State.writeStatus_hostReply (s : State) (v : Word) : (s.writeStatus v).hostReply = s.hostReply := rfl
@[simp] theorem State.writeStatus_draws (s : State) (v : Word) : (s.writeStatus v).draws = s.draws := rfl
@[simp] theorem State.writeStatus_memEpoch (s : State) (v : Word) : (s.writeStatus v).memEpoch = s.memEpoch := rfl
@[simp] theorem State.writeStatus_turns (s : State) (v : Word) : (s.writeStatus v).turns = s.turns := rfl

/-! ### clearRegisters -/

@[simp] theorem State.clearRegisters_fregs (s : State) : (s.clearRegisters).fregs = Vector.replicate 16 0#127 := rfl
@[simp] theorem State.clearRegisters_sregs (s : State) : (s.clearRegisters).sregs = Vector.replicate 16 0#32 := rfl
@[simp] theorem State.clearRegisters_cpc (s : State) : (s.clearRegisters).cpc = 0#32 := rfl
@[simp] theorem State.clearRegisters_ie (s : State) : (s.clearRegisters).ie = false := rfl
@[simp] theorem State.clearRegisters_busy (s : State) : (s.clearRegisters).busy = false := rfl
@[simp] theorem State.clearRegisters_done (s : State) : (s.clearRegisters).done = false := rfl
@[simp] theorem State.clearRegisters_err (s : State) : (s.clearRegisters).err = false := rfl
@[simp] theorem State.clearRegisters_errCause (s : State) : (s.clearRegisters).errCause = .none := rfl
@[simp] theorem State.clearRegisters_errPc (s : State) : (s.clearRegisters).errPc = 0#32 := rfl
@[simp] theorem State.clearRegisters_memSize (s : State) : (s.clearRegisters).memSize = s.memSize := rfl
@[simp] theorem State.clearRegisters_mem (s : State) : (s.clearRegisters).mem = s.mem := rfl
@[simp] theorem State.clearRegisters_unstable (s : State) : (s.clearRegisters).unstable = s.unstable := rfl
@[simp] theorem State.clearRegisters_resetInput (s : State) : (s.clearRegisters).resetInput = s.resetInput := rfl
@[simp] theorem State.clearRegisters_hostReply (s : State) : (s.clearRegisters).hostReply = s.hostReply := rfl
@[simp] theorem State.clearRegisters_draws (s : State) : (s.clearRegisters).draws = s.draws := rfl
@[simp] theorem State.clearRegisters_memEpoch (s : State) : (s.clearRegisters).memEpoch = s.memEpoch := rfl
@[simp] theorem State.clearRegisters_turns (s : State) : (s.clearRegisters).turns = s.turns := rfl

/-! ### hardwareReset -/

@[simp] theorem State.hardwareReset_fregs (s : State) : (s.hardwareReset).fregs = Vector.replicate 16 0#127 := rfl
@[simp] theorem State.hardwareReset_sregs (s : State) : (s.hardwareReset).sregs = Vector.replicate 16 0#32 := rfl
@[simp] theorem State.hardwareReset_cpc (s : State) : (s.hardwareReset).cpc = 0#32 := rfl
@[simp] theorem State.hardwareReset_ie (s : State) : (s.hardwareReset).ie = false := rfl
@[simp] theorem State.hardwareReset_busy (s : State) : (s.hardwareReset).busy = false := rfl
@[simp] theorem State.hardwareReset_done (s : State) : (s.hardwareReset).done = false := rfl
@[simp] theorem State.hardwareReset_err (s : State) : (s.hardwareReset).err = false := rfl
@[simp] theorem State.hardwareReset_errCause (s : State) : (s.hardwareReset).errCause = .none := rfl
@[simp] theorem State.hardwareReset_errPc (s : State) : (s.hardwareReset).errPc = 0#32 := rfl
@[simp] theorem State.hardwareReset_memSize (s : State) : (s.hardwareReset).memSize = s.memSize := rfl
@[simp] theorem State.hardwareReset_mem (s : State) : (s.hardwareReset).mem = [] := rfl
@[simp] theorem State.hardwareReset_unstable (s : State) : (s.hardwareReset).unstable = s.unstable := rfl
@[simp] theorem State.hardwareReset_resetInput (s : State) : (s.hardwareReset).resetInput = false := rfl
@[simp] theorem State.hardwareReset_hostReply (s : State) : (s.hardwareReset).hostReply = s.hostReply := rfl
@[simp] theorem State.hardwareReset_draws (s : State) : (s.hardwareReset).draws = s.draws := rfl
@[simp] theorem State.hardwareReset_memEpoch (s : State) : (s.hardwareReset).memEpoch = s.memEpoch + 1 := rfl
@[simp] theorem State.hardwareReset_turns (s : State) : (s.hardwareReset).turns = s.turns := rfl

/-! ### The register views under the updates that leave them alone -/

@[simp] theorem State.setF_sreg (s : State) (r : Reg) (v : Elem) (q : Reg) : (s.setF r v).sreg q = s.sreg q := rfl
@[simp] theorem State.setF_memByte? (s : State) (r : Reg) (v : Elem) (a : Nat) : (s.setF r v).memByte? a = s.memByte? a := rfl
@[simp] theorem State.setS_freg (s : State) (r : Reg) (v : Word) (q : Reg) : (s.setS r v).freg q = s.freg q := by unfold State.setS; split <;> rfl
@[simp] theorem State.setS_mreg (s : State) (r : Reg) (v : Word) (q : Reg) : (s.setS r v).mreg q = s.mreg q := by unfold State.setS; split <;> rfl
@[simp] theorem State.setS_memByte? (s : State) (r : Reg) (v : Word) (a : Nat) : (s.setS r v).memByte? a = s.memByte? a := by unfold State.setS; split <;> rfl
@[simp] theorem State.setM_sreg (s : State) (k : Reg) (m : Mat) (q : Reg) : (s.setM k m).sreg q = s.sreg q := rfl
@[simp] theorem State.setM_memByte? (s : State) (k : Reg) (m : Mat) (a : Nat) : (s.setM k m).memByte? a = s.memByte? a := rfl
@[simp] theorem State.storeBytes_freg (s : State) (a : Nat) (bs : List Byte) (q : Reg) : (s.storeBytes a bs).freg q = s.freg q := rfl
@[simp] theorem State.storeBytes_mreg (s : State) (a : Nat) (bs : List Byte) (q : Reg) : (s.storeBytes a bs).mreg q = s.mreg q := rfl
@[simp] theorem State.storeBytes_sreg (s : State) (a : Nat) (bs : List Byte) (q : Reg) : (s.storeBytes a bs).sreg q = s.sreg q := rfl
@[simp] theorem State.tear_freg (s : State) (a n : Nat) (q : Reg) : (s.tear a n).freg q = s.freg q := rfl
@[simp] theorem State.tear_mreg (s : State) (a n : Nat) (q : Reg) : (s.tear a n).mreg q = s.mreg q := rfl
@[simp] theorem State.tear_sreg (s : State) (a n : Nat) (q : Reg) : (s.tear a n).sreg q = s.sreg q := rfl
@[simp] theorem State.tick_freg (s : State) (q : Reg) : (s.tick).freg q = s.freg q := rfl
@[simp] theorem State.tick_mreg (s : State) (q : Reg) : (s.tick).mreg q = s.mreg q := rfl
@[simp] theorem State.tick_sreg (s : State) (q : Reg) : (s.tick).sreg q = s.sreg q := rfl
@[simp] theorem State.tick_memByte? (s : State) (a : Nat) : (s.tick).memByte? a = s.memByte? a := rfl
@[simp] theorem State.advance_freg (s : State) (q : Reg) : (s.advance).freg q = s.freg q := rfl
@[simp] theorem State.advance_mreg (s : State) (q : Reg) : (s.advance).mreg q = s.mreg q := rfl
@[simp] theorem State.advance_sreg (s : State) (q : Reg) : (s.advance).sreg q = s.sreg q := rfl
@[simp] theorem State.advance_memByte? (s : State) (a : Nat) : (s.advance).memByte? a = s.memByte? a := rfl
@[simp] theorem State.takeFault_freg (s : State) (c : Cause) (q : Reg) : (s.takeFault c).freg q = s.freg q := rfl
@[simp] theorem State.takeFault_mreg (s : State) (c : Cause) (q : Reg) : (s.takeFault c).mreg q = s.mreg q := rfl
@[simp] theorem State.takeFault_sreg (s : State) (c : Cause) (q : Reg) : (s.takeFault c).sreg q = s.sreg q := rfl
@[simp] theorem State.takeFault_memByte? (s : State) (c : Cause) (a : Nat) : (s.takeFault c).memByte? a = s.memByte? a := rfl
@[simp] theorem State.halted_freg (s : State) (q : Reg) : (s.halted).freg q = s.freg q := rfl
@[simp] theorem State.halted_mreg (s : State) (q : Reg) : (s.halted).mreg q = s.mreg q := rfl
@[simp] theorem State.halted_sreg (s : State) (q : Reg) : (s.halted).sreg q = s.sreg q := rfl
@[simp] theorem State.halted_memByte? (s : State) (a : Nat) : (s.halted).memByte? a = s.memByte? a := rfl
@[simp] theorem State.started_freg (s : State) (q : Reg) : (s.started).freg q = s.freg q := rfl
@[simp] theorem State.started_mreg (s : State) (q : Reg) : (s.started).mreg q = s.mreg q := rfl
@[simp] theorem State.started_sreg (s : State) (q : Reg) : (s.started).sreg q = s.sreg q := rfl
@[simp] theorem State.started_memByte? (s : State) (a : Nat) : (s.started).memByte? a = s.memByte? a := rfl
@[simp] theorem State.writeStatus_freg (s : State) (v : Word) (q : Reg) : (s.writeStatus v).freg q = s.freg q := rfl
@[simp] theorem State.writeStatus_mreg (s : State) (v : Word) (q : Reg) : (s.writeStatus v).mreg q = s.mreg q := rfl
@[simp] theorem State.writeStatus_sreg (s : State) (v : Word) (q : Reg) : (s.writeStatus v).sreg q = s.sreg q := rfl
@[simp] theorem State.writeStatus_memByte? (s : State) (v : Word) (a : Nat) : (s.writeStatus v).memByte? a = s.memByte? a := rfl
@[simp] theorem State.clearRegisters_memByte? (s : State) (a : Nat) : (s.clearRegisters).memByte? a = s.memByte? a := rfl

/-! ### Reading back a register write -/

theorem State.freg_setF (s : State) (r q : Reg) (v : Elem) :
    (s.setF r v).freg q = if q = r then v else s.freg q := by
  unfold State.setF State.freg
  by_cases h : q = r
  · subst h; simp
  · have hn : r.toNat ≠ q.toNat := fun e => h (BitVec.eq_of_toNat_eq e.symm)
    simp [hn, h]

@[simp] theorem State.freg_setF_self (s : State) (r : Reg) (v : Elem) : (s.setF r v).freg r = v := by
  simp [State.freg_setF]

/-- S0 reads 0 whatever its storage holds (10_state.md R23). -/
@[simp] theorem State.sreg_zero (s : State) : s.sreg 0#4 = 0#32 := rfl

theorem State.sreg_setS (s : State) (r q : Reg) (v : Word) :
    (s.setS r v).sreg q = if q = r ∧ r ≠ 0#4 then v else s.sreg q := by
  unfold State.setS
  by_cases hr : r = 0#4
  · simp [hr]
  · by_cases h : q = r
    · subst h; simp [State.sreg, hr]
    · have hn : r.toNat ≠ q.toNat := fun e => h (BitVec.eq_of_toNat_eq e.symm)
      simp only [hr, if_false]
      unfold State.sreg
      simp [hn, h]

/-- S0's storage is never written. -/
@[simp] theorem State.setS_storage_zero (s : State) (r : Reg) (v : Word) :
    (s.setS r v).sregs[0] = s.sregs[0] := by
  unfold State.setS
  by_cases hr : r = 0#4
  · simp [hr]
  · have hn : r.toNat ≠ 0 := fun e => hr (BitVec.eq_of_toNat_eq (by simpa using e))
    simp [hr, hn]

/-- M[k]'s element j is F[4k+j] (10_state.md R19). -/
theorem mElem_toNat (k j : Reg) (hk : legalM k = true) (hj : legalM j = true) :
    (mElem k j).toNat = 4 * k.toNat + j.toNat := by
  revert k j; decide +kernel

/-- The four F registers of two different matrix registers, and of one, are all different (10_state.md R19). -/
theorem mElem_inj (k k' j j' : Reg) (hk : legalM k = true) (hk' : legalM k' = true) (hj : legalM j = true)
    (hj' : legalM j' = true) : mElem k j = mElem k' j' ↔ k = k' ∧ j = j' := by
  have h := mElem_toNat k j hk hj
  have h' := mElem_toNat k' j' hk' hj'
  simp only [legalM, decide_eq_true_eq] at hk hk' hj hj'
  simp only [← BitVec.toNat_inj, h, h']
  omega

/-- Writing M[k] writes the four F registers F[4k] .. F[4k+3] and no other (10_state.md R19). -/
theorem State.freg_setM (s : State) (k q : Reg) (m : Mat) (hk : legalM k = true) :
    (s.setM k m).freg q =
      if q = mElem k 0#4 then m.a else if q = mElem k 1#4 then m.b
      else if q = mElem k 2#4 then m.c else if q = mElem k 3#4 then m.d else s.freg q := by
  have h (i j : Reg) (hi : legalM i = true) (hj : legalM j = true) (hij : i ≠ j) :
      mElem k i ≠ mElem k j := fun e => hij ((mElem_inj k k i j hk hk hi hj).mp e).2
  have h01 := h 0#4 1#4 rfl rfl (by decide)
  have h02 := h 0#4 2#4 rfl rfl (by decide)
  have h03 := h 0#4 3#4 rfl rfl (by decide)
  have h12 := h 1#4 2#4 rfl rfl (by decide)
  have h13 := h 1#4 3#4 rfl rfl (by decide)
  have h23 := h 2#4 3#4 rfl rfl (by decide)
  simp only [State.setM, State.freg_setF]
  split_ifs <;> simp_all

/-- Reading back M[k] after a write to M[k'] (10_state.md R19). -/
theorem State.mreg_setM (s : State) (k k' : Reg) (m : Mat) (hk : legalM k = true) (hk' : legalM k' = true) :
    (s.setM k m).mreg k' = if k' = k then m else s.mreg k' := by
  unfold State.mreg
  simp only [State.freg_setM s k _ m hk]
  by_cases h : k' = k
  · subst h
    simp [mElem_inj k' k' _ _ hk hk, legalM]
  · have e (j j' : Reg) (hj : legalM j = true) (hj' : legalM j' = true) : mElem k' j ≠ mElem k j' :=
      fun e => h ((mElem_inj k' k j j' hk' hk hj hj').mp e).1
    simp [h, e 0#4 0#4 rfl rfl, e 0#4 1#4 rfl rfl, e 0#4 2#4 rfl rfl, e 0#4 3#4 rfl rfl, e 1#4 0#4 rfl rfl, e 1#4 1#4 rfl rfl,
      e 1#4 2#4 rfl rfl, e 1#4 3#4 rfl rfl, e 2#4 0#4 rfl rfl, e 2#4 1#4 rfl rfl, e 2#4 2#4 rfl rfl, e 2#4 3#4 rfl rfl,
      e 3#4 0#4 rfl rfl, e 3#4 1#4 rfl rfl, e 3#4 2#4 rfl rfl, e 3#4 3#4 rfl rfl]

end Sys2Proof.Machine
end

