-- ==== Sys2Proof/Laws/Memory.lean ====
section
/-! SUPPORT. MEM: every memory operation keeps the canonical form, and what a read gives after a write. -/

namespace Sys2Proof.Machine

/-! ### One byte -/

/-- Read after write (20_memory.md R54). -/
theorem Memory.lookup_write (m : Memory) (a k : Nat) (b : Byte) :
    Memory.lookup (Memory.write m a b) k = if k = a then some b else Memory.lookup m k := by
  induction m with
  | nil => simp [Memory.write, Memory.lookup, eq_comm]
  | cons p rest ih =>
    obtain ⟨j, c⟩ := p
    simp only [Memory.write]
    split_ifs <;> simp_all [Memory.lookup, eq_comm]

/-- The addresses a write leaves listed. -/
theorem Memory.mem_write (m : Memory) (a : Nat) (b : Byte) {c : Host.Cell} (h : c ∈ Memory.write m a b) :
    c.1 = a ∨ c ∈ m := by
  induction m with
  | nil => simp [Memory.write] at h; simp [h]
  | cons p rest ih =>
    obtain ⟨j, d⟩ := p
    simp only [Memory.write] at h
    split_ifs at h <;> simp only [List.mem_cons] at h ⊢
    · rcases h with rfl | rfl | h <;> simp_all
    · rcases h with rfl | h <;> simp_all
    · rcases h with rfl | h
      · simp
      · rcases ih h with h | h <;> simp [h]

/-- A write keeps the canonical form. -/
theorem Memory.wf_write (m : Memory) (a : Nat) (b : Byte) (h : Memory.wf m) : Memory.wf (Memory.write m a b) := by
  induction m with
  | nil => simp [Memory.wf, Memory.write]
  | cons p rest ih =>
    obtain ⟨j, c⟩ := p
    simp only [Memory.wf, List.pairwise_cons] at h ih
    simp only [Memory.write]
    split_ifs with h1 h2 <;> simp only [Memory.wf, List.pairwise_cons, List.mem_cons]
    · refine ⟨?_, h⟩
      rintro q (rfl | hq)
      · exact h1
      · exact h1.trans (h.1 q hq)
    · subst h2; exact h
    · refine ⟨fun q hq => ?_, ih h.2⟩
      rcases Memory.mem_write rest a b hq with e | hq
      · rw [e]; show j < a; omega
      · exact h.1 q hq

/-! ### A string of bytes -/

/-- Read after a write of a byte string: the string's own bytes, and every other byte as before. -/
theorem Memory.lookup_writeBytes (bs : List Byte) : ∀ (m : Memory) (a k : Nat),
    Memory.lookup (Memory.writeBytes m a bs) k =
      if h : a ≤ k ∧ k < a + bs.length then some (bs[k - a]'(by omega)) else Memory.lookup m k := by
  induction bs with
  | nil => intro m a k; simp [Memory.writeBytes]
  | cons b bs ih =>
    intro m a k
    simp only [Memory.writeBytes, ih, Memory.lookup_write, List.length_cons]
    by_cases hk : k = a
    · subst hk; simp
    · by_cases h1 : a + 1 ≤ k ∧ k < a + 1 + bs.length
      · have h2 : a ≤ k ∧ k < a + (bs.length + 1) := by omega
        have e : k - a = (k - (a + 1)) + 1 := by omega
        simp [h1, h2, e]
      · have h2 : ¬(a ≤ k ∧ k < a + (bs.length + 1)) := by omega
        rw [dif_neg h1, dif_neg h2, if_neg hk]

theorem Memory.wf_writeBytes (bs : List Byte) : ∀ (m : Memory) (a : Nat), Memory.wf m →
    Memory.wf (Memory.writeBytes m a bs) := by
  induction bs with
  | nil => exact fun m a h => h
  | cons b bs ih => exact fun m a h => ih _ _ (Memory.wf_write m a b h)

theorem Memory.mem_writeBytes (bs : List Byte) : ∀ (m : Memory) (a : Nat) {c : Host.Cell},
    c ∈ Memory.writeBytes m a bs → (a ≤ c.1 ∧ c.1 < a + bs.length) ∨ c ∈ m := by
  induction bs with
  | nil => exact fun m a c h => Or.inr h
  | cons b bs ih =>
    intro m a c h
    rcases ih _ _ h with h | h
    · left; simp only [List.length_cons]; omega
    · rcases Memory.mem_write _ _ _ h with h | h
      · left; simp only [List.length_cons]; omega
      · exact Or.inr h

/-! ### The unstable addresses -/

theorem mem_insertAddr (l : List Nat) (a k : Nat) : k ∈ insertAddr l a ↔ k = a ∨ k ∈ l := by
  induction l with
  | nil => simp [insertAddr]
  | cons j l ih =>
    simp only [insertAddr]
    split_ifs with h1 h2 <;> simp_all [or_left_comm]

theorem insertAddr_rising (l : List Nat) (a : Nat) (h : l.Pairwise (· < ·)) :
    (insertAddr l a).Pairwise (· < ·) := by
  induction l with
  | nil => simp [insertAddr]
  | cons j l ih =>
    simp only [List.pairwise_cons] at h
    simp only [insertAddr]
    split_ifs with h1 h2
    · simp only [List.pairwise_cons, List.mem_cons]
      refine ⟨?_, h⟩
      rintro q (rfl | hq)
      · exact h1
      · exact h1.trans (h.1 q hq)
    · simp only [List.pairwise_cons]; exact h
    · simp only [List.pairwise_cons]
      refine ⟨fun q hq => ?_, ih h.2⟩
      rcases (mem_insertAddr l a q).mp hq with rfl | hq
      · omega
      · exact h.1 q hq

theorem mem_removeAddr (l : List Nat) (a k : Nat) : k ∈ removeAddr l a ↔ k ∈ l ∧ k ≠ a := by
  simp [removeAddr]

theorem removeAddr_rising (l : List Nat) (a : Nat) (h : l.Pairwise (· < ·)) :
    (removeAddr l a).Pairwise (· < ·) := h.filter _

/-! ### What the machine reads -/

theorem State.memByte?_eq_none (s : State) (a : Nat) : s.memByte? a = none ↔ a ∈ s.unstable := by
  unfold State.memByte?; split <;> simp_all

/-- Storing bytes: an unstable byte stays unstable, the range holds the bytes, every other byte is as before
(20_memory.md R58; 00_scope.md R12). -/
theorem State.memByte?_storeBytes (s : State) (a k : Nat) (bs : List Byte) :
    (s.storeBytes a bs).memByte? k =
      if k ∈ s.unstable then none
      else if h : a ≤ k ∧ k < a + bs.length then some (bs[k - a]'(by omega)) else s.memByte? k := by
  unfold State.memByte?
  simp only [State.storeBytes_unstable, State.storeBytes_mem, State.storeBytes_memEpoch,
    Memory.lookup_writeBytes, List.contains_iff_mem]
  by_cases hu : k ∈ s.unstable
  · simp [hu]
  · by_cases h : a ≤ k ∧ k < a + bs.length <;> simp [hu, h]

theorem State.memByte?_storeBytes_outside (s : State) (a k : Nat) (bs : List Byte)
    (h : k < a ∨ a + bs.length ≤ k) : (s.storeBytes a bs).memByte? k = s.memByte? k := by
  rw [State.memByte?_storeBytes]
  have h' : ¬(a ≤ k ∧ k < a + bs.length) := by omega
  by_cases hu : k ∈ s.unstable
  · simp [hu, (s.memByte?_eq_none k).mpr hu]
  · simp [hu, h']

/-- A stable byte reads as what it holds, at every read. -/
theorem State.readByte_of_some {s : State} {a : Nat} {b : Byte} (h : s.memByte? a = some b) (p : ReadPort) :
    s.readByte p a = b := by
  simp [State.readByte, h]

@[simp] theorem State.memBytes_length (s : State) (p : ReadPort) (n : Nat) : ∀ a, (s.memBytes p a n).length = n := by
  induction n with
  | zero => exact fun a => rfl
  | succ n ih => exact fun a => by simp [State.memBytes, ih]

theorem State.getElem_memBytes (s : State) (p : ReadPort) (n : Nat) : ∀ (a k : Nat)
    (h : k < (s.memBytes p a n).length), (s.memBytes p a n)[k] = s.readByte p (a + k) := by
  induction n with
  | zero => intro a k h; simp at h
  | succ n ih =>
    intro a k h
    cases k with
    | zero => rfl
    | succ k =>
      have := ih (a + 1) k (by simpa using h)
      simp only [State.memBytes, List.getElem_cons_succ, this]
      congr 1; omega

/-- A range that holds the bytes `bs` reads as `bs`. -/
theorem State.memBytes_eq {s : State} {bs : List Byte} {a : Nat} (p : ReadPort)
    (h : ∀ k (hk : k < bs.length), s.memByte? (a + k) = some bs[k]) : s.memBytes p a bs.length = bs := by
  refine List.ext_getElem (by simp) fun k h1 h2 => ?_
  rw [State.getElem_memBytes, State.readByte_of_some (h k h2)]

/-- A read splits where its range is cut. -/
theorem State.memBytes_add (s : State) (p : ReadPort) (m n : Nat) : ∀ a,
    s.memBytes p a (m + n) = s.memBytes p a m ++ s.memBytes p (a + m) n := by
  induction m with
  | zero => intro a; simp [State.memBytes]
  | succ m ih =>
    intro a
    have e : m + 1 + n = (m + n) + 1 := by omega
    have e' : a + 1 + m = a + (m + 1) := by omega
    rw [e]
    simp only [State.memBytes, ih, e', List.cons_append]

end Sys2Proof.Machine
end

