-- ==== Sys2Proof/Laws/Ops.lean ====
section
/-! SUPPORT. For each shared operation, once, everything it can do: the provers cite these and do not unfold
the operation. -/

namespace Sys2Proof.Machine

/-! ### The checks of a command -/

/-- A range check passes with the rest of the command, or is MEM_RANGE. -/
theorem State.checkRange_cases (s : State) (a n : Nat) (e : Except Cause State) :
    (s.InRange a n ∧ s.checkRange a n e = e) ∨ (¬s.InRange a n ∧ s.checkRange a n e = .error .memRange) := by
  unfold State.checkRange; split <;> simp_all

@[simp] theorem State.checkRange_pos {s : State} {a n : Nat} (h : s.InRange a n) (e : Except Cause State) :
    s.checkRange a n e = e := if_pos h

@[simp] theorem State.checkRange_neg {s : State} {a n : Nat} (h : ¬s.InRange a n) (e : Except Cause State) :
    s.checkRange a n e = .error .memRange := if_neg h

theorem State.checkRange_ok {s t : State} {a n : Nat} {e : Except Cause State} :
    s.checkRange a n e = .ok t ↔ s.InRange a n ∧ e = .ok t := by
  unfold State.checkRange; split <;> simp_all

theorem State.checkRange_error {s : State} {a n : Nat} {e : Except Cause State} {c : Cause} :
    s.checkRange a n e = .error c ↔ (s.InRange a n ∧ e = .error c) ∨ (¬s.InRange a n ∧ c = .memRange) := by
  unfold State.checkRange; split <;> simp_all [eq_comm]

@[simp] theorem guardM_pos {ms : List Reg} (h : ms.all legalM = true) (e : Except Cause State) :
    guardM ms e = e := if_pos h

@[simp] theorem guardM_neg {ms : List Reg} (h : ms.all legalM = false) (e : Except Cause State) :
    guardM ms e = .error .illegalCmd := by simp [guardM, h]

theorem guardM_ok {ms : List Reg} {e : Except Cause State} {t : State} :
    guardM ms e = .ok t ↔ ms.all legalM = true ∧ e = .ok t := by
  unfold guardM; split <;> simp_all

theorem guardM_error {ms : List Reg} {e : Except Cause State} {c : Cause} :
    guardM ms e = .error c ↔
      (ms.all legalM = true ∧ e = .error c) ∨ (ms.all legalM = false ∧ c = .illegalCmd) := by
  unfold guardM
  cases ms.all legalM with
  | true => simp
  | false => simpa using eq_comm

@[simp] theorem decoded_some {α : Type} (x : α) (e : α → Except Cause State) : decoded (some x) e = e x := rfl

@[simp] theorem decoded_none {α : Type} (e : α → Except Cause State) :
    decoded none e = .error .invalidInput := rfl

theorem decoded_ok {α : Type} {v : Option α} {e : α → Except Cause State} {t : State} :
    decoded v e = .ok t ↔ ∃ x, v = some x ∧ e x = .ok t := by
  cases v <;> simp

theorem decoded_error {α : Type} {v : Option α} {e : α → Except Cause State} {c : Cause} :
    decoded v e = .error c ↔ (∃ x, v = some x ∧ e x = .error c) ∨ (v = none ∧ c = .invalidInput) := by
  cases v <;> simp [eq_comm]

/-! ### The end of a command -/

@[simp] theorem State.settled_ok (s t : State) : s.settled (.ok t) = t.advance.tick := rfl

@[simp] theorem State.settled_error (s : State) (c : Cause) : s.settled (.error c) = (s.takeFault c).tick := rfl

/-- A command always ends in a next state, and it is one of two: the effects with CPC advanced, or the fault. -/
theorem State.settle_next {s t : State} {e : Except Cause State} (h : s.settle e = .next t) :
    (∃ u, e = .ok u ∧ t = u.advance.tick) ∨ (∃ c, e = .error c ∧ t = (s.takeFault c).tick) := by
  simp only [State.settle, Host.Outcome.next.injEq] at h
  cases e with
  | ok u => exact .inl ⟨u, rfl, h.symm⟩
  | error c => exact .inr ⟨c, rfl, h.symm⟩

/-- Taking a fault leaves everything but the run status, ERRCAUSE and ERRPC (60_exceptions.md R125, R126). -/
theorem State.takeFault_faulted (s : State) (c : Cause) : Faulted s (s.takeFault c).tick c where
  ie := rfl
  memSize := rfl
  unstable := rfl
  resetInput := rfl
  hostReply := rfl
  memEpoch := rfl
  turns := rfl
  err := rfl
  errCause := rfl
  errPc := rfl
  busy := rfl
  done := rfl
  cpc := rfl
  fregs := fun _ => rfl
  sregs := fun _ => rfl
  mem := fun _ => rfl

/-- An effect that leaves the shell, CPC and the run status alone completes the command. -/
theorem State.advance_completed {s u : State} (h : SameShell s u) (hc : u.cpc = s.cpc) (hb : u.busy = s.busy)
    (hd : u.done = s.done) (he : u.err = s.err) (hec : u.errCause = s.errCause) (hep : u.errPc = s.errPc) :
    Completed s u.advance.tick where
  ie := h.ie
  memSize := h.memSize
  unstable := h.unstable
  resetInput := h.resetInput
  hostReply := h.hostReply
  memEpoch := h.memEpoch
  turns := h.turns
  cpc := by simp [hc]
  busy := by simp [hb]
  done := by simp [hd]
  err := by simp [he]
  errCause := by simp [hec]
  errPc := by simp [hep]

theorem completed_setF (s : State) (r : Reg) (v : Elem) : Completed s (s.setF r v).advance.tick :=
  State.advance_completed ⟨rfl, rfl, rfl, rfl, rfl, rfl, rfl⟩ rfl rfl rfl rfl rfl rfl

theorem completed_setM (s : State) (k : Reg) (m : Mat) : Completed s (s.setM k m).advance.tick :=
  State.advance_completed ⟨rfl, rfl, rfl, rfl, rfl, rfl, rfl⟩ rfl rfl rfl rfl rfl rfl

theorem completed_setS (s : State) (r : Reg) (v : Word) : Completed s (s.setS r v).advance.tick :=
  State.advance_completed ⟨by simp, by simp, by simp, by simp, by simp, by simp, by simp⟩
    (by simp) (by simp) (by simp) (by simp) (by simp) (by simp)

theorem completed_storeBytes (s : State) (a : Nat) (bs : List Byte) :
    Completed s (s.storeBytes a bs).advance.tick :=
  State.advance_completed ⟨rfl, rfl, rfl, rfl, rfl, rfl, rfl⟩ rfl rfl rfl rfl rfl rfl

/-! ### Fetch -/

/-- Everything the fetch and decode of a step can give (40_control.md R73, R74). -/
theorem State.command_cases (s : State) :
    (∃ i rest, s.Fetchable ∧ decode s.fetchBytes = .ok (i, rest) ∧ s.command = .ok i) ∨
    (∃ r, s.Fetchable ∧ decode s.fetchBytes = .error r ∧ s.command = .error .illegalCmd) ∨
    (¬s.Fetchable ∧ s.command = .error .fetchFault) := by
  by_cases h : s.Fetchable
  · cases hd : decode s.fetchBytes with
    | ok p => exact .inl ⟨p.1, p.2, h, rfl, by simp [State.command, h, hd]⟩
    | error r => exact .inr (.inl ⟨r, h, rfl, by simp [State.command, h, hd]⟩)
  · exact .inr (.inr ⟨h, by simp [State.command, h]⟩)

/-- Everything a turn of the engine can do (40_control.md R73). -/
theorem engineTurn_cases (s : State) :
    (∃ i, s.busy = true ∧ s.resetInput = false ∧ s.command = .ok i ∧ engineTurn s = exec i s) ∨
    (∃ c, s.busy = true ∧ s.resetInput = false ∧ s.command = .error c ∧
      engineTurn s = .next (s.takeFault c).tick) ∨
    ((s.busy = false ∨ s.resetInput = true) ∧ engineTurn s = .next s) := by
  unfold engineTurn
  by_cases h : (s.busy && !s.resetInput) = true
  · simp only [h, if_true]
    simp only [Bool.and_eq_true, Bool.not_eq_true'] at h
    cases hc : s.command with
    | ok i => exact .inl ⟨i, h.1, h.2, rfl, rfl⟩
    | error c => exact .inr (.inl ⟨c, h.1, h.2, rfl, rfl⟩)
  · refine .inr (.inr ⟨?_, by simp [h]⟩)
    simp only [Bool.and_eq_true, Bool.not_eq_true', not_and, Bool.not_eq_false] at h
    by_cases hb : s.busy = true
    · exact .inr (h hb)
    · exact .inl (by simpa using hb)

/-! ### Bytes that MEM holds -/

/-- What was stored at stable addresses is held there. -/
theorem holds_storeBytes (s : State) (a : Nat) (bs : List Byte) (h : ∀ k < bs.length, a + k ∉ s.unstable) :
    Holds (s.storeBytes a bs) a bs := by
  intro k hk
  rw [State.memByte?_storeBytes, if_neg (h k hk), dif_pos ⟨by omega, by omega⟩]
  simp

/-- What is held elsewhere is still held after a store. -/
theorem Holds.storeBytes {s : State} {a : Nat} {bs : List Byte} (h : Holds s a bs) (c : Nat) (cs : List Byte)
    (hd : c + cs.length ≤ a ∨ a + bs.length ≤ c) : Holds (s.storeBytes c cs) a bs := by
  intro k hk
  rw [State.memByte?_storeBytes_outside _ _ _ _ (by omega), h k hk]

/-- Bytes are held as a string exactly when both parts of the string are. -/
theorem holds_append (s : State) (a : Nat) (bs cs : List Byte) :
    Holds s a (bs ++ cs) ↔ Holds s a bs ∧ Holds s (a + bs.length) cs := by
  refine ⟨fun h => ⟨fun k hk => ?_, fun k hk => ?_⟩, fun h k hk => ?_⟩
  · rw [h k (by simp; omega), List.getElem_append_left hk]
  · have := h (bs.length + k) (by simp; omega)
    rw [Nat.add_assoc, this, List.getElem_append_right (by omega)]
    simp
  · by_cases hb : k < bs.length
    · rw [h.1 k hb, List.getElem_append_left hb]
    · rw [List.getElem_append_right (by omega), ← h.2 (k - bs.length) (by simp at hk; omega)]
      congr 1; omega

/-- A range that holds `bs` reads as `bs`, at every read. -/
theorem Holds.memBytes {s : State} {a : Nat} {bs : List Byte} (h : Holds s a bs) (p : ReadPort) :
    s.memBytes p a bs.length = bs := State.memBytes_eq p h

/-! ### The host -/

/-- Everything an access the host makes can do (10_state.md R16). -/
theorem hostTurn_next {a : HostAccess} {s t : State} (h : hostTurn a s = .next t) :
    (s.resetInput = true ∧ t = s) ∨
    (s.resetInput = false ∧
      ((∃ off, a = .regRead off 4 ∧ off.toNat % 4 = 0 ∧
          t = { s with hostReply := .word (s.regValue off) }.tick) ∨
       (∃ off v, a = .regWrite off 4 v ∧ off.toNat % 4 = 0 ∧ t = (s.writeReg off v).tick) ∨
       (∃ i, a = .memRead i ∧ i < s.memSize ∧ t = { s with hostReply := .byte (s.windowByte i) }.tick) ∨
       (∃ i b, a = .memWrite i b ∧ i < s.memSize ∧ t = (s.windowWrite i b).tick))) := by
  unfold hostTurn at h
  by_cases hr : s.resetInput = true
  · simp only [hr, if_true, Host.Outcome.next.injEq] at h
    exact .inl ⟨hr, h.symm⟩
  · rw [if_neg hr] at h
    refine .inr ⟨by simpa using hr, ?_⟩
    cases a with
    | regRead off size =>
      dsimp only at h
      split at h
      · rename_i ha
        obtain ⟨rfl, ho⟩ := ha
        exact .inl ⟨off, rfl, ho, (Host.Outcome.next.inj h).symm⟩
      · cases h
    | regWrite off size v =>
      dsimp only at h
      split at h
      · rename_i ha
        obtain ⟨rfl, ho⟩ := ha
        exact .inr (.inl ⟨off, v, rfl, ho, (Host.Outcome.next.inj h).symm⟩)
      · cases h
    | memRead i =>
      dsimp only at h
      split at h
      · rename_i hi
        exact .inr (.inr (.inl ⟨i, rfl, hi, (Host.Outcome.next.inj h).symm⟩))
      · cases h
    | memWrite i b =>
      dsimp only at h
      split at h
      · rename_i hi
        exact .inr (.inr (.inr ⟨i, b, rfl, hi, (Host.Outcome.next.inj h).symm⟩))
      · cases h

/-- Everything a write to CTRL can do (10_state.md R27; 70_reset_and_hazards.md R138, R139). -/
theorem State.writeCtrl_cases (s : State) (v : Word) :
    (v.getLsbD 2 = true ∧ s.writeCtrl v = s.softReset) ∨
    (v.getLsbD 2 = false ∧ v.getLsbD 0 = true ∧ s.busy = false ∧
      s.writeCtrl v = { s with ie := v.getLsbD 1 }.started) ∨
    (v.getLsbD 2 = false ∧ (v.getLsbD 0 = false ∨ s.busy = true) ∧
      s.writeCtrl v = { s with ie := v.getLsbD 1 }) := by
  unfold State.writeCtrl
  cases v.getLsbD 2 <;> cases v.getLsbD 0 <;> cases s.busy <;> simp

/-- A soft reset clears the registers, after tearing at most one range of MEM, inside MEM
(70_reset_and_hazards.md R138). -/
theorem State.softReset_cases (s : State) :
    s.softReset = s.clearRegisters ∨
    ∃ a n, s.busy = true ∧ s.InRange a n ∧ s.softReset = (s.tear a n).clearRegisters := by
  unfold State.softReset
  cases h : s.storeAtCpc with
  | none => exact .inl rfl
  | some r =>
    right
    unfold State.storeAtCpc at h
    split at h
    · rename_i hb
      split at h
      · simp only [Option.filter_eq_some_iff, decide_eq_true_eq] at h
        exact ⟨r.1, r.2, hb, h.2, rfl⟩
      · cases h
    · cases h

/-! ### One step -/

/-- Whose turn a step is. -/
theorem step_of_turns {s : State} :
    (s.turns = [] → step s = engineTurn s) ∧
    (∀ ts, s.turns = .engine :: ts → step s = engineTurn { s with turns := ts }) ∧
    (∀ a ts, s.turns = .host a :: ts → step s = hostTurn a { s with turns := ts }) ∧
    (∀ ts, s.turns = .assertReset :: ts → step s = .next { s with turns := ts }.assertReset) ∧
    (∀ ts, s.turns = .releaseReset :: ts → step s = .next { s with turns := ts }.releaseReset) := by
  refine ⟨fun h => ?_, fun ts h => ?_, fun a ts h => ?_, fun ts h => ?_, fun ts h => ?_⟩ <;>
    simp only [step, h]

/-- The four host accesses the model answers, each with the state it leaves. -/
theorem step_regRead {s : State} {off : BitVec 8} {ts : List Turn} (h : HostDue s (.regRead off 4) ts)
    (ho : off.toNat % 4 = 0) :
    step s = .next { ({ s with turns := ts } : State) with
      hostReply := .word (({ s with turns := ts } : State).regValue off) }.tick := by
  rw [step_of_turns.2.2.1 _ _ h.turns]
  exact (if_neg (by simp [h.resetInput])).trans (if_pos ⟨rfl, ho⟩)

theorem step_regWrite {s : State} {off : BitVec 8} {v : Word} {ts : List Turn}
    (h : HostDue s (.regWrite off 4 v) ts) (ho : off.toNat % 4 = 0) :
    step s = .next (({ s with turns := ts } : State).writeReg off v).tick := by
  rw [step_of_turns.2.2.1 _ _ h.turns]
  exact (if_neg (by simp [h.resetInput])).trans (if_pos ⟨rfl, ho⟩)

theorem step_memRead {s : State} {i : Nat} {ts : List Turn} (h : HostDue s (.memRead i) ts)
    (hi : i < s.memSize) :
    step s = .next { ({ s with turns := ts } : State) with
      hostReply := .byte (({ s with turns := ts } : State).windowByte i) }.tick := by
  rw [step_of_turns.2.2.1 _ _ h.turns]
  exact (if_neg (by simp [h.resetInput])).trans (if_pos hi)

theorem step_memWrite {s : State} {i : Nat} {b : Byte} {ts : List Turn} (h : HostDue s (.memWrite i b) ts)
    (hi : i < s.memSize) :
    step s = .next (({ s with turns := ts } : State).windowWrite i b).tick := by
  rw [step_of_turns.2.2.1 _ _ h.turns]
  exact (if_neg (by simp [h.resetInput])).trans (if_pos hi)

/-! ### The host bus -/

@[simp] theorem busSplit_zero : busSplit 0 = [] := rfl

@[simp] theorem busSplit_one : busSplit 1 = [(0, 0)] := rfl

/-- A one-byte host-bus read at MEM_HOST_BASE + i is one read of MEM byte i, on a platform whose register block
is not at that address (20_memory.md R42). -/
theorem busReadTurns_byte (i : Nat)
    (h : windowBusAddress i < Config.csrBase ∨ Config.csrBase + 256 ≤ windowBusAddress i) :
    busReadTurns (windowBusAddress i) 1 = [.host (.memRead i)] := by
  unfold busReadTurns
  rw [if_neg (by omega), if_pos (by simp [windowBusAddress])]
  simp [windowBusAddress]

/-- A one-byte host-bus write of `b` at MEM_HOST_BASE + i is one write of `b` to MEM byte i, on a platform whose
register block is not at that address (20_memory.md R42). -/
theorem busWriteTurns_byte (i : Nat) (b : Byte)
    (h : windowBusAddress i < Config.csrBase ∨ Config.csrBase + 256 ≤ windowBusAddress i) :
    busWriteTurns (windowBusAddress i) 1 b.toNat = [.host (.memWrite i b)] := by
  unfold busWriteTurns
  rw [if_neg (by omega), if_pos (by simp [windowBusAddress])]
  simp [windowBusAddress]

/-- A host-bus access in the register block is one access of the register at its offset (10_state.md R26). -/
theorem busReadTurns_register (off : BitVec 8) (size : Nat) :
    busReadTurns (regBusAddress off) size = [.host (.regRead off size)] := by
  have := off.isLt
  unfold busReadTurns
  rw [if_pos ⟨by simp [regBusAddress], by simp only [regBusAddress]; omega⟩]
  simp [regBusAddress]

theorem busWriteTurns_register (off : BitVec 8) (size : Nat) (v : Word) :
    busWriteTurns (regBusAddress off) size v.toNat = [.host (.regWrite off size v)] := by
  have := off.isLt
  unfold busWriteTurns
  rw [if_pos ⟨by simp [regBusAddress], by simp only [regBusAddress]; omega⟩]
  simp [regBusAddress]

end Sys2Proof.Machine
end

