-- ==== Sys2Proof/Laws/Exec.lean ====
section
/-! SUPPORT. What the execution of one command can do, said once for all commands. -/

namespace Sys2Proof.Machine

/-- The effects a command that completes and is not HALT can have: none, one F register, one S register, one
M register, or the bytes of its store range. -/
inductive Effect (s : State) (i : Instr) : State → Prop
  | nothing : storeRange i s = none → Effect s i s
  | writesF (r : Reg) (v : Elem) : storeRange i s = none → Effect s i (s.setF r v)
  | writesS (r : Reg) (v : Word) : storeRange i s = none → Effect s i (s.setS r v)
  | writesM (k : Reg) (m : Mat) : storeRange i s = none → legalM k = true → Effect s i (s.setM k m)
  | writesMem (a : Nat) (bs : List Byte) : storeRange i s = some (a, bs.length) →
      a + bs.length ≤ s.memSize → Effect s i (s.storeBytes a bs)

/-- The causes a command can fault with: its own when its M fields are legal, else ILLEGAL_CMD
(60_exceptions.md R122, R124). -/
def CauseOf (i : Instr) (c : Cause) : Prop :=
  (i.wellFormed = true ∧ c ∈ ownCauses i) ∨ (i.wellFormed = false ∧ c = .illegalCmd)

/-- The end of a command, from what its effect may be. -/
theorem State.settle_effect {s t : State} {i : Instr} {e : Except Cause State} (hi : i ≠ .halt)
    (hok : ∀ u, e = .ok u → Effect s i u) (herr : ∀ c, e = .error c → CauseOf i c)
    (h : s.settle e = .next t) :
    (i = .halt ∧ t = s.halted.advance.tick) ∨ (i ≠ .halt ∧ ∃ u, Effect s i u ∧ t = u.advance.tick) ∨
      ∃ c, CauseOf i c ∧ t = (s.takeFault c).tick := by
  rcases State.settle_next h with ⟨u, hu, ht⟩ | ⟨c, hc, ht⟩
  · exact .inr (.inl ⟨hi, u, hok u hu, ht⟩)
  · exact .inr (.inr ⟨c, herr c hc, ht⟩)

theorem State.inRange_pos {s : State} {a n : Nat} (h : s.InRange a n) (hn : n ≠ 0) : a + n ≤ s.memSize :=
  h.resolve_left hn

/-- Everything the execution of a command can do: HALT ends the run; a command completes with one of the
effects above; or it faults with one of its causes. -/
theorem exec_cases {i : Instr} {s t : State} (h : exec i s = .next t) :
    (i = .halt ∧ t = s.halted.advance.tick) ∨ (i ≠ .halt ∧ ∃ u, Effect s i u ∧ t = u.advance.tick) ∨
      ∃ c, CauseOf i c ∧ t = (s.takeFault c).tick := by
  cases i with
  | halt => exact .inl ⟨rfl, (Host.Outcome.next.inj h).symm⟩
  | nop => exact .inr (.inl ⟨by simp, s, .nothing rfl, (Host.Outcome.next.inj h).symm⟩)
  | lil sd imm => exact .inr (.inl ⟨by simp, _, .writesS _ _ rfl, (Host.Outcome.next.inj h).symm⟩)
  | lih sd imm => exact .inr (.inl ⟨by simp, _, .writesS _ _ rfl, (Host.Outcome.next.inj h).symm⟩)
  | addi sd sa imm => exact .inr (.inl ⟨by simp, _, .writesS _ _ rfl, (Host.Outcome.next.inj h).symm⟩)
  | fadd fd fa fb => exact .inr (.inl ⟨by simp, _, .writesF _ _ rfl, (Host.Outcome.next.inj h).symm⟩)
  | fmulx fd fa => exact .inr (.inl ⟨by simp, _, .writesF _ _ rfl, (Host.Outcome.next.inj h).symm⟩)
  | fmulx1 fd fa => exact .inr (.inl ⟨by simp, _, .writesF _ _ rfl, (Host.Outcome.next.inj h).symm⟩)
  | fmul fd fa fb => exact .inr (.inl ⟨by simp, _, .writesF _ _ rfl, (Host.Outcome.next.inj h).symm⟩)
  | fldi fd imm => exact .inr (.inl ⟨by simp, _, .writesF _ _ rfl, (Host.Outcome.next.inj h).symm⟩)
  | sld sd sb imm =>
    refine State.settle_effect (by simp) (fun u hu => ?_) (fun c hc => ?_) h
    · obtain ⟨-, hu⟩ := State.checkRange_ok.mp hu
      cases hu; exact .writesS _ _ rfl
    · simp only [State.checkRange_error, reduceCtorEq, and_false, false_or] at hc
      exact .inl ⟨rfl, by simp [ownCauses, hc.2]⟩
  | sst ss sb imm =>
    refine State.settle_effect (by simp) (fun u hu => ?_) (fun c hc => ?_) h
    · obtain ⟨hr, hu⟩ := State.checkRange_ok.mp hu
      cases hu; exact .writesMem _ _ (by simp [storeRange]) (by simpa using State.inRange_pos hr (by simp))
    · simp only [State.checkRange_error, reduceCtorEq, and_false, false_or] at hc
      exact .inl ⟨rfl, by simp [ownCauses, hc.2]⟩
  | finv fd fa =>
    refine State.settle_effect (by simp) (fun u hu => ?_) (fun c hc => ?_) h
    · split_ifs at hu; cases hu; exact .writesF _ _ rfl
    · split_ifs at hc; cases hc; exact .inl ⟨rfl, by simp [ownCauses]⟩
  | fld fd sb imm =>
    refine State.settle_effect (by simp) (fun u hu => ?_) (fun c hc => ?_) h
    · simp only [State.checkRange_ok, decoded_ok, Except.ok.injEq] at hu
      obtain ⟨-, x, -, rfl⟩ := hu; exact .writesF _ _ rfl
    · simp only [State.checkRange_error, decoded_error, reduceCtorEq, and_false, exists_false, false_or] at hc
      rcases hc with ⟨-, -, rfl⟩ | ⟨-, rfl⟩ <;> exact .inl ⟨rfl, by simp [ownCauses]⟩
  | fst fs sb imm =>
    refine State.settle_effect (by simp) (fun u hu => ?_) (fun c hc => ?_) h
    · obtain ⟨hr, hu⟩ := State.checkRange_ok.mp hu
      cases hu; exact .writesMem _ _ (by simp [storeRange, encF]) (by simpa [encF] using State.inRange_pos hr (by simp))
    · simp only [State.checkRange_error, reduceCtorEq, and_false, false_or] at hc
      exact .inl ⟨rfl, by simp [ownCauses, hc.2]⟩
  | mmul md ma mb =>
    refine State.settle_effect (by simp) (fun u hu => ?_) (fun c hc => ?_) h
    · obtain ⟨hm, hu⟩ := guardM_ok.mp hu
      cases hu; exact .writesM _ _ rfl (by simp_all)
    · simp only [guardM_error, reduceCtorEq, and_false, false_or] at hc
      exact .inr hc
  | minv md ma =>
    refine State.settle_effect (by simp) (fun u hu => ?_) (fun c hc => ?_) h
    · obtain ⟨hm, hu⟩ := guardM_ok.mp hu
      split_ifs at hu; cases hu; exact .writesM _ _ rfl (by simp_all)
    · rcases guardM_error.mp hc with ⟨hm, hc⟩ | hc
      · split_ifs at hc; cases hc; exact .inl ⟨hm, by simp [ownCauses]⟩
      · exact .inr hc
  | mid md =>
    refine State.settle_effect (by simp) (fun u hu => ?_) (fun c hc => ?_) h
    · obtain ⟨hm, hu⟩ := guardM_ok.mp hu
      cases hu; exact .writesM _ _ rfl (by simp_all)
    · simp only [guardM_error, reduceCtorEq, and_false, false_or] at hc
      exact .inr hc
  | mld md sb imm =>
    refine State.settle_effect (by simp) (fun u hu => ?_) (fun c hc => ?_) h
    · simp only [guardM_ok, State.checkRange_ok, decoded_ok, Except.ok.injEq] at hu
      obtain ⟨hm, -, x, -, rfl⟩ := hu; exact .writesM _ _ rfl (by simp_all)
    · simp only [guardM_error, State.checkRange_error, decoded_error, reduceCtorEq, and_false, exists_false,
        false_or] at hc
      rcases hc with ⟨hm, ⟨-, -, rfl⟩ | ⟨-, rfl⟩⟩ | hc
      · exact .inl ⟨hm, by simp [ownCauses]⟩
      · exact .inl ⟨hm, by simp [ownCauses]⟩
      · exact .inr hc
  | mst ms sb imm =>
    refine State.settle_effect (by simp) (fun u hu => ?_) (fun c hc => ?_) h
    · simp only [guardM_ok, State.checkRange_ok, Except.ok.injEq] at hu
      obtain ⟨hm, hr, rfl⟩ := hu
      exact .writesMem _ _ (by simp [storeRange, encM, encF])
        (by simpa [encM, encF] using State.inRange_pos hr (by simp))
    · simp only [guardM_error, State.checkRange_error, reduceCtorEq, and_false, false_or] at hc
      rcases hc with ⟨hm, -, rfl⟩ | hc
      · exact .inl ⟨hm, by simp [ownCauses]⟩
      · exact .inr hc
  | hbit md b =>
    refine State.settle_effect (by simp) (fun u hu => ?_) (fun c hc => ?_) h
    · obtain ⟨hm, hu⟩ := guardM_ok.mp hu
      cases hu; exact .writesM _ _ rfl (by simp_all)
    · simp only [guardM_error, reduceCtorEq, and_false, false_or] at hc
      exact .inr hc
  | hupd md sa sb =>
    refine State.settle_effect (by simp) (fun u hu => ?_) (fun c hc => ?_) h
    · simp only [guardM_ok, State.checkRange_ok, Except.ok.injEq] at hu
      obtain ⟨hm, -, rfl⟩ := hu; exact .writesM _ _ rfl (by simp_all)
    · simp only [guardM_error, State.checkRange_error, reduceCtorEq, and_false, false_or] at hc
      rcases hc with ⟨hm, -, rfl⟩ | hc
      · exact .inl ⟨hm, by simp [ownCauses]⟩
      · exact .inr hc
  | hcat md sa sb =>
    refine State.settle_effect (by simp) (fun u hu => ?_) (fun c hc => ?_) h
    · obtain ⟨hm, hu⟩ := guardM_ok.mp hu
      split_ifs at hu
      simp only [State.checkRange_ok, decoded_ok, Except.ok.injEq] at hu
      obtain ⟨-, x, -, rfl⟩ := hu; exact .writesM _ _ rfl (by simp_all)
    · rcases guardM_error.mp hc with ⟨hm, hc⟩ | hc
      · split_ifs at hc
        · cases hc; exact .inl ⟨hm, by simp [ownCauses]⟩
        · simp only [State.checkRange_error, decoded_error, reduceCtorEq, and_false, exists_false, false_or] at hc
          rcases hc with ⟨-, -, rfl⟩ | ⟨-, rfl⟩ <;> exact .inl ⟨hm, by simp [ownCauses]⟩
      · exact .inr hc
  | hval sd sa sb sc =>
    refine State.settle_effect (by simp) (fun u hu => ?_) (fun c hc => ?_) h
    · simp only [State.checkRange_ok, Except.ok.injEq] at hu
      obtain ⟨-, -, rfl⟩ := hu; exact .writesS _ _ rfl
    · simp only [State.checkRange_error, reduceCtorEq, and_false, false_or] at hc
      rcases hc with ⟨-, -, rfl⟩ | ⟨-, rfl⟩ <;> exact .inl ⟨rfl, by simp [ownCauses]⟩

/-- Every command has a next state: no command ends in a fault of the model or a refusal. -/
theorem exec_isNext (i : Instr) (s : State) : ∃ t, exec i s = .next t := by
  cases i <;> exact ⟨_, rfl⟩

end Sys2Proof.Machine
end

