-- ==== Sys2Proof/Laws/PerInstr.lean ====
section
/-! SUPPORT. What is said of every command as syntax, one lemma per constructor. -/

namespace Sys2Proof.Laws.OpcodeByte

open Sys2Proof

/-- The opcode column of the opcode map (30_encoding.md R68). -/
def opcode : Instr → BitVec 8
  | .halt => 0x00#8
  | .nop => 0x01#8
  | .lil _ _ => 0x02#8
  | .lih _ _ => 0x03#8
  | .addi _ _ _ => 0x04#8
  | .sld _ _ _ => 0x05#8
  | .sst _ _ _ => 0x06#8
  | .fadd _ _ _ => 0x10#8
  | .fmulx _ _ => 0x11#8
  | .fmulx1 _ _ => 0x12#8
  | .fmul _ _ _ => 0x13#8
  | .finv _ _ => 0x14#8
  | .fldi _ _ => 0x15#8
  | .fld _ _ _ => 0x16#8
  | .fst _ _ _ => 0x17#8
  | .mmul _ _ _ => 0x20#8
  | .minv _ _ => 0x21#8
  | .mid _ => 0x22#8
  | .mld _ _ _ => 0x23#8
  | .mst _ _ _ => 0x24#8
  | .hbit _ _ => 0x30#8
  | .hupd _ _ _ => 0x31#8
  | .hcat _ _ _ => 0x32#8
  | .hval _ _ _ _ => 0x33#8

/-- The top byte of a command's word is its opcode, whatever its operands are. -/
def Statement (i : Instr) : Prop := fieldOp (encode i) = opcode i

theorem halt : Statement .halt := fieldOp_packR ..
theorem nop : Statement .nop := fieldOp_packR ..
theorem lil (sd : Reg) (imm : Imm) : Statement (.lil sd imm) := fieldOp_packI ..
theorem lih (sd : Reg) (imm : Imm) : Statement (.lih sd imm) := fieldOp_packI ..
theorem addi (sd : Reg) (sa : Reg) (imm : Imm) : Statement (.addi sd sa imm) := fieldOp_packI ..
theorem sld (sd : Reg) (sb : Reg) (imm : Imm) : Statement (.sld sd sb imm) := fieldOp_packI ..
theorem sst (ss : Reg) (sb : Reg) (imm : Imm) : Statement (.sst ss sb imm) := fieldOp_packI ..
theorem fadd (fd : Reg) (fa : Reg) (fb : Reg) : Statement (.fadd fd fa fb) := fieldOp_packR ..
theorem fmulx (fd : Reg) (fa : Reg) : Statement (.fmulx fd fa) := fieldOp_packR ..
theorem fmulx1 (fd : Reg) (fa : Reg) : Statement (.fmulx1 fd fa) := fieldOp_packR ..
theorem fmul (fd : Reg) (fa : Reg) (fb : Reg) : Statement (.fmul fd fa fb) := fieldOp_packR ..
theorem finv (fd : Reg) (fa : Reg) : Statement (.finv fd fa) := fieldOp_packR ..
theorem fldi (fd : Reg) (imm : Imm) : Statement (.fldi fd imm) := fieldOp_packI ..
theorem fld (fd : Reg) (sb : Reg) (imm : Imm) : Statement (.fld fd sb imm) := fieldOp_packI ..
theorem fst (fs : Reg) (sb : Reg) (imm : Imm) : Statement (.fst fs sb imm) := fieldOp_packI ..
theorem mmul (md : Reg) (ma : Reg) (mb : Reg) : Statement (.mmul md ma mb) := fieldOp_packR ..
theorem minv (md : Reg) (ma : Reg) : Statement (.minv md ma) := fieldOp_packR ..
theorem mid (md : Reg) : Statement (.mid md) := fieldOp_packR ..
theorem mld (md : Reg) (sb : Reg) (imm : Imm) : Statement (.mld md sb imm) := fieldOp_packI ..
theorem mst (ms : Reg) (sb : Reg) (imm : Imm) : Statement (.mst ms sb imm) := fieldOp_packI ..
theorem hbit (md : Reg) (b : Bool) : Statement (.hbit md b) := fieldOp_packR ..
theorem hupd (md : Reg) (sa : Reg) (sb : Reg) : Statement (.hupd md sa sb) := fieldOp_packR ..
theorem hcat (md : Reg) (sa : Reg) (sb : Reg) : Statement (.hcat md sa sb) := fieldOp_packR ..
theorem hval (sd : Reg) (sa : Reg) (sb : Reg) (sc : Reg) : Statement (.hval sd sa sb sc) := fieldOp_packR ..

end Sys2Proof.Laws.OpcodeByte
end

