-- ==== Sys2Proof/Machine/Asm.lean ====
section
/-! DEFINITION. The assembler's language: pseudo-instructions, immediate ranges and one line of text
(30_encoding.md R71, R72; log 28). No step of the machine uses this file. -/

namespace Sys2Proof.Machine

/-! ### Pseudo-instructions (30_encoding.md R72) -/

/-- The seven pseudo-instructions. -/
inductive Pseudo where
  /-- HRST Md: the hash's `reset()` -/
  | hrst (md : Reg)
  /-- HDIG Ms, imm(Sb): the hash's `digest()` -/
  | hdig (ms sb : Reg) (imm : Imm)
  /-- HASH Md, Sa, Sb: `hash_data` without its digest -/
  | hash (md sa sb : Reg)
  /-- LI Sd, imm32 -/
  | li (sd : Reg) (imm : Word)
  /-- MOV Sd, Sa -/
  | mov (sd sa : Reg)
  /-- FCLR Fd -/
  | fclr (fd : Reg)
  /-- FONE Fd -/
  | fone (fd : Reg)
  deriving DecidableEq, Repr

/-- The commands a pseudo-instruction stands for (30_encoding.md R72). -/
def expand : Pseudo → List Instr
  | .hrst md => [.mid md]
  | .hdig ms sb imm => [.mst ms sb imm]
  | .hash md sa sb => [.mid md, .hupd md sa sb]
  | .li sd imm => [.lil sd (imm.extractLsb' 0 16), .lih sd (imm.extractLsb' 16 16)]
  | .mov sd sa => [.addi sd sa 0]
  | .fclr fd => [.fldi fd 0]
  | .fone fd => [.fldi fd 1]

/-! ### Immediates (30_encoding.md R71): out of range is an error, never a truncation -/

/-- Why a line is no command. -/
inductive AsmError where
  /-- the line does not have the form of a command -/
  | form
  /-- a number outside the range its operand accepts -/
  | range
  deriving DecidableEq, Repr

/-- ADDI and displacements accept -32768..32767. -/
def signedImm (n : Int) : Except AsmError Imm :=
  if -32768 ≤ n ∧ n ≤ 32767 then .ok (BitVec.ofInt 16 n) else .error .range

/-- LIL, LIH and FLDI accept 0..65535. -/
def unsignedImm (n : Int) : Except AsmError Imm :=
  if 0 ≤ n ∧ n ≤ 65535 then .ok (BitVec.ofInt 16 n) else .error .range

/-- HBIT's bit accepts 0 or 1. -/
def bitImm (n : Int) : Except AsmError Bool :=
  if n = 0 then .ok false else if n = 1 then .ok true else .error .range

/-- LI's constant: any 32-bit value (log 28). -/
def wordImm (n : Int) : Except AsmError Word :=
  if 0 ≤ n ∧ n < 2 ^ 32 then .ok (BitVec.ofInt 32 n) else .error .range

/-! ### Tokens -/

/-- A word of letters, digits, `_` and `-`, or a mark. -/
inductive Tok where
  | word (cs : List Char)
  | comma
  | lpar
  | rpar
  | colon
  /-- a character no line may hold -/
  | bad
  deriving DecidableEq, Repr

/-- Ends the word read so far (`cur`, reversed). -/
def flushWord (cur : List Char) (rest : List Tok) : List Tok :=
  match cur with
  | [] => rest
  | _ => .word cur.reverse :: rest

/-- A character in lower case: mnemonics and register names are case-insensitive. -/
def lowerChar (c : Char) : Char := if 'A' ≤ c ∧ c ≤ 'Z' then Char.ofNat (c.toNat + 32) else c

/-- The tokens of a line; a comment starts with `;`. -/
def tokens : List Char → List Char → List Tok
  | [], cur => flushWord cur []
  | c :: cs, cur =>
    if c = ';' then flushWord cur []
    else if c = ' ' ∨ c = '\t' then flushWord cur (tokens cs [])
    else if c = ',' then flushWord cur (.comma :: tokens cs [])
    else if c = '(' then flushWord cur (.lpar :: tokens cs [])
    else if c = ')' then flushWord cur (.rpar :: tokens cs [])
    else if c = ':' then flushWord cur (.colon :: tokens cs [])
    else if c.isAlphanum ∨ c = '_' ∨ c = '-' then tokens cs (lowerChar c :: cur)
    else flushWord cur (.bad :: tokens cs [])

/-! ### Operands -/

inductive Operand where
  | f (r : Reg)
  | s (r : Reg)
  | m (r : Reg)
  | num (n : Int)
  /-- `imm(Sb)` -/
  | disp (n : Int) (sb : Reg)
  deriving DecidableEq, Repr

/-- The value of a digit in a base. -/
def digitVal (base : Nat) (c : Char) : Option Nat :=
  let v := if '0' ≤ c ∧ c ≤ '9' then c.toNat - '0'.toNat
    else if 'a' ≤ c ∧ c ≤ 'f' then c.toNat - 'a'.toNat + 10 else base
  if v < base then some v else none

/-- The number a digit string denotes, after `acc`. -/
def digitsVal (base : Nat) : List Char → Nat → Option Nat
  | [], acc => some acc
  | c :: cs, acc => (digitVal base c).bind fun v => digitsVal base cs (acc * base + v)

/-- A number without sign: decimal, or hexadecimal after `0x`. -/
def natOf : List Char → Option Nat
  | [] => none
  | '0' :: 'x' :: c :: cs => digitsVal 16 (c :: cs) 0
  | cs => digitsVal 10 cs 0

/-- A number, with `-` before it where it is negative. -/
def intOf : List Char → Option Int
  | '-' :: cs => (natOf cs).map fun n => -(n : Int)
  | cs => (natOf cs).map fun n => (n : Int)

/-- A register number below `bound`. -/
def regOf (bound : Nat) (cs : List Char) : Option Reg :=
  match cs with
  | [] => none
  | _ => (digitsVal 10 cs 0).bind fun n => if n < bound then some (BitVec.ofNat 4 n) else none

/-- One operand: a register F0..F15, S0..S15 or M0..M3, a number, or `imm(Sb)`. -/
def operandOf : List Tok → Option Operand
  | [.word ('f' :: cs)] => (regOf 16 cs).map .f
  | [.word ('s' :: cs)] => (regOf 16 cs).map .s
  | [.word ('m' :: cs)] => (regOf 4 cs).map .m
  | [.word cs] => (intOf cs).map .num
  | [.word cs, .lpar, .word ('s' :: ds), .rpar] =>
    (intOf cs).bind fun n => (regOf 16 ds).map fun r => .disp n r
  | _ => none

/-- Splits at commas: `cur` is the current operand's tokens, reversed. -/
def splitCommas : List Tok → List Tok → List (List Tok)
  | [], cur => [cur.reverse]
  | .comma :: ts, cur => cur.reverse :: splitCommas ts []
  | t :: ts, cur => splitCommas ts (t :: cur)

/-- The operands after the mnemonic. -/
def operandsOf : List Tok → Option (List Operand)
  | [] => some []
  | ts => (splitCommas ts []).mapM operandOf

/-! ### One line -/

/-- The commands of a mnemonic and its operands, in the operand order of 30_encoding.md R68 and R72. -/
def command (mn : List Char) (ops : List Operand) : Except AsmError (List Instr) :=
  match String.ofList mn, ops with
  | "halt", [] => .ok [.halt]
  | "nop", [] => .ok [.nop]
  | "lil", [.s d, .num n] => (unsignedImm n).map fun i => [.lil d i]
  | "lih", [.s d, .num n] => (unsignedImm n).map fun i => [.lih d i]
  | "addi", [.s d, .s a, .num n] => (signedImm n).map fun i => [.addi d a i]
  | "sld", [.s d, .disp n b] => (signedImm n).map fun i => [.sld d b i]
  | "sst", [.s d, .disp n b] => (signedImm n).map fun i => [.sst d b i]
  | "fadd", [.f d, .f a, .f b] => .ok [.fadd d a b]
  | "fmulx", [.f d, .f a] => .ok [.fmulx d a]
  | "fmulx1", [.f d, .f a] => .ok [.fmulx1 d a]
  | "fmul", [.f d, .f a, .f b] => .ok [.fmul d a b]
  | "finv", [.f d, .f a] => .ok [.finv d a]
  | "fldi", [.f d, .num n] => (unsignedImm n).map fun i => [.fldi d i]
  | "fld", [.f d, .disp n b] => (signedImm n).map fun i => [.fld d b i]
  | "fst", [.f d, .disp n b] => (signedImm n).map fun i => [.fst d b i]
  | "mmul", [.m d, .m a, .m b] => .ok [.mmul d a b]
  | "minv", [.m d, .m a] => .ok [.minv d a]
  | "mid", [.m d] => .ok [.mid d]
  | "mld", [.m d, .disp n b] => (signedImm n).map fun i => [.mld d b i]
  | "mst", [.m d, .disp n b] => (signedImm n).map fun i => [.mst d b i]
  | "hbit", [.m d, .num n] => (bitImm n).map fun b => [.hbit d b]
  | "hupd", [.m d, .s a, .s b] => .ok [.hupd d a b]
  | "hcat", [.m d, .s a, .s b] => .ok [.hcat d a b]
  | "hval", [.s d, .s a, .s b, .s c] => .ok [.hval d a b c]
  | "hrst", [.m d] => .ok (expand (.hrst d))
  | "hdig", [.m d, .disp n b] => (signedImm n).map fun i => expand (.hdig d b i)
  | "hash", [.m d, .s a, .s b] => .ok (expand (.hash d a b))
  | "li", [.s d, .num n] => (wordImm n).map fun w => expand (.li d w)
  | "mov", [.s d, .s a] => .ok (expand (.mov d a))
  | "fclr", [.f d] => .ok (expand (.fclr d))
  | "fone", [.f d] => .ok (expand (.fone d))
  | _, _ => .error .form

/-- The commands of one line of text, with or without a label before them; an empty line or a bare label
has none (30_encoding.md R71). -/
def assembleLine (line : List Char) : Except AsmError (List Instr) :=
  let commandOf : List Tok → Except AsmError (List Instr) := fun ts =>
    match ts with
    | [] => .ok []
    | .word mn :: rest =>
      match operandsOf rest with
      | some ops => command mn ops
      | none => .error .form
    | _ => .error .form
  match tokens line [] with
  | .word _ :: .colon :: rest => commandOf rest
  | ts => commandOf ts

end Sys2Proof.Machine
end

