-- ==== Sys2Proof/Tests/Slice0.lean ====
section
/-! SUPPORT. Tests: the well-formedness smoke, every command's decoding, one-step vectors of 95_test_vectors.md,
and for each obligation with hypotheses a state and operands that meet them. -/

namespace Sys2Proof.Tests

open Sys2Proof Sys2Proof.Machine

/-! ## Well-formedness: M4 to M15 do not exist (30_encoding.md R66, R70) -/

theorem test_illFormed_mmul_md : (Instr.wellFormed (.mmul 4 0 0)) = false := by decide
theorem test_illFormed_mmul_ma : (Instr.wellFormed (.mmul 0 8 0)) = false := by decide
theorem test_illFormed_mmul_mb : (Instr.wellFormed (.mmul 0 0 15)) = false := by decide
theorem test_illFormed_minv_md : (Instr.wellFormed (.minv 4 0)) = false := by decide
theorem test_illFormed_minv_ma : (Instr.wellFormed (.minv 0 12)) = false := by decide
theorem test_illFormed_mid : (Instr.wellFormed (.mid 4)) = false := by decide
theorem test_illFormed_mld : (Instr.wellFormed (.mld 5 0 0)) = false := by decide
theorem test_illFormed_mst : (Instr.wellFormed (.mst 15 0 0)) = false := by decide
theorem test_illFormed_hbit : (Instr.wellFormed (.hbit 4 true)) = false := by decide
theorem test_illFormed_hupd : (Instr.wellFormed (.hupd 7 0 0)) = false := by decide
theorem test_illFormed_hcat : (Instr.wellFormed (.hcat 8 0 0)) = false := by decide
theorem test_wellFormed_m3 : (Instr.wellFormed (.mmul 3 3 3)) = true := by decide
theorem test_illFormed_word_refused : decodeWord (encode (.mst 15 0 0)) = .error .matrixField := by decide

/-! ## Decoding: the words of 95_test_vectors.md section 2.1, and words with every field at its last value -/

theorem test_decode_halt : decodeWord 0x00000000#32 = .ok .halt := by decide
theorem test_decode_nop : decodeWord 0x01000000#32 = .ok .nop := by decide
theorem test_decode_lil : decodeWord 0x02101234#32 = .ok (.lil 1 0x1234) := by decide
theorem test_decode_lih : decodeWord 0x0310ABCD#32 = .ok (.lih 1 0xABCD) := by decide
theorem test_decode_addi : decodeWord 0x0421FFFC#32 = .ok (.addi 2 1 0xFFFC) := by decide
theorem test_decode_sld : decodeWord 0x05320008#32 = .ok (.sld 3 2 8) := by decide
theorem test_decode_sst : decodeWord 0x06320000#32 = .ok (.sst 3 2 0) := by decide
theorem test_decode_fadd : decodeWord 0x10312000#32 = .ok (.fadd 3 1 2) := by decide
theorem test_decode_fmulx : decodeWord 0x11410000#32 = .ok (.fmulx 4 1) := by decide
theorem test_decode_fmulx1 : decodeWord 0x12510000#32 = .ok (.fmulx1 5 1) := by decide
theorem test_decode_fmul : decodeWord 0x13312000#32 = .ok (.fmul 3 1 2) := by decide
theorem test_decode_finv : decodeWord 0x14210000#32 = .ok (.finv 2 1) := by decide
theorem test_decode_fldi : decodeWord 0x15700001#32 = .ok (.fldi 7 1) := by decide
theorem test_decode_fld : decodeWord 0x16110000#32 = .ok (.fld 1 1 0) := by decide
theorem test_decode_fst : decodeWord 0x17210010#32 = .ok (.fst 2 1 16) := by decide
theorem test_decode_mmul : decodeWord 0x20312000#32 = .ok (.mmul 3 1 2) := by decide
theorem test_decode_minv : decodeWord 0x21210000#32 = .ok (.minv 2 1) := by decide
theorem test_decode_mid : decodeWord 0x22300000#32 = .ok (.mid 3) := by decide
theorem test_decode_mld : decodeWord 0x23110000#32 = .ok (.mld 1 1 0) := by decide
theorem test_decode_mst : decodeWord 0x24310040#32 = .ok (.mst 3 1 64) := by decide
theorem test_decode_hbit : decodeWord 0x30000001#32 = .ok (.hbit 0 true) := by decide
theorem test_decode_hupd : decodeWord 0x31012000#32 = .ok (.hupd 0 1 2) := by decide
theorem test_decode_hcat : decodeWord 0x32356000#32 = .ok (.hcat 3 5 6) := by decide
theorem test_decode_hval : decodeWord 0x33735600#32 = .ok (.hval 7 3 5 6) := by decide
theorem test_decode_hval_last : decodeWord 0x33FEDC00#32 = .ok (.hval 15 14 13 12) := by decide
theorem test_decode_bytes : decode [0x06#8, 0x75#8, 0x00#8, 0xC0#8, 0xFF#8] = .ok (.sst 7 5 0xC0, [0xFF#8]) := by decide
theorem test_decode_truncated : decode [0x01#8, 0#8, 0#8] = .error .truncated := by decide
theorem test_decodeTableWord : decodeTableWord 32 0x0421FFFC = some (.addi 2 1 0xFFFC) := by decide
theorem test_V_E1 : decodeWord 0x07000000#32 = .error .unassignedOpcode := by decide
theorem test_V_E2 : decodeWord 0xFF000000#32 = .error .unassignedOpcode := by decide
theorem test_V_E3 : decodeWord 0x00000001#32 = .error .reservedBit := by decide
theorem test_V_E4 : decodeWord 0x10000001#32 = .error .reservedBit := by decide
theorem test_V_E5 : decodeWord 0x20400000#32 = .error .matrixField := by decide
theorem test_V_E6 : decodeWord 0x22400000#32 = .error .matrixField := by decide
theorem test_V_E7 : decodeWord 0x30000002#32 = .error .reservedBit := by decide
theorem test_V_E8 : decodeWord 0x02010000#32 = .error .reservedBit := by decide

/-! ## One step of each command: the vectors of 95_test_vectors.md sections 2.2 to 2.5 -/

/-- Reset, in the middle of a run. -/
def running : State := { State.reset with busy := true }

/-- What `f` shows of the state a command leaves. -/
def shows {α : Type} (i : Instr) (s : State) (f : State → α) : Option α :=
  match exec i s with
  | .next t => some (f t)
  | .fault _ => none
  | .refused _ => none

/-- What `f` shows of the state a step leaves. -/
def stepShows {α : Type} (s : State) (f : State → α) : Option α :=
  match step s with
  | .next t => some (f t)
  | .fault _ => none
  | .refused _ => none

/-- How a command ended: ERR, ERRCAUSE, CPC. -/
def ending (s : State) : Bool × Cause × Word := (s.err, s.errCause, s.cpc)

/-- The bytes [a, a + n) that MEM holds. -/
def bytesAt (a n : Nat) (s : State) : List (Option Byte) := (List.range n).map fun k => s.memByte? (a + k)

def elemA : Elem := 0x7123456789abcdef0fedcba987654321#127
def elemB : Elem := 0x0123456789abcdef0011223344556677#127

theorem test_halt : shows .halt running (fun t => (t.busy, t.done, t.err, t.cpc)) = some (false, true, false, 4#32) := by decide
theorem test_nop : shows .nop running (fun t => (t.busy, t.done, t.cpc)) = some (true, false, 4#32) := by decide
theorem test_lil : shows (.lil 1 0x1234) (running.setS 1 0xFFFF0000) (·.sreg 1) = some 0x1234#32 := by decide
theorem test_lil_s0 : shows (.lil 0 0x1234) running (·.sreg 0) = some 0#32 := by decide
theorem test_lih : shows (.lih 1 0xABCD) (running.setS 1 0x1234) (·.sreg 1) = some 0xABCD1234#32 := by decide
theorem test_addi_wraps : shows (.addi 1 1 1) (running.setS 1 0xFFFFFFFF) (·.sreg 1) = some 0#32 := by decide
theorem test_addi_signed : shows (.addi 1 1 0x8000) running (·.sreg 1) = some 0xFFFF8000#32 := by decide
theorem test_sld : shows (.sld 3 2 8) ((running.setS 2 0x100).storeBytes 0x108 [1, 2, 3, 4]) (·.sreg 3) =
    some 0x01020304#32 := by decide
theorem test_sld_outside : shows (.sld 2 0 0xFFFF) running ending = some (true, .memRange, 0#32) := by decide
theorem test_sst : shows (.sst 3 2 0) ((running.setS 2 0x100).setS 3 0x01020304) (bytesAt 0x100 4) =
    some [some 1, some 2, some 3, some 4] := by decide
theorem test_sst_last_word : shows (.sst 2 1 0xFFFC) (running.setS 1 0x10000) (bytesAt 0xFFFC 4) =
    some [some 0, some 0, some 0, some 0] := by decide
theorem test_fadd : shows (.fadd 3 1 2) ((running.setF 1 elemA).setF 2 elemB) (·.freg 3) =
    some 0x70000000000000000ffce99ac3302556#127 := by decide
theorem test_fadd_aliased : shows (.fadd 1 1 1) (running.setF 1 elemA) (·.freg 1) = some 0#127 := by decide
theorem test_fmulx : shows (.fmulx 7 1) (running.setF 1 elemA) (·.freg 7) =
    some 0x62468acf13579bde9fdb97530eca8643#127 := by decide
theorem test_fmulx_reduces : shows (.fmulx 1 1) (running.setF 1 0x40000000000000000000000000000000#127) (·.freg 1) =
    some 0x00000000000000008000000000000001#127 := by decide
theorem test_fmulx1 : shows (.fmulx1 8 1) (running.setF 1 elemA) (·.freg 8) =
    some 0x1365cfa89afc563190365cfa89afc562#127 := by decide
theorem test_fmul : shows (.fmul 4 1 2) ((running.setF 1 elemA).setF 2 elemB) (·.freg 4) =
    some 0x64e274b0769446c6a26db5bc507367a2#127 := by decide +kernel
theorem test_fmul_square : shows (.fmul 2 2 2) (running.setF 2 elemA) (·.freg 2) =
    some 0x7f171c1b30272c2bea95949190858481#127 := by decide +kernel
theorem test_finv_x : shows (.finv 1 2) (running.setF 2 2#127) (·.freg 1) =
    some 0x40000000000000004000000000000000#127 := by decide +kernel
theorem test_finv_zero : shows (.finv 1 2) (running.setF 1 elemA) (fun t => (ending t, t.freg 1)) =
    some ((true, .divZero, 0#32), elemA) := by decide
theorem test_fldi : shows (.fldi 15 0xFFFF) running (·.freg 15) = some 0xffff#127 := by decide
theorem test_fld_topBit : shows (.fld 1 1 0) ((running.setS 1 0x100).storeBytes 0x100 [0x80]) ending =
    some (true, .invalidInput, 0#32) := by decide
theorem test_fld_outside : shows (.fld 1 1 0) (running.setS 1 0xFFF1) ending =
    some (true, .memRange, 0#32) := by decide
theorem test_fst : shows (.fst 2 1 16) ((running.setS 1 0x100).setF 2 elemA) (bytesAt 0x110 16) =
    some ([0x71, 0x23, 0x45, 0x67, 0x89, 0xab, 0xcd, 0xef, 0x0f, 0xed, 0xcb, 0xa9, 0x87, 0x65, 0x43, 0x21].map some) := by
  decide +kernel

/-- The hash of the byte 80 (V-T7). -/
def hash80 : Mat := ⟨0x1f3#127, 0xc4#127, 0xd1#127, 0x73#127⟩

/-- The hash of the bytes 80 80 (V-T9). -/
def hash8080 : Mat := ⟨0x10a81#127, 0xa600#127, 0xb980#127, 0x4a81#127⟩

theorem test_mmul : shows (.mmul 0 0 1) ((running.setM 0 G0).setM 1 G1)
    (fun t => (t.freg 0, t.freg 1, t.freg 2, t.freg 3)) = some (0x5#127, 0x7#127, 0x2#127, 0x3#127) := by decide +kernel
theorem test_mmul_square : shows (.mmul 3 2 2) (running.setM 2 hash80) (·.mreg 3) = some hash8080 := by decide +kernel
theorem test_minv : shows (.minv 3 1) (running.setM 1 G1) (·.mreg 3) = some ⟨1#127, 3#127, 1#127, 2#127⟩ := by
  decide +kernel
theorem test_minv_zero : shows (.minv 0 0) running ending = some (true, .divZero, 0#32) := by decide +kernel
theorem test_mid : shows (.mid 3) running (fun t => (t.freg 11, t.freg 12, t.freg 13, t.freg 14, t.freg 15)) =
    some (0#127, 1#127, 0#127, 0#127, 1#127) := by decide
theorem test_mld_topBit : shows (.mld 1 1 0) ((running.setS 1 0x100).storeBytes 0x100 (List.replicate 48 0 ++ [0x80] ++
    List.replicate 15 0)) ending = some (true, .invalidInput, 0#32) := by decide +kernel
theorem test_mld_outside : shows (.mld 1 1 0) ((running.setS 1 0xFFC1).storeBytes 0xFFC1 [0x80]) ending =
    some (true, .memRange, 0#32) := by decide
theorem test_mst : shows (.mst 0 1 0) 
    (((((running.setS 1 0x500).setF 0 0x1f3#127).setF 1 0xc4#127).setF 2 0xd1#127).setF 3 0x73#127)
    (fun t => (bytesAt 0x50E 2 t, bytesAt 0x51F 1 t, bytesAt 0x52F 1 t, bytesAt 0x53F 1 t)) =
    some ([some 0x01, some 0xf3], [some 0xc4], [some 0xd1], [some 0x73]) := by decide +kernel
theorem test_hbit_0 : shows (.hbit 0 false) (running.setM 0 IDENTITY) (·.mreg 0) = some G0 := by decide
theorem test_hbit_1 : shows (.hbit 0 true) (running.setM 0 IDENTITY) (·.mreg 0) = some G1 := by decide
theorem test_hupd : shows (.hupd 0 1 2) ((((running.setS 1 0x600).setS 2 1).setM 0 IDENTITY).storeBytes 0x600 [0x80])
    (·.mreg 0) = some hash80 := by decide +kernel
theorem test_hupd_empty : shows (.hupd 0 1 2) (running.setS 1 0xFFFFFFFF) (fun t => (t.err, t.cpc)) =
    some (false, 4#32) := by decide
theorem test_hcat_one : shows (.hcat 3 5 6) (((running.setS 5 0x340).setS 6 1).storeBytes 0x340 (encM hash80))
    (·.mreg 3) = some hash80 := by decide +kernel
theorem test_hcat_empty : shows (.hcat 3 5 6) running ending = some (true, .invalidInput, 0#32) := by decide

/-- The digest of 80 80 at 0x300, and twice the digest of 80 from 0x340; S3, S5 their addresses. -/
def digests : State := ((running.setS 3 0x300).setS 5 0x340).storeBytes 0x300 (encM hash8080 ++ encM hash80 ++ encM hash80)

theorem test_hval : shows (.hval 7 3 5 6) (digests.setS 6 2) (·.sreg 7) = some 1#32 := by decide +kernel
theorem test_hval_empty : shows (.hval 7 3 5 6) (running.setS 7 9) (fun t => (t.sreg 7, t.err)) =
    some (0#32, false) := by decide +kernel

/-! ## Fetch, the host and the resets -/

theorem test_misaligned_fetch : stepShows { running with cpc := 2#32 } ending = some (true, .fetchFault, 2#32) := by decide
theorem test_fetch_past_mem : stepShows { running with cpc := 0x10000#32 } ending =
    some (true, .fetchFault, 0x10000#32) := by decide
theorem test_halt_in_last_word :
    stepShows ({ running with cpc := 0xFFFC#32 }.storeBytes 0xFFFC [0, 0, 0, 0]) (fun t => (t.done, t.cpc)) =
      some (true, 0x10000#32) := by decide
theorem test_illegal_word : stepShows (State.reset.withFetchWord 32 0x07000000) ending =
    some (true, .illegalCmd, 0#32) := by decide
theorem test_withFetchWord : stepShows (State.reset.withFetchWord 32 0x02101234) (·.sreg 1) = some 0x1234#32 := by decide

/-- The host makes one access. -/
def hostNext (a : HostAccess) (s : State) : State := { s with turns := [.host a] }

theorem test_start : stepShows (hostNext (.regWrite 0x00 4 3#32) { State.reset with done := true })
    (fun t => (t.busy, t.done, t.ie)) = some (true, false, true) := by decide
theorem test_srst_wins : stepShows (hostNext (.regWrite 0x00 4 7#32) { State.reset with cpc := 8#32, err := true })
    (fun t => (t.busy, t.ie, t.err, t.cpc)) = some (false, false, false, 0#32) := by decide
theorem test_status_write_1_clears : stepShows (hostNext (.regWrite 0x04 4 2#32) { State.reset with done := true, err := true })
    (fun t => (t.done, t.err)) = some (false, true) := by decide
theorem test_id_and_memsize :
    (State.reset.regValue 0x14, State.reset.regValue 0x18, State.reset.regValue 0x1C) =
      (0x545A7F01#32, 65536#32, 0#32) := by decide
theorem test_host_write_in_run_unstable : stepShows (hostNext (.memWrite 5 0xAA) running) (·.memByte? 5) =
    some none := by decide
theorem test_host_write_idle : stepShows (hostNext (.memWrite 5 0xAA) { State.reset with unstable := [5] }) (·.memByte? 5) =
    some (some 0xAA#8) := by decide

theorem test_assert_reset : stepShows { running with turns := [.assertReset, .engine] } (fun t => (t.resetInput, t.busy, t.turns)) =
    some (true, true, [.engine]) := by decide
theorem test_bus_byte_access : busSplit 1 = [(0, 0)] := rfl

/-! ## The assembler's text (30_encoding.md R71, R72) -/

theorem test_assemble_store : assembleLine "SST S7, 192(S5) ; result".toList = .ok [.sst 7 5 0xC0] := by decide +kernel
theorem test_assemble_range : assembleLine "lil s1, 65536".toList = .error .range := by decide +kernel
theorem test_expand_li : expand (.li 2 0xABCD1234) = [.lil 2 0x1234, .lih 2 0xABCD] := by decide

/-! ## Witnesses: states and operands that meet an obligation's hypotheses

One theorem per obligation with hypotheses, each of its clauses at the edge of its range. MEM_SIZE is 65536. -/

theorem witness_DecodeOfEncode : Instr.wellFormed (.mmul 3 0 3) = true := by decide
theorem witness_EncodeOfDecode : ∃ i, decodeWord 0x30300001#32 = .ok i := ⟨.hbit 3 true, by decide⟩
theorem witness_DecodeAcceptsExactlyTheOpcodeMap :
    (0x24000000#32, 0xFFC00000#32) ∈ opcodeRows ∧ 0x24310040#32 &&& 0xFFC00000#32 = 0x24000000#32 := by decide

/-- A NOP in the last word of MEM, where CPC points. -/
def nopAtEnd : State := { running with cpc := 0xFFFC#32 }.storeBytes 0xFFFC [1, 0, 0, 0]

theorem witness_StepRunsDecodedCommand :
    (nopAtEnd.busy = true ∧ nopAtEnd.resetInput = false ∧ nopAtEnd.cpc.toNat % 4 = 0 ∧
      nopAtEnd.cpc.toNat + 4 = nopAtEnd.memSize ∧
      decode (nopAtEnd.memBytes .fetch nopAtEnd.cpc.toNat 4) = .ok (.nop, []) ∧ nopAtEnd.turns = []) ∧
    ({ nopAtEnd with turns := [.engine] } : State).turns = .engine :: [] := by decide

theorem running_running : Running running := ⟨rfl, rfl, rfl⟩

theorem witness_UnfetchableCpcRaisesFetchFault :
    (Running { running with cpc := 2#32 } ∧ (2#32).toNat % 4 ≠ 0) ∧
    (Running { running with cpc := 0x10000#32 } ∧ running.memSize < (0x10000#32).toNat + 4) ∧
    Running { running with cpc := 0xFFFFFFFC#32 } ∧ running.memSize < (0xFFFFFFFC#32).toNat + 4 :=
  ⟨⟨⟨rfl, rfl, rfl⟩, by decide⟩, ⟨⟨rfl, rfl, rfl⟩, by decide⟩, ⟨rfl, rfl, rfl⟩, by decide⟩

/-- The bytes `bs` at `a`, and a run. -/
def holding (a : Nat) (bs : List Byte) : State := running.storeBytes a bs

theorem holding_holds (a : Nat) (bs : List Byte) : Holds (holding a bs) a bs :=
  holds_storeBytes _ _ _ fun _ _ => by simp [running, State.reset]

theorem witness_IllegalWordRaisesIllegalCmd :
    Running (holding 0 (bytesOfWord 0x22400000#32)) ∧
    (holding 0 (bytesOfWord 0x22400000#32)).cpc.toNat % 4 = 0 ∧
    (holding 0 (bytesOfWord 0x22400000#32)).cpc.toNat + 4 ≤ (holding 0 (bytesOfWord 0x22400000#32)).memSize ∧
    Holds (holding 0 (bytesOfWord 0x22400000#32)) (holding 0 (bytesOfWord 0x22400000#32)).cpc.toNat
      (bytesOfWord 0x22400000#32) ∧
    ¬IsCommandWord 0x22400000#32 := by
  refine ⟨⟨rfl, rfl, rfl⟩, by decide, by decide, holding_holds _ _, ?_⟩
  unfold IsCommandWord; decide

theorem witness_IdleEngineKeepsItsState :
    State.reset.busy = false ∧ State.reset.turns = [] ∧
    ({ State.reset with turns := [.engine] } : State).turns = .engine :: [] := by decide

theorem witness_CommandsFaultOnlyWithTheirOwnCauses :
    Instr.wellFormed (.finv 1 2) = true ∧ ∃ t, exec (.finv 1 2) running = .next t ∧ Faulted running t .divZero :=
  ⟨by decide, _, rfl, State.takeFault_faulted running .divZero⟩

theorem witness_BadMatrixFieldRaisesIllegalCmd : Instr.wellFormed (.mid 4) = false := by decide

theorem witness_OnlyStoresWriteMemory :
    (∃ t, exec .nop running = .next t) ∧ storeRange .nop running = none ∧
    (∃ t, exec (.mst 3 1 0) (running.setS 1 0xFFC0) = .next t) ∧
    storeRange (.mst 3 1 0) (running.setS 1 0xFFC0) = some (0xFFC0, 64) ∧
    ({ running with unstable := [0xFFC0] } : State).memByte? 0xFFC0 = none :=
  ⟨⟨_, rfl⟩, rfl, ⟨_, rfl⟩, by decide, by decide⟩

theorem witness_inv : Inv running where
  memSize := ⟨4, by decide, rfl⟩
  memWf := List.Pairwise.nil
  memInside := by simp [running, State.reset]
  unstableRising := List.Pairwise.nil
  unstableInside := by simp [running, State.reset]
  s0 := rfl
  oneStatus := by decide
  noOldFault := by decide
  errHasCause := by decide

theorem witness_EveryStepKeepsTheInvariant : Inv running ∧ ∃ t, step (hostNext (.memWrite 65535 1) running) = .next t :=
  ⟨witness_inv, _, rfl⟩

theorem witness_EveryRunEnds :
    Running { running with cpc := 0xFFFC#32 } ∧ Config.LegalMemSize running.memSize ∧
    (0xFFFC#32).toNat < running.memSize ∧
    Running { running with cpc := 0x10000#32 } ∧ ¬(0x10000#32).toNat < running.memSize :=
  ⟨⟨rfl, rfl, rfl⟩, witness_inv.memSize, by decide, ⟨rfl, rfl, rfl⟩, by decide⟩

theorem witness_RetryGivesTheSameFault :
    Running { running with cpc := 0x10000#32 } ∧ running.err = false ∧ running.unstable = [] ∧
    stepShows { running with cpc := 0x10000#32 } (·.err) = some true ∧
    (3#32).getLsbD 0 = true ∧ (3#32).getLsbD 2 = false :=
  ⟨⟨rfl, rfl, rfl⟩, rfl, rfl, by decide, by decide, by decide⟩

/-- In the last two words of MEM: `SST S1, -4(S2)`, over the word after it. -/
def storesAhead : State :=
  ({ running with cpc := 0xFFF8#32 }.setS 2 0x10000#32).storeBytes 0xFFF8 (bytesOfWord (encode (.sst 1 2 0xFFFC)))

theorem witness_StoreOverTheNextCommandIsFetched :
    Running storesAhead ∧ storesAhead.cpc.toNat % 4 = 0 ∧ storesAhead.cpc.toNat + 8 = storesAhead.memSize ∧
    storesAhead.memSize ≤ 2 ^ 31 ∧
    Holds storesAhead storesAhead.cpc.toNat (bytesOfWord (encode (.sst 1 2 0xFFFC))) ∧
    storesAhead.ea 2 0xFFFC = storesAhead.cpc.toNat + 4 ∧ decodeWord (storesAhead.sreg 1) = .ok .halt ∧
    storesAhead.unstable = [] :=
  ⟨⟨rfl, rfl, rfl⟩, by decide, by decide, by decide,
    holds_storeBytes _ _ _ fun _ _ => by simp [running, State.reset], by decide, by decide, rfl⟩

theorem witness_LoadImmediateCommands_AddImmediateWraps : (0 : Reg) = 0#4 ∧ (15 : Reg) ≠ 0#4 := by decide

/-- `S1 = a`, and the bytes `bs` at `c`. -/
def based (a : Word) (c : Nat) (bs : List Byte) : State := (running.setS 1 a).storeBytes c bs

theorem based_holds (a : Word) (c : Nat) (bs : List Byte) : Holds (based a c bs) c bs :=
  holds_storeBytes _ _ _ fun _ _ => by simp [running, State.reset]

theorem witness_ScalarLoad :
    ((based 0x10000 0xFFFC [1, 2, 3, 4]).ea 1 0xFFFC + 4 = (based 0x10000 0xFFFC [1, 2, 3, 4]).memSize ∧
      (15 : Reg) ≠ 0#4 ∧
      Holds (based 0x10000 0xFFFC [1, 2, 3, 4]) ((based 0x10000 0xFFFC [1, 2, 3, 4]).ea 1 0xFFFC) [1, 2, 3, 4]) ∧
    (based 0x10000 0 []).memSize < (based 0x10000 0 []).ea 1 0xFFFD + 4 :=
  ⟨⟨by decide, by decide, based_holds _ _ _⟩, by decide⟩

theorem witness_ScalarStore :
    (based 0x10000 0 []).ea 1 0xFFFC + 4 = (based 0x10000 0 []).memSize ∧
    (based 0x10000 0 []).memSize < (based 0x10000 0 []).ea 1 0xFFFD + 4 := by decide

theorem witness_FinvIsTheUniqueInverse : elemA ≠ ZERO ∧ fmul 2#127 0x40000000000000004000000000000000#127 = ONE := by
  decide +kernel

theorem witness_InverseCommand :
    (running.setF 2 elemA).freg 2 ≠ ZERO ∧ running.freg 2 = ZERO := by decide

theorem witness_ElementCodec :
    (List.replicate 16 (0x7F#8)).length = 16 ∧ topBit (List.replicate 16 (0x7F#8)) = false ∧
    topBit (List.replicate 16 (0x80#8)) = true := by decide

theorem witness_ElementLoad :
    ((based 0xFFF0 0xFFF0 (encF elemA)).ea 1 0 + 16 = (based 0xFFF0 0xFFF0 (encF elemA)).memSize ∧
      (encF elemA).length = 16 ∧
      Holds (based 0xFFF0 0xFFF0 (encF elemA)) ((based 0xFFF0 0xFFF0 (encF elemA)).ea 1 0) (encF elemA) ∧
      topBit (encF elemA) = false) ∧
    ((based 0xFFF0 0xFFF0 [0x80]).ea 1 0 + 16 = (based 0xFFF0 0xFFF0 [0x80]).memSize ∧
      Holds (based 0xFFF0 0xFFF0 [0x80]) ((based 0xFFF0 0xFFF0 [0x80]).ea 1 0) [0x80] ∧
      (0x80#8).getLsbD 7 = true) ∧
    (based 0xFFF1 0 []).memSize < (based 0xFFF1 0 []).ea 1 0 + 16 :=
  ⟨⟨by rfl, by simp, based_holds _ _ _, by decide⟩, ⟨by decide, based_holds _ _ _, by decide⟩, by decide⟩

theorem witness_ElementStore :
    (based 0xFFF0 0 []).ea 1 0 + 16 = (based 0xFFF0 0 []).memSize ∧
    (based 0xFFF1 0 []).memSize < (based 0xFFF1 0 []).ea 1 0 + 16 := by decide

theorem witness_LoadOfStoredElement :
    (based 0xFFF0 0 []).ea 1 0 + 16 = (based 0xFFF0 0 []).memSize ∧
    ∀ k < 16, (based 0xFFF0 0 []).ea 1 0 + k ∉ (based 0xFFF0 0 []).unstable := by decide

theorem witness_MinvIsTheMatrixInverse : det G1 ≠ ZERO ∧ det G1 = ONE := by decide +kernel
theorem witness_MatrixRegisterCommands : legalM 3 = true ∧ legalM 0 = true := by decide
theorem test_matrix_register_order : ((running.setF 13 3#127).mreg 3, (running.setM 1 G1).freg 5, (running.setM 1 G1).freg 6) =
    (⟨0#127, 3#127, 0#127, 0#127⟩, 3#127, 1#127) := by decide
theorem witness_MatrixInverseCommand :
    legalM 3 = true ∧ det ((running.setM 3 G1).mreg 3) ≠ ZERO ∧ det (running.mreg 3) = ZERO := by decide +kernel

theorem witness_MatrixLoad :
    legalM 3 = true ∧
    ((based 0xFFC0 0xFFC0 (encM hash80)).ea 1 0 + 64 = (based 0xFFC0 0xFFC0 (encM hash80)).memSize ∧
      Holds (based 0xFFC0 0xFFC0 (encM hash80)) ((based 0xFFC0 0xFFC0 (encM hash80)).ea 1 0)
        (encF hash80.a ++ encF hash80.b ++ encF hash80.c ++ encF hash80.d)) ∧
    ((based 0xFFC0 0xFFF0 [0x80]).ea 1 0 + 64 = (based 0xFFC0 0xFFF0 [0x80]).memSize ∧
      Holds (based 0xFFC0 0xFFF0 [0x80]) ((based 0xFFC0 0xFFF0 [0x80]).ea 1 0 + 16 * 3) [0x80] ∧
      (0x80#8).getLsbD 7 = true) ∧
    (based 0xFFC1 0 []).memSize < (based 0xFFC1 0 []).ea 1 0 + 64 :=
  ⟨by decide, ⟨by rfl, based_holds _ _ _⟩, ⟨by decide, based_holds _ _ _, by decide⟩, by decide⟩

theorem witness_MatrixStore :
    legalM 3 = true ∧ (based 0xFFC0 0 []).ea 1 0 + 64 = (based 0xFFC0 0 []).memSize ∧
    (based 0xFFC1 0 []).memSize < (based 0xFFC1 0 []).ea 1 0 + 64 := by decide

/-- S1 to S5 hold addresses, lengths or counts; the bytes `bs` stand at `c`. -/
def sized (a n m k l : Word) (c : Nat) (bs : List Byte) : State :=
  (((((running.setS 1 a).setS 2 n).setS 3 m).setS 4 k).setS 5 l).storeBytes c bs

theorem sized_holds (a n m k l : Word) (c : Nat) (bs : List Byte) : Holds (sized a n m k l c bs) c bs :=
  holds_storeBytes _ _ _ fun _ _ => by simp [running, State.reset]

theorem sized_regs (a n m k l : Word) (c : Nat) (bs : List Byte) :
    (sized a n m k l c bs).sreg 1 = a ∧ (sized a n m k l c bs).sreg 2 = n ∧ (sized a n m k l c bs).sreg 3 = m ∧
    (sized a n m k l c bs).sreg 4 = k ∧ (sized a n m k l c bs).sreg 5 = l ∧
    (sized a n m k l c bs).memSize = 65536 := ⟨rfl, rfl, rfl, rfl, rfl, rfl⟩

/-! In the witnesses below `sized_regs` gives the registers of the state: S1 = a, S2 = n, S3 = m, S4 = k, S5 = l. -/

theorem witness_HashUpdateCommand :
    legalM 3 = true ∧ ((sized 0xFFFFFFFF 0 0 0 0 0 []).sreg 2).toNat = 0 ∧
    (((sized 0xFFFE 2 0 0 0 0xFFFE [0x80, 0x80]).sreg 1).toNat + 2 = 65536 ∧
      Holds (sized 0xFFFE 2 0 0 0 0xFFFE [0x80, 0x80]) 0xFFFE [0x80, 0x80]) ∧
    65536 < ((sized 0xFFFF 2 0 0 0 0 []).sreg 1).toNat + ((sized 0xFFFF 2 0 0 0 0 []).sreg 2).toNat :=
  ⟨by decide, by decide, ⟨by decide, sized_holds _ _ _ _ _ _ _⟩, by decide⟩

theorem witness_EightHbitsEqualOneHupd :
    legalM 3 = true ∧ ((sized 0xFFFF 1 0 0 0 0xFFFF [0x80]).sreg 2).toNat = 1 ∧
    ((sized 0xFFFF 1 0 0 0 0xFFFF [0x80]).sreg 1).toNat + 1 = 65536 ∧
    Holds (sized 0xFFFF 1 0 0 0 0xFFFF [0x80]) 0xFFFF [0x80] :=
  ⟨by decide, by decide, by decide, sized_holds _ _ _ _ _ _ _⟩

/-- Two strings, of one and of two bytes, up to the end of MEM. -/
def adjoining : State := sized 0xFFFD 1 0xFFFE 2 3 0xFFFD ([1] ++ [2, 3])

theorem witness_RepeatedHupdsEqualOne :
    legalM 3 = true ∧ (adjoining.sreg 2).toNat = [(1 : Byte)].length ∧
    (adjoining.sreg 4).toNat = [(2 : Byte), 3].length ∧
    (adjoining.sreg 3).toNat = (adjoining.sreg 1).toNat + [(1 : Byte)].length ∧
    (adjoining.sreg 5).toNat = [(1 : Byte)].length + [(2 : Byte), 3].length ∧
    (adjoining.sreg 1).toNat + [(1 : Byte)].length + [(2 : Byte), 3].length = adjoining.memSize ∧
    Holds adjoining (adjoining.sreg 1).toNat ([1] ++ [2, 3]) :=
  ⟨by decide, by decide, by decide, by decide, by decide, by decide, sized_holds _ _ _ _ _ _ _⟩

theorem witness_HashConcatenateCommand :
    legalM 3 = true ∧
    ([hash80, hash80] ≠ [] ∧ [hash80, hash80].length = (2#32).toNat ∧ (0xFF80#32).toNat + 64 * 2 = 65536 ∧
      Holds (sized 0xFF80 2 0 0 0 0xFF80 ([hash80, hash80].flatMap encM)) 0xFF80 ([hash80, hash80].flatMap encM)) ∧
    ((sized 0xFF80 0 0 0 0 0 []).sreg 2).toNat = 0 ∧
    (7 < 4 * ((sized 0xFF80 2 0 0 0 0xFFF0 [0x80]).sreg 2).toNat ∧
      Holds (sized 0xFF80 2 0 0 0 0xFFF0 [0x80]) (0xFF80 + 16 * 7) [0x80] ∧ (0x80#8).getLsbD 7 = true) ∧
    (((sized 0xFF81 2 0 0 0 0 []).sreg 2).toNat ≠ 0 ∧
      65536 < ((sized 0xFF81 2 0 0 0 0 []).sreg 1).toNat + 64 * ((sized 0xFF81 2 0 0 0 0 []).sreg 2).toNat) :=
  ⟨by decide, ⟨by simp, by decide, by decide, sized_holds _ _ _ _ _ _ _⟩, by decide,
    ⟨by decide, sized_holds _ _ _ _ _ _ _, by decide⟩, by decide⟩

theorem witness_HashValidateCommand :
    ((0xFFC0#32).toNat + 64 = 65536 ∧ (0xFF80#32).toNat + 64 * (2#32).toNat = 65536 ∧
      ((sized 0xFFC0 0xFF80 0 2 0 0 []).sreg 3).toNat = 0) ∧
    (65536 < ((sized 0xFFC1 0 0 0 0 0 []).sreg 1).toNat + 64 ∧
      ((sized 0xFFC0 0xFF81 0 2 0 0 []).sreg 4).toNat ≠ 0 ∧
      65536 < ((sized 0xFFC0 0xFF81 0 2 0 0 []).sreg 2).toNat +
        64 * ((sized 0xFFC0 0xFF81 0 2 0 0 []).sreg 4).toNat) ∧
    ((7 : Reg) ≠ 0#4 ∧ (encM hash80).length = 64 ∧
      Holds (sized 0xFFC0 0xFFC0 1 0 0 0xFFC0 (encM hash80)) 0xFFC0 (encM hash80) ∧
      Holds (sized 0xFFC0 0xFFC0 1 0 0 0xFFC0 (encM hash80)) 0xFFC0 ([hash80].flatMap encM) ∧
      [hash80].length = ((sized 0xFFC0 0xFFC0 1 0 0 0xFFC0 (encM hash80)).sreg 3).toNat) ∧
    (3 < 4 * ((sized 0 0xFFC0 1 0 0 0xFFF0 [0x80]).sreg 3).toNat ∧
      Holds (sized 0 0xFFC0 1 0 0 0xFFF0 [0x80]) (0xFFC0 + 16 * 3) [0x80] ∧ (0x80#8).getLsbD 7 = true) :=
  ⟨by decide, by decide, ⟨by decide, by simp, sized_holds _ _ _ _ _ _ _,
    by simpa using sized_holds 0xFFC0 0xFFC0 1 0 0 0xFFC0 (encM hash80), rfl⟩,
    by decide, sized_holds _ _ _ _ _ _ _, by decide⟩

/-- S1: the combined digest of 80 80; S2: the two digests of 80, up to MEM's end; S4 = 2. -/
def parts (x y : List Byte) : State :=
  (((running.setS 1 0xFF40).setS 2 0xFF80).setS 4 2).storeBytes 0xFF40 (encM (tzHash ([0x80] ++ [0x80])) ++ (x ++ y))

theorem parts_holds (x y : List Byte) :
    Holds (parts x y) 0xFF40 (encM (tzHash ([0x80] ++ [0x80]))) ∧ Holds (parts x y) 0xFF80 (x ++ y) := by
  have h : Holds (parts x y) 0xFF40 (encM (tzHash ([0x80] ++ [0x80])) ++ (x ++ y)) :=
    holds_storeBytes _ _ _ fun _ _ => by simp [running, State.reset]
  simpa using (holds_append _ _ _ _).mp h

theorem witness_PartDigestsCombineAndValidate :
    legalM 3 = true ∧ (7 : Reg) ≠ 0#4 ∧ ((parts (encM (tzHash [0x80])) (encM (tzHash [0x80]))).sreg 4).toNat = 2 ∧
    ((parts (encM (tzHash [0x80])) (encM (tzHash [0x80]))).sreg 1).toNat = 0xFF40 ∧
    ((parts (encM (tzHash [0x80])) (encM (tzHash [0x80]))).sreg 2).toNat + 128 = running.memSize ∧
    Holds (parts (encM (tzHash [0x80])) (encM (tzHash [0x80]))) 0xFF40 (encM (tzHash ([0x80] ++ [0x80]))) ∧
    Holds (parts (encM (tzHash [0x80])) (encM (tzHash [0x80]))) 0xFF80 (encM (tzHash [0x80]) ++ encM (tzHash [0x80])) :=
  ⟨by decide, by decide, by rfl, by rfl, by rfl, parts_holds _ _⟩

theorem zeros_ne_digest : List.replicate 64 (0 : Byte) ≠ encM (tzHash [0x80]) := by decide +kernel

theorem witness_ChangedPartDigestFailsValidation :
    (List.replicate 64 (0 : Byte)).length = 64 ∧ (encM (tzHash [0x80])).length = 64 ∧
    List.replicate 64 (0 : Byte) ≠ encM (tzHash [0x80]) ∧
    Holds (parts (List.replicate 64 0) (encM (tzHash [0x80]))) 0xFF40 (encM (tzHash ([0x80] ++ [0x80]))) ∧
    Holds (parts (List.replicate 64 0) (encM (tzHash [0x80]))) 0xFF80 (List.replicate 64 0 ++ encM (tzHash [0x80])) ∧
    Holds (parts (encM (tzHash [0x80])) (List.replicate 64 0)) 0xFF80 (encM (tzHash [0x80]) ++ List.replicate 64 0) :=
  ⟨rfl, by simp, zeros_ne_digest, (parts_holds _ _).1, (parts_holds _ _).2, (parts_holds _ _).2⟩

theorem hostDue_hostNext (a : HostAccess) (s : State) (h : s.resetInput = false) : HostDue (hostNext a s) a [] :=
  ⟨h, rfl⟩

theorem witness_StartBeginsARun :
    (HostDue (hostNext (.regWrite 0x00 4 3#32) State.reset) (.regWrite 0x00 4 3#32) [] ∧ (3#32).getLsbD 2 = false ∧
      (3#32).getLsbD 0 = true ∧ State.reset.busy = false) ∧
    HostDue (hostNext (.regWrite 0x00 4 3#32) running) (.regWrite 0x00 4 3#32) [] ∧ running.busy = true ∧
    (2#32).getLsbD 0 = false :=
  ⟨⟨hostDue_hostNext _ _ rfl, by decide⟩, hostDue_hostNext _ _ rfl, by decide⟩

theorem witness_SoftResetClearsRegistersAndKeepsMem :
    HostDue (hostNext (.regWrite 0x00 4 7#32) storesAhead) (.regWrite 0x00 4 7#32) [] ∧ (7#32).getLsbD 2 = true ∧
    storesAhead.command = .ok (.sst 1 2 0xFFFC) ∧ storeRange (.sst 1 2 0xFFFC) storesAhead = some (0xFFFC, 4) ∧
    0xFFFC + 4 = storesAhead.memSize ∧ State.reset.busy = false :=
  ⟨hostDue_hostNext _ _ rfl, by decide, by decide, by decide, by decide, rfl⟩

theorem witness_RegisterBlockWrites :
    (HostDue (hostNext (.regWrite 0x04 4 6#32) State.reset) (.regWrite 0x04 4 6#32) [] ∧
      HostDue (hostNext (.regWrite 0x08 4 6#32) State.reset) (.regWrite 0x08 4 6#32) [] ∧ State.reset.busy = false) ∧
    (HostDue (hostNext (.regWrite 0x08 4 6#32) running) (.regWrite 0x08 4 6#32) [] ∧ running.busy = true) ∧
    (HostDue (hostNext (.regWrite 0x0C 4 6#32) running) (.regWrite 0x0C 4 6#32) [] ∧
      HostDue (hostNext (.regWrite 0xFC 4 6#32) running) (.regWrite 0xFC 4 6#32) [] ∧ (0xFC#8).toNat % 4 = 0) :=
  ⟨⟨hostDue_hostNext _ _ rfl, hostDue_hostNext _ _ rfl, rfl⟩, ⟨hostDue_hostNext _ _ rfl, rfl⟩,
    hostDue_hostNext _ _ rfl, hostDue_hostNext _ _ rfl, by decide⟩

theorem witness_RegisterBlockReads :
    (∀ off : BitVec 8, HostDue (hostNext (.regRead off 4) running) (.regRead off 4) []) ∧
    (0x1C#8).toNat % 4 = 0 ∧ (0xFC#8).toNat % 4 = 0 ∧ running.busy = true ∧ State.reset.busy = false ∧
    Config.LegalMemSize running.memSize :=
  ⟨fun _ => hostDue_hostNext _ _ rfl, by decide, by decide, rfl, rfl, witness_inv.memSize⟩

theorem witness_IrqRisesWhenARunEnds :
    (Inv running ∧ running.busy = true ∧ ∃ t, exec .halt running = .next t) ∧
    (running.turns = [] ∧ ∃ t, step running = .next t) ∧
    Inv { running with ie := true, cpc := 2#32, turns := [.engine] } ∧
    stepShows { running with ie := true, cpc := 2#32, turns := [.engine] } (fun t => (t.busy, t.irq)) =
      some (false, true) :=
  ⟨⟨witness_inv, rfl, _, rfl⟩,
    ⟨rfl, by
      show ∃ t, engineTurn running = .next t
      rcases engineTurn_cases running with ⟨i, _, _, _, h⟩ | ⟨c, _, _, _, h⟩ | ⟨_, h⟩
      · rw [h]; exact exec_isNext i _
      · exact ⟨_, h⟩
      · exact ⟨_, h⟩⟩,
    ⟨witness_inv.1, witness_inv.2, witness_inv.3, witness_inv.4, witness_inv.5, witness_inv.6, witness_inv.7,
      witness_inv.8, witness_inv.9⟩, by decide⟩

theorem witness_WindowAccessWhileIdle :
    State.reset.busy = false ∧ 65535 < State.reset.memSize ∧
    HostDue (hostNext (.memWrite 65535 1) State.reset) (.memWrite 65535 1) [] ∧
    HostDue (hostNext (.memRead 65535) (State.reset.storeBytes 65535 [1])) (.memRead 65535) [] ∧
    (State.reset.storeBytes 65535 [1]).memByte? 65535 = some 1 :=
  ⟨rfl, by decide, hostDue_hostNext _ _ rfl, hostDue_hostNext _ _ rfl, by decide⟩

theorem witness_WindowAccessDuringARun :
    running.busy = true ∧ 65535 < running.memSize ∧ HostDue (hostNext (.memWrite 65535 1) running) (.memWrite 65535 1) [] ∧
    HostDue (hostNext (.memRead 0) running) (.memRead 0) [] :=
  ⟨rfl, by decide, hostDue_hostNext _ _ rfl, hostDue_hostNext _ _ rfl⟩

theorem witness_HostAccessesNeverFaultNorReachRegisters :
    HostDue (hostNext (.regWrite 0x00 4 3#32) running) (.regWrite 0x00 4 3#32) [] ∧
    (∃ t, step (hostNext (.regWrite 0x00 4 3#32) running) = .next t) ∧ (3#32).getLsbD 2 = false ∧
    HostDue (hostNext (.memWrite 0 1) { running with err := true }) (.memWrite 0 1) [] :=
  ⟨hostDue_hostNext _ _ rfl, ⟨_, rfl⟩, by decide, hostDue_hostNext _ _ rfl⟩

theorem witness_HostAccessesOutsideTheModel :
    ((0x02#8).toNat % 4 ≠ 0 ∧ HostDue (hostNext (.regRead 0x02 4) running) (.regRead 0x02 4) [] ∧
      HostDue (hostNext (.regWrite 0x02 1 0) running) (.regWrite 0x02 1 0) []) ∧
    running.memSize ≤ 65536 ∧ HostDue (hostNext (.memRead 65536) running) (.memRead 65536) [] ∧
    HostDue (hostNext (.memWrite 65536 1) running) (.memWrite 65536 1) [] :=
  ⟨⟨by decide, hostDue_hostNext _ _ rfl, hostDue_hostNext _ _ rfl⟩, by decide, hostDue_hostNext _ _ rfl,
    hostDue_hostNext _ _ rfl⟩

theorem witness_HardwareReset :
    ({ running with turns := [.assertReset] } : State).turns = .assertReset :: [] ∧
    (running.resetInput = false ∧ ({ running with turns := [.releaseReset] } : State).turns = .releaseReset :: []) ∧
    ({ running with resetInput := true } : State).resetInput = true ∧
    ({ running with resetInput := true } : State).turns = [] ∧
    ({ running with resetInput := true, turns := [.engine] } : State).turns = .engine :: [] ∧
    ({ running with resetInput := true, turns := [.host (.memRead 0)] } : State).turns = .host (.memRead 0) :: [] ∧
    ({ running with resetInput := true, turns := [.releaseReset] } : State).turns = .releaseReset :: [] := by decide

end Sys2Proof.Tests
end

section
/-! PROOF. The invariant (00_scope.md R7; 10_state.md R23, R28, R37; 60_exceptions.md R122, R128): one rule
per operation of the state, then what a command, a turn and a step keep. -/

namespace Sys2Proof.Machine

variable {s t u : State}

/-! ### What a step is -/

/-- Everything one step can do: the turn that is due, with the turns after it left to come (10_state.md R15, R16). -/
theorem step_cases (h : step s = .next t) :
    ∃ ts, engineTurn { s with turns := ts } = .next t ∨ (∃ a, hostTurn a { s with turns := ts } = .next t) ∨
      t = ({ s with turns := ts } : State).assertReset ∨ t = ({ s with turns := ts } : State).releaseReset := by
  obtain ⟨hnil, hengine, hhost, hassert, hrelease⟩ := step_of_turns (s := s)
  cases hts : s.turns with
  | nil => exact ⟨[], .inl (by rw [← h, hnil hts, ← hts])⟩
  | cons turn ts =>
    refine ⟨ts, ?_⟩
    cases turn with
    | engine => exact .inl (by rw [← h, hengine ts hts])
    | host a => exact .inr (.inl ⟨a, by rw [← h, hhost a ts hts]⟩)
    | assertReset => exact .inr (.inr (.inl (Host.Outcome.next.inj (h.symm.trans (hassert ts hts)))))
    | releaseReset => exact .inr (.inr (.inr (Host.Outcome.next.inj (h.symm.trans (hrelease ts hts)))))

/-- Everything a host write to a register can do (10_state.md R26 to R33; 60_exceptions.md R129). -/
theorem State.writeReg_cases (s : State) (off : BitVec 8) (v : Word) :
    s.writeReg off v = s.writeCtrl v ∨ s.writeReg off v = s.writeStatus v ∨
      (s.busy = false ∧ s.writeReg off v = { s with cpc := v }) ∨ s.writeReg off v = s := by
  unfold State.writeReg
  split
  · exact .inl rfl
  · exact .inr (.inl rfl)
  · cases hb : s.busy with
    | false => exact .inr (.inr (.inl ⟨rfl, rfl⟩))
    | true => exact .inr (.inr (.inr rfl))
  · exact .inr (.inr (.inr rfl))

/-- A fault has a cause (60_exceptions.md R122). -/
theorem CauseOf.ne_none {i : Instr} {c : Cause} (h : CauseOf i c) : c ≠ .none := by
  have hown : Cause.none ∉ ownCauses i := by cases i <;> simp [ownCauses]
  rcases h with ⟨-, hc⟩ | ⟨-, rfl⟩
  · exact fun hnone => hown (hnone ▸ hc)
  · simp

/-- Fetch and decode fault with a cause (40_control.md R74; 30_encoding.md R70). -/
theorem State.command_error_ne_none {c : Cause} (h : s.command = .error c) : c ≠ .none := by
  rcases s.command_cases with ⟨i, rest, -, -, hc⟩ | ⟨r, -, -, hc⟩ | ⟨-, hc⟩ <;> rw [hc] at h <;> cases h <;> simp

namespace Inv

/-- A running state has nothing recorded: no DONE, no ERR, no cause, no ERRPC (10_state.md R28;
60_exceptions.md R128). -/
theorem of_busy (h : Inv s) (hb : s.busy = true) :
    s.done = false ∧ s.err = false ∧ s.errCause = .none ∧ s.errPc = 0#32 := by
  obtain ⟨hbd, hbe, -⟩ := h.oneStatus
  exact ⟨by simpa [hb] using hbd, by simpa [hb] using hbe, h.noOldFault (.inl hb)⟩

/-! ### Updates of fields the invariant does not speak of -/

theorem tick (h : Inv s) : Inv s.tick := { h with }
theorem advance (h : Inv s) : Inv s.advance := { h with }
theorem setF (h : Inv s) (r : Reg) (v : Elem) : Inv (s.setF r v) := { h with }
theorem setM (h : Inv s) (k : Reg) (m : Mat) : Inv (s.setM k m) := { h with }
theorem setTurns (h : Inv s) (ts : List Turn) : Inv { s with turns := ts } := { h with }
theorem setHostReply (h : Inv s) (r : Reply) : Inv { s with hostReply := r } := { h with }
theorem setCpc (h : Inv s) (v : Word) : Inv { s with cpc := v } := { h with }
theorem setIe (h : Inv s) (b : Bool) : Inv { s with ie := b } := { h with }
theorem assertReset (h : Inv s) : Inv s.assertReset := { h with }

/-! ### S registers and MEM -/

/-- A write to S0 is discarded, so its storage stays 0 (10_state.md R23). -/
theorem setS (h : Inv s) (r : Reg) (v : Word) : Inv (s.setS r v) := by
  have h0 : (s.setS r v).sregs[0] = 0#32 := by rw [State.setS_storage_zero, h.s0]
  unfold State.setS at h0 ⊢
  split
  · exact h
  · next hr => exact { h with s0 := by rwa [if_neg hr] at h0 }

/-- A store that passed its range check stays inside MEM (20_memory.md R43). -/
theorem storeBytes (h : Inv s) {a : Nat} {bs : List Byte} (hr : s.InRange a bs.length) : Inv (s.storeBytes a bs) :=
  { h with
    memWf := Memory.wf_writeBytes bs s.mem a h.memWf
    memInside := by
      intro c hc
      rcases Memory.mem_writeBytes bs s.mem a hc with hin | hold
      · show c.1 < s.memSize
        rcases hr with hz | hr <;> omega
      · exact h.memInside c hold }

theorem tear (h : Inv s) {a n : Nat} (hr : s.InRange a n) : Inv (s.tear a n) :=
  h.storeBytes (by simpa using hr)

/-- A host write of a byte of MEM: during a run it marks the byte, while idle it sets it (20_memory.md R58). -/
theorem windowWrite (h : Inv s) {i : Nat} (hi : i < s.memSize) (b : Byte) : Inv (s.windowWrite i b) := by
  unfold State.windowWrite
  split
  · exact { h with
      unstableRising := insertAddr_rising _ _ h.unstableRising
      unstableInside := by
        intro k hk
        rcases (mem_insertAddr _ _ _).mp hk with rfl | hk
        · exact hi
        · exact h.unstableInside k hk }
  · exact { h with
      memWf := Memory.wf_write _ _ _ h.memWf
      memInside := by
        intro c hc
        rcases Memory.mem_write _ _ _ hc with hnew | hold
        · exact hnew ▸ hi
        · exact h.memInside c hold
      unstableRising := removeAddr_rising _ _ h.unstableRising
      unstableInside := fun k hk => h.unstableInside k ((mem_removeAddr _ _ _).mp hk).1 }

/-! ### The run status -/

/-- A fault ends a run, and only a run: ERR takes the place of BUSY (60_exceptions.md R125). -/
theorem takeFault (h : Inv s) (hb : s.busy = true) {c : Cause} (hc : c ≠ .none) : Inv (s.takeFault c) := by
  obtain ⟨hdone, -, -, -⟩ := h.of_busy hb
  exact { h with
    oneStatus := by simp [hdone]
    noOldFault := by simp [hdone]
    errHasCause := fun _ => hc }

/-- HALT ends a run: DONE takes the place of BUSY (40_control.md R77). -/
theorem halted (h : Inv s) (hb : s.busy = true) : Inv s.halted := by
  obtain ⟨-, herr, hcause, hpc⟩ := h.of_busy hb
  exact { h with
    oneStatus := by simp [herr]
    noOldFault := fun _ => ⟨hcause, hpc⟩
    errHasCause := by simp [herr] }

/-- START begins a run with nothing recorded (70_reset_and_hazards.md R139). -/
theorem started (h : Inv s) : Inv s.started :=
  { h with
    oneStatus := by simp
    noOldFault := by simp
    errHasCause := by simp }

/-- A write to STATUS can only clear DONE and ERR (10_state.md R28). -/
theorem writeStatus (h : Inv s) (v : Word) : Inv (s.writeStatus v) := by
  have hdone : (s.writeStatus v).done = true → s.done = true := by simp +contextual
  have herr : (s.writeStatus v).err = true → s.err = true := by simp +contextual
  obtain ⟨hbd, hbe, hde⟩ := h.oneStatus
  exact { h with
    oneStatus := ⟨fun ⟨b, d⟩ => hbd ⟨b, hdone d⟩, fun ⟨b, e⟩ => hbe ⟨b, herr e⟩,
      fun ⟨d, e⟩ => hde ⟨hdone d, herr e⟩⟩
    noOldFault := fun hs => h.noOldFault (hs.imp_right hdone)
    errHasCause := fun e => h.errHasCause (herr e) }

/-! ### Resets -/

theorem clearRegisters (h : Inv s) : Inv s.clearRegisters :=
  { h with
    s0 := by simp
    oneStatus := by simp
    noOldFault := by simp
    errHasCause := by simp }

/-- The release of the reset input empties MEM's list and keeps MEM_SIZE (70_reset_and_hazards.md R137). -/
theorem hardwareReset (h : Inv s) : Inv s.hardwareReset :=
  { h.clearRegisters with
    memWf := List.Pairwise.nil
    memInside := by simp }

theorem releaseReset (h : Inv s) : Inv s.releaseReset := by
  unfold State.releaseReset
  split
  · exact h.hardwareReset
  · exact h

theorem softReset (h : Inv s) : Inv s.softReset := by
  rcases s.softReset_cases with he | ⟨a, n, -, hr, he⟩ <;> rw [he]
  · exact h.clearRegisters
  · exact (h.tear hr).clearRegisters

/-! ### Host writes -/

theorem writeCtrl (h : Inv s) (v : Word) : Inv (s.writeCtrl v) := by
  rcases s.writeCtrl_cases v with ⟨-, he⟩ | ⟨-, -, -, he⟩ | ⟨-, -, he⟩ <;> rw [he]
  · exact h.softReset
  · exact (h.setIe _).started
  · exact h.setIe _

theorem writeReg (h : Inv s) (off : BitVec 8) (v : Word) : Inv (s.writeReg off v) := by
  rcases s.writeReg_cases off v with he | he | ⟨-, he⟩ | he <;> rw [he]
  · exact h.writeCtrl v
  · exact h.writeStatus v
  · exact h.setCpc v
  · exact h

/-! ### Commands, turns and steps -/

/-- What a command that goes on may do to the state keeps the invariant. -/
theorem effect {i : Instr} (h : Inv s) (he : Effect s i u) : Inv u := by
  cases he with
  | nothing _ => exact h
  | writesF r v _ => exact h.setF r v
  | writesS r v _ => exact h.setS r v
  | writesM k m _ _ => exact h.setM k m
  | writesMem a bs _ hr => exact h.storeBytes (.inr hr)

/-- A command executed during a run keeps the invariant, however it ends. -/
theorem of_exec {i : Instr} (h : Inv s) (hb : s.busy = true) (he : exec i s = .next t) : Inv t := by
  rcases exec_cases he with ⟨-, rfl⟩ | ⟨-, u, hu, rfl⟩ | ⟨c, hc, rfl⟩
  · exact (h.halted hb).advance.tick
  · exact (h.effect hu).advance.tick
  · exact (h.takeFault hb hc.ne_none).tick

theorem of_engineTurn (h : Inv s) (he : engineTurn s = .next t) : Inv t := by
  rcases engineTurn_cases s with ⟨i, hb, -, -, hx⟩ | ⟨c, hb, -, hc, hx⟩ | ⟨-, hx⟩
  · exact h.of_exec hb (hx ▸ he)
  · cases hx.symm.trans he
    exact (h.takeFault hb (State.command_error_ne_none hc)).tick
  · cases hx.symm.trans he
    exact h

theorem of_hostTurn {a : HostAccess} (h : Inv s) (he : hostTurn a s = .next t) : Inv t := by
  rcases hostTurn_next he with
    ⟨-, rfl⟩ | ⟨-, ⟨off, -, -, rfl⟩ | ⟨off, v, -, -, rfl⟩ | ⟨i, -, -, rfl⟩ | ⟨i, b, -, hi, rfl⟩⟩
  · exact h
  · exact (h.setHostReply _).tick
  · exact (h.writeReg off v).tick
  · exact (h.setHostReply _).tick
  · exact (h.windowWrite hi b).tick

theorem of_step (h : Inv s) (hs : step s = .next t) : Inv t := by
  obtain ⟨ts, he | ⟨a, he⟩ | rfl | rfl⟩ := step_cases hs
  · exact (h.setTurns ts).of_engineTurn he
  · exact (h.setTurns ts).of_hostTurn he
  · exact (h.setTurns ts).assertReset
  · exact (h.setTurns ts).releaseReset

end Inv

/-- Settles O13: each turn a step can take keeps the invariant. -/
theorem everyStepKeepsTheInvariant : Obligations.EveryStepKeepsTheInvariant :=
  fun _ _ hinv hstep => hinv.of_step hstep

end Sys2Proof.Machine
end

section
/-! PROOF. The element codec (00_scope.md R13; 20_memory.md R45): the bytes of a big-endian string, and
what its top bit says of its value. -/

namespace Sys2Proof.Machine

/-! ### Bytes of a big-endian string -/

/-- Byte `k` of `be_n(v)` is the digit of weight `256^(n-1-k)` (00_scope.md R10). -/
theorem getElem_beBytes (n v : Nat) : ∀ (k : Nat) (hk : k < (beBytes n v).length),
    (beBytes n v)[k] = BitVec.ofNat 8 (v / 256 ^ (n - 1 - k)) := by
  induction n with
  | zero => intro k hk; simp at hk
  | succ n ih =>
    intro k hk
    cases k with
    | zero => simp [beBytes]
    | succ k =>
      have hk' : k < (beBytes n v).length := by simpa using hk
      have he : n + 1 - 1 - (k + 1) = n - 1 - k := by omega
      rw [he, ← ih k hk']
      rfl

/-- The top bit of a byte string says whether its value is at least half of the range (00_scope.md R13). -/
theorem topBit_eq_decide {bs : List Byte} {n : Nat} (hn : bs.length = n + 1) :
    topBit bs = decide (128 * 256 ^ n ≤ be bs) := by
  cases bs with
  | nil => simp at hn
  | cons b bs =>
    have hl : bs.length = n := by simpa using hn
    have hlt : be bs < 256 ^ n := hl ▸ be_lt bs
    have hb : topBit (b :: bs) = decide (128 ≤ b.toNat) := BitVec.msb_eq_decide b
    rw [hb, be_cons, hl, decide_eq_decide]
    constructor
    · intro h
      nlinarith
    · intro h
      by_contra hc
      nlinarith [Nat.mul_le_mul_right (256 ^ n) (show b.toNat + 1 ≤ 128 by omega)]

/-- On 16 bytes the top bit is bit 127 of the value. -/
theorem topBit_eq_false_iff {bs : List Byte} (hl : bs.length = 16) : topBit bs = false ↔ be bs < 2 ^ 127 := by
  rw [topBit_eq_decide hl, decide_eq_false_iff_not, not_le]
  norm_num

/-! ### DecF and EncF -/

theorem decF_of_topBit {bs : List Byte} (h : topBit bs = true) : decF bs = none := if_pos h

theorem decF_of_not_topBit {bs : List Byte} (h : topBit bs = false) : decF bs = some (BitVec.ofNat 127 (be bs)) :=
  if_neg (by simp [h])

/-- The encoding has the element's value. -/
theorem be_encF (e : Elem) : be (encF e) = e.toNat := by
  rw [encF, be_beBytes, Nat.mod_eq_of_lt (by have := e.isLt; omega)]

theorem topBit_encF (e : Elem) : topBit (encF e) = false := by
  rw [topBit_eq_false_iff (encF_length e), be_encF]
  exact e.isLt

/-- `DecF(EncF(e)) = e` (00_scope.md R13). -/
theorem decF_encF (e : Elem) : decF (encF e) = some e := by
  rw [decF_of_not_topBit (topBit_encF e), be_encF, BitVec.ofNat_toNat, BitVec.setWidth_eq]

/-- What DecF accepts is the encoding of what it gives (00_scope.md R13). -/
theorem encF_of_be {bs : List Byte} (hl : bs.length = 16) (h : topBit bs = false) :
    encF (BitVec.ofNat 127 (be bs)) = bs := by
  have hlt : be bs < 2 ^ 127 := (topBit_eq_false_iff hl).mp h
  rw [encF, BitVec.toNat_ofNat, Nat.mod_eq_of_lt hlt, ← hl, beBytes_be]

/-- Byte `k` of the encoding is bits 127-8k..120-8k of the element, bit 127 being 0 (20_memory.md R45). -/
theorem getElem_encF (e : Elem) (k : Nat) (hk : k < 16) :
    (encF e)[k]'(by simpa using hk) = (0#1 ++ e).extractLsb' (120 - 8 * k) 8 := by
  have hw : (256 : Nat) ^ (16 - 1 - k) = 2 ^ (120 - 8 * k) := by
    rw [show 120 - 8 * k = 8 * (16 - 1 - k) by omega, Nat.pow_mul]
  have hv : (0#1 ++ e).toNat = e.toNat := by
    rw [BitVec.toNat_append, BitVec.toNat_ofNat, Nat.zero_mod, Nat.zero_shiftLeft, Nat.zero_or]
  simp only [encF, getElem_beBytes, BitVec.extractLsb', hv, hw, Nat.shiftRight_eq_div_pow]

/-- Settles O31: the three clauses are `decF_encF` with `getElem_encF`, `encF_of_be` and `decF_of_topBit`. -/
theorem elementCodec : Obligations.ElementCodec := by
  refine ⟨fun e => ⟨encF_length e, decF_encF e, getElem_encF e⟩, fun bs hl h => ?_, fun bs _ h => decF_of_topBit h⟩
  exact ⟨_, decF_of_not_topBit h, encF_of_be hl h⟩

end Sys2Proof.Machine
end

section
/-! PROOF. Reset (10_state.md R40) and the scalar register S0 (10_state.md R23). -/

namespace Sys2Proof.Machine

variable {s t u : State}

/-! ### The reset state -/

theorem State.reset_freg (r : Reg) : State.reset.freg r = ZERO := by
  simp [State.freg, State.reset, ZERO]

theorem State.reset_sreg (r : Reg) : State.reset.sreg r = 0#32 := by
  simp [State.sreg, State.reset]

theorem State.reset_mreg (k : Reg) : State.reset.mreg k = ⟨ZERO, ZERO, ZERO, ZERO⟩ := by
  simp [State.mreg, State.reset_freg]

/-- The machine starts in the invariant: MEM_SIZE is the legal default, MEM lists no byte, and no run has left
a status behind (00_scope.md R7; 10_state.md R40). -/
theorem inv_reset : Inv State.reset where
  memSize := ⟨4, by decide, rfl⟩
  memWf := List.Pairwise.nil
  memInside := by simp [State.reset]
  unstableRising := List.Pairwise.nil
  unstableInside := by simp [State.reset]
  s0 := rfl
  oneStatus := by simp [State.reset]
  noOldFault := by simp [State.reset]
  errHasCause := by simp [State.reset]

/-- Settles O14: `inv_reset`, the register views above, and what each remaining register reads. -/
theorem resetStateHasItsValuesAndTheInvariant : Obligations.ResetStateHasItsValuesAndTheInvariant :=
  ⟨inv_reset, State.reset_freg, State.reset_sreg, State.reset_mreg, rfl, rfl, rfl, rfl, rfl, rfl, rfl, fun _ => rfl⟩

/-! ### S0 -/

/-- The effective address is the base plus the signed displacement, modulo 2^32 (20_memory.md R44). -/
theorem State.ea_eq_emod (s : State) (rb : Reg) (imm : Imm) :
    (s.ea rb imm : Int) = ((s.sreg rb).toNat + imm.toInt) % 2 ^ 32 := by
  have hsext : ((sext32 imm).toNat : Int) = imm.toInt % 2 ^ 32 := by
    have hlt := (sext32 imm).isLt
    rw [← BitVec.toInt_signExtend_of_le (show 16 ≤ 32 by decide) (x := imm), ← sext32, BitVec.toInt_eq_toNat_bmod,
      show (2 : Int) ^ 32 = ((2 ^ 32 : Nat) : Int) by norm_num, Int.bmod_emod]
    omega
  rw [State.ea, BitVec.toNat_add, Int.natCast_emod, Int.natCast_add, hsext]
  simp

/-- No effect of a command reaches S0's storage (10_state.md R23). -/
theorem Effect.storage_zero {i : Instr} (h : Effect s i u) : u.sregs[0] = s.sregs[0] := by
  cases h with
  | nothing _ => rfl
  | writesF r v _ => rfl
  | writesS r v _ => exact s.setS_storage_zero r v
  | writesM k m _ _ => rfl
  | writesMem a bs _ _ => rfl

/-- However a command ends, S0's storage is as it was. -/
theorem exec_storage_zero {i : Instr} (h : exec i s = .next t) : t.sregs[0] = s.sregs[0] := by
  rcases exec_cases h with ⟨-, rfl⟩ | ⟨-, u, hu, rfl⟩ | ⟨c, -, rfl⟩
  · rfl
  · exact hu.storage_zero
  · rfl

/-- Settles O24: S0's reads do not look at its storage (`State.sreg_zero`), no command writes that
(`exec_storage_zero`), and a base of 0 leaves the displacement (`State.ea_eq_emod`). -/
theorem scalarZeroIsNeverWritten : Obligations.ScalarZeroIsNeverWritten := by
  intro i s t h
  refine ⟨s.sreg_zero, t.sreg_zero, exec_storage_zero h, fun imm => ?_⟩
  simpa using s.ea_eq_emod 0#4 imm

end Sys2Proof.Machine
end

section
/-! PROOF. How a command ends, and IRQ (10_state.md R35; 60_exceptions.md R125, R130). -/

namespace Sys2Proof.Machine

variable {s t u : State}

/-! ### The three ends of a command -/

theorem State.halted_haltedFrom (s : State) : HaltedFrom s s.halted.advance.tick where
  ie := rfl
  memSize := rfl
  unstable := rfl
  resetInput := rfl
  hostReply := rfl
  memEpoch := rfl
  turns := rfl
  cpc := rfl
  busy := rfl
  done := rfl
  err := rfl
  errCause := rfl
  errPc := rfl
  fregs := fun _ => rfl
  sregs := fun _ => rfl
  mem := fun _ => rfl

/-- Every effect but HALT's, with the advance of CPC, completes the command and lets the run go on. -/
theorem Effect.completed {i : Instr} (h : Effect s i u) : Completed s u.advance.tick := by
  cases h with
  | nothing _ => exact State.advance_completed ⟨rfl, rfl, rfl, rfl, rfl, rfl, rfl⟩ rfl rfl rfl rfl rfl rfl
  | writesF r v _ => exact completed_setF s r v
  | writesS r v _ => exact completed_setS s r v
  | writesM k m _ _ => exact completed_setM s k m
  | writesMem a bs _ _ => exact completed_storeBytes s a bs

/-! ### IRQ at each end -/

theorem State.irq_of_done (h : s.done = true) : s.irq = s.ie := by simp [State.irq, h]

theorem State.irq_of_err (h : s.err = true) : s.irq = s.ie := by simp [State.irq, h]

/-- IRQ is low during a run: DONE and ERR are 0 then (10_state.md R28, R35). -/
theorem Inv.irq_of_busy (h : Inv s) (hb : s.busy = true) : s.irq = false := by
  obtain ⟨hdone, herr, -, -⟩ := h.of_busy hb
  simp [State.irq, hdone, herr]

/-- `t` ends the run of `s` with IRQ equal to IE, or is in a run, with IRQ low. -/
def IrqFollows (s t : State) : Prop := t.irq = true ↔ t.busy = false ∧ s.ie = true

theorem HaltedFrom.irqFollows (h : HaltedFrom s t) : IrqFollows s t := by
  rw [IrqFollows, State.irq_of_done h.done, h.ie]
  simp [h.busy]

theorem Faulted.irqFollows {c : Cause} (h : Faulted s t c) : IrqFollows s t := by
  rw [IrqFollows, State.irq_of_err h.err, h.ie]
  simp [h.busy]

/-- While the run goes on IRQ stays low. -/
theorem Inv.irqFollows_of_busy (h : Inv t) (hb : t.busy = true) : IrqFollows s t := by
  simp [IrqFollows, h.irq_of_busy hb, hb]

theorem Inv.irqFollows_of_exec {i : Instr} (h : Inv s) (hb : s.busy = true) (he : exec i s = .next t) :
    IrqFollows s t := by
  rcases exec_cases he with ⟨-, rfl⟩ | ⟨-, u, hu, rfl⟩ | ⟨c, -, rfl⟩
  · exact s.halted_haltedFrom.irqFollows
  · exact (h.of_exec hb he).irqFollows_of_busy (hu.completed.busy.trans hb)
  · exact (s.takeFault_faulted c).irqFollows

theorem Inv.irqFollows_of_engineTurn (h : Inv s) (hb : s.busy = true) (he : engineTurn s = .next t) :
    IrqFollows s t := by
  rcases engineTurn_cases s with ⟨i, -, -, -, hx⟩ | ⟨c, -, -, -, hx⟩ | ⟨-, hx⟩
  · exact h.irqFollows_of_exec hb (hx ▸ he)
  · cases hx.symm.trans he
    exact (s.takeFault_faulted c).irqFollows
  · cases hx.symm.trans he
    exact h.irqFollows_of_busy hb

/-- Settles O55: an engine turn ends the run with DONE or ERR, or leaves it going. -/
theorem irqRisesWhenARunEnds : Obligations.IrqRisesWhenARunEnds := by
  intro s h hb
  obtain ⟨hnil, hengine, -⟩ := step_of_turns (s := s)
  refine ⟨h.irq_of_busy hb, fun t hturn he => ?_, fun i t he => h.irqFollows_of_exec hb he⟩
  rcases hturn with hts | ⟨ts, hts⟩
  · exact h.irqFollows_of_engineTurn hb (hnil hts ▸ he)
  · exact (h.setTurns ts).irqFollows_of_engineTurn hb (hengine ts hts ▸ he)

end Sys2Proof.Machine
end

section
/-! PROOF. The matrix registers (10_state.md R19, R21), and `tzbit` as the product with the bit's generator
(43_tzhash.md R111, R118): multiplication by x and x + 1 bit by bit, and `fmul` by the generators' entries. -/

namespace Sys2Proof.Machine

/-! ### Multiplication by x, bit by bit -/

theorem getLsbD_join (h l : BitVec 64) {i : Nat} (hi : i < 127) :
    (join h l).getLsbD i = if i < 64 then l.getLsbD i else h.getLsbD (i - 64) := by
  rw [join, BitVec.getLsbD_setWidth, BitVec.getLsbD_append]
  simp [hi]

theorem getLsbD_lo (e : Elem) (i : Nat) : (lo e).getLsbD i = (decide (i < 64) && e.getLsbD i) := by
  simp [lo]

theorem getLsbD_hi (e : Elem) (i : Nat) : (hi e).getLsbD i = (decide (i < 64) && e.getLsbD (64 + i)) := by
  simp [hi]

/-- The coefficient of x^127, bit 63 of `h`, is added at x^63 and at 1 (41_gf127.md R88). -/
theorem getLsbD_reduceTop (h l : BitVec 64) {i : Nat} (hi : i < 127) :
    (reduceTop h l).getLsbD i =
      ((if i < 64 then l.getLsbD i else h.getLsbD (i - 64)) ^^
        ((decide (i = 0) || decide (i = 63)) && h.getLsbD 63)) := by
  have hm : (0x8000000000000000#64) = BitVec.twoPow 64 63 := by decide
  have hn : (0x7FFFFFFFFFFFFFFF#64) = ~~~BitVec.twoPow 64 63 := by decide
  rw [reduceTop, getLsbD_join _ _ hi, hm, hn]
  by_cases hlo : i < 64
  · by_cases h63 : i = 63
    · subst h63; simp
    · by_cases hz : i = 0
      · subst hz; simp
      · simp [BitVec.getLsbD_twoPow, hlo, h63, hz]
  · have h63 : i - 64 ≠ 63 := by omega
    have hz : i ≠ 0 := by omega
    have h63' : i ≠ 63 := by omega
    have hlt : i - 64 < 64 := by omega
    simp [hlo, h63, hz, h63', hlt]

/-- `fmulx1(e) = fmulx(e) + e`: the reduction is linear and leaves an element alone (41_gf127.md R89). -/
theorem fmulx1_eq_fmulx_xor (e : Elem) : fmulx1 e = fmulx e ^^^ e := by
  refine BitVec.eq_of_getLsbD_eq fun i hi => ?_
  have htop : e.getLsbD 127 = false := BitVec.getLsbD_of_ge e 127 (le_refl _)
  rw [BitVec.getLsbD_xor, fmulx, fmulx1, getLsbD_reduceTop _ _ hi, getLsbD_reduceTop _ _ hi]
  simp only [BitVec.getLsbD_xor, getLsbD_lo, getLsbD_hi, htop, Bool.and_false, Bool.xor_false]
  by_cases hlo : i < 64
  · simp only [hlo, if_true, decide_true, Bool.true_and, Bool.xor_assoc, Bool.xor_comm (e.getLsbD i)]
  · have h64 : 64 + (i - 64) = i := by omega
    have hlt : i - 64 < 64 := by omega
    simp only [hlo, hlt, if_false, h64, decide_true, Bool.true_and, Bool.xor_assoc, Bool.xor_comm (e.getLsbD i)]

/-! ### `fmul` by an element of small degree -/

/-- The rounds for the 0 bits of `b` leave the accumulator (41_gf127.md R90). -/
theorem fmulUpTo_fst_of_zero_bits (a b : Elem) (n : Nat) (hb : ∀ k, n ≤ k → b.getLsbD k = false)
    (m : Nat) : (fmulUpTo a b (n + m)).1 = (fmulUpTo a b n).1 := by
  induction m with
  | zero => rfl
  | succ m ih =>
    rw [← ih]
    simp [fmulUpTo, hb (n + m) (by omega)]

/-- Only the rounds up to the degree of `b` count. -/
theorem fmul_eq_fmulUpTo (a b : Elem) {n : Nat} (hn : n ≤ 127) (hb : b.toNat < 2 ^ n) :
    fmul a b = (fmulUpTo a b n).1 := by
  have hzero : ∀ k, n ≤ k → b.getLsbD k = false := fun k hk =>
    Nat.testBit_lt_two_pow (hb.trans_le (Nat.pow_le_pow_right (by decide) hk))
  have h := fmulUpTo_fst_of_zero_bits a b n hzero (127 - n)
  rwa [Nat.add_sub_cancel' hn] at h

theorem fmul_by_zero (a : Elem) : fmul a 0x0#127 = ZERO := fmul_eq_fmulUpTo a _ (n := 0) (by decide) (by decide)

theorem fmul_by_one (a : Elem) : fmul a 0x1#127 = a := by
  rw [fmul_eq_fmulUpTo a _ (n := 1) (by decide) (by decide)]
  simp [fmulUpTo, ZERO]

theorem fmul_by_x (a : Elem) : fmul a 0x2#127 = fmulx a := by
  rw [fmul_eq_fmulUpTo a _ (n := 2) (by decide) (by decide)]
  simp [fmulUpTo, ZERO]

theorem fmul_by_x_add_one (a : Elem) : fmul a 0x3#127 = fmulx1 a := by
  rw [fmul_eq_fmulUpTo a _ (n := 2) (by decide) (by decide), fmulx1_eq_fmulx_xor, BitVec.xor_comm]
  simp [fmulUpTo, ZERO]

/-- One message bit is one product with the bit's generator, on the right (43_tzhash.md R111). -/
theorem tzbit_eq_mmul (m : Mat) (bit : Bool) : tzbit m bit = mmul m (if bit then G1 else G0) := by
  cases bit with
  | false => simp [tzbit, mmul, G0, fmul_by_zero, fmul_by_one, fmul_by_x, ZERO]
  | true => simp [tzbit, mmul, G1, fmul_by_one, fmul_by_x, fmul_by_x_add_one]

/-! ### The view M[k] -/

theorem mElem_eq_ofNat (k j : Reg) (hk : legalM k = true) (hj : legalM j = true) :
    mElem k j = BitVec.ofNat 4 (4 * k.toNat + j.toNat) := by
  rw [← mElem_toNat k j hk hj, BitVec.ofNat_toNat, BitVec.setWidth_eq]

theorem State.viewsF (s : State) {k : Reg} (hk : legalM k = true) : ViewsF s k := by
  have h (j : Reg) (hj : legalM j = true) : s.freg (mElem k j) = s.freg (BitVec.ofNat 4 (4 * k.toNat + j.toNat)) :=
    congrArg s.freg (mElem_eq_ofNat k j hk hj)
  exact ⟨h 0#4 rfl, h 1#4 rfl, h 2#4 rfl, h 3#4 rfl⟩

/-! ### A command that writes M[k] -/

/-- The F registers outside M[k] are none of the four `mElem k j`. -/
theorem sameFOutsideM_setM (s : State) {k : Reg} (hk : legalM k = true) (m : Mat) :
    SameFOutsideM s (s.setM k m).advance.tick k := by
  intro r hr
  have hne (j : Reg) (hj : legalM j = true) : r ≠ mElem k j := by
    rintro rfl
    rw [mElem_toNat k j hk hj] at hr
    simp only [legalM, decide_eq_true_eq] at hj
    omega
  simp [State.freg_setM s k r m hk, hne 0#4 rfl, hne 1#4 rfl, hne 2#4 rfl, hne 3#4 rfl]

/-- `t` is the end of a command begun in `s` that wrote `m` to M[k], and nothing else. -/
structure WroteM (s t : State) (k : Reg) (m : Mat) : Prop where
  completed : Completed s t
  sregs : SameS s t
  mem : SameMem s t
  fregs : SameFOutsideM s t k
  value : t.mreg k = m

theorem wroteM_setM (s : State) {k : Reg} (hk : legalM k = true) (m : Mat) :
    WroteM s (s.setM k m).advance.tick k m where
  completed := completed_setM s k m
  sregs := fun _ => rfl
  mem := fun _ => rfl
  fregs := sameFOutsideM_setM s hk m
  value := by simp [State.mreg_setM s k k m hk hk]

/-- With legal M fields a command goes on as its rule says (30_encoding.md R66). -/
theorem settle_guardM {ms : List Reg} (s u : State) (h : ms.all legalM = true) :
    s.settle (guardM ms (.ok u)) = .next u.advance.tick := by
  rw [guardM_pos h, State.settle, State.settled_ok]

theorem exec_mmul_wroteM (s : State) {md ma mb : Reg} (hd : legalM md = true) (ha : legalM ma = true)
    (hb : legalM mb = true) :
    ∃ t, exec (.mmul md ma mb) s = .next t ∧ WroteM s t md (mmul (s.mreg ma) (s.mreg mb)) :=
  ⟨_, settle_guardM s _ (by simp [hd, ha, hb]), wroteM_setM s hd _⟩

theorem exec_mid_wroteM (s : State) {md : Reg} (hd : legalM md = true) :
    ∃ t, exec (.mid md) s = .next t ∧ WroteM s t md IDENTITY :=
  ⟨_, settle_guardM s _ (by simp [hd]), wroteM_setM s hd _⟩

theorem exec_hbit_wroteM (s : State) {md : Reg} (b : Bool) (hd : legalM md = true) :
    ∃ t, exec (.hbit md b) s = .next t ∧ WroteM s t md (mmul (s.mreg md) (if b then G1 else G0)) :=
  ⟨_, settle_guardM s _ (by simp [hd]), tzbit_eq_mmul (s.mreg md) b ▸ wroteM_setM s hd _⟩

/-- The four F registers of a written M[k], in the order a, b, c, d (10_state.md R19). -/
theorem WroteM.freg_eq {s t : State} {k : Reg} {m : Mat} (h : WroteM s t k m) (hk : legalM k = true) :
    t.freg (BitVec.ofNat 4 (4 * k.toNat)) = m.a ∧ t.freg (BitVec.ofNat 4 (4 * k.toNat + 1)) = m.b ∧
      t.freg (BitVec.ofNat 4 (4 * k.toNat + 2)) = m.c ∧ t.freg (BitVec.ofNat 4 (4 * k.toNat + 3)) = m.d := by
  obtain ⟨ha, hb, hc, hd⟩ := t.viewsF hk
  rw [← ha, ← hb, ← hc, ← hd, h.value]
  exact ⟨rfl, rfl, rfl, rfl⟩

/-- Settles O37: each command is a write of one matrix (`WroteM`), read through the view of R19. -/
theorem matrixRegisterCommands : Obligations.MatrixRegisterCommands := by
  refine ⟨fun s k hk => s.viewsF hk, fun s md ma mb b hd => ⟨fun ha hb => ?_, ?_, ?_⟩⟩
  · obtain ⟨t, ht, hw⟩ := exec_mmul_wroteM s hd ha hb
    exact ⟨t, ht, hw.completed, hw.sregs, hw.mem, hw.fregs, hw.value, hw.freg_eq hd⟩
  · obtain ⟨t, ht, hw⟩ := exec_mid_wroteM s hd
    exact ⟨t, ht, hw.completed, hw.sregs, hw.mem, hw.fregs, hw.value, hw.freg_eq hd⟩
  · obtain ⟨t, ht, hw⟩ := exec_hbit_wroteM s b hd
    exact ⟨t, ht, hw.completed, hw.sregs, hw.mem, hw.fregs, hw.value⟩

end Sys2Proof.Machine
end

section
/-! PROOF. The host register block (10_state.md R26 to R36; 60_exceptions.md R129): what a read returns and
what a write leaves, offset by offset. -/

namespace Sys2Proof.Machine

variable {s t : State}

/-! ### Reads -/

theorem State.ctrlWord_eq (s : State) : s.ctrlWord = if s.ie then 2#32 else 0#32 := by
  unfold State.ctrlWord
  cases s.ie <;> rfl

theorem State.statusWord_toNat (s : State) :
    s.statusWord.toNat = s.busy.toNat + 2 * s.done.toNat + 4 * s.err.toNat := by
  unfold State.statusWord
  cases s.busy <;> cases s.done <;> cases s.err <;> rfl

/-- A read of CPC returns it while idle, and during a run it or the next command's address (10_state.md R29). -/
theorem State.cpcRead_cases (s : State) : s.cpcRead = s.cpc ∨ s.busy = true ∧ s.cpcRead = s.cpc + 4#32 := by
  unfold State.cpcRead
  split
  · next h => exact .inr ⟨(Bool.and_eq_true_iff.mp h).1, rfl⟩
  · exact .inl rfl

theorem Cause.code_toNat (c : Cause) : (c.code.setWidth 32).toNat = match c with
    | .none => 0 | .illegalCmd => 1 | .fetchFault => 2 | .memRange => 3 | .invalidInput => 4 | .divZero => 5 := by
  cases c <;> rfl

/-- A legal MEM_SIZE fits the MEMSIZE register (00_scope.md R7; 10_state.md R33). -/
theorem legalMemSize_lt {n : Nat} (h : Config.LegalMemSize n) : n < 2 ^ 32 := by
  obtain ⟨k, hk, rfl⟩ := h
  exact Nat.pow_lt_pow_right (by decide) (by omega)

/-- Reserved offsets read 0 (10_state.md R26). -/
theorem State.regValue_reserved (s : State) {off : BitVec 8} (ho : off.toNat % 4 = 0) (h : 0x1C ≤ off.toNat) :
    s.regValue off = 0#32 := by
  unfold State.regValue
  split
  case h_8 => rfl
  all_goals omega

/-- A host turn that sets the reply and no more leaves the whole block. -/
theorem sameBlock_reply (s : State) (ts : List Turn) (r : Reply) :
    SameBlock s ({ s with turns := ts, hostReply := r } : State).tick :=
  ⟨fun _ => rfl, fun _ => rfl, rfl, rfl, rfl, rfl, rfl, rfl, rfl, rfl, fun _ => rfl, rfl, rfl⟩

/-- Settles O54: the register of each offset, by the equations above. -/
theorem registerBlockReads : Obligations.RegisterBlockReads := by
  intro s off ts hdue ho
  refine ⟨_, _, step_regRead hdue ho, rfl, sameBlock_reply s ts _, rfl,
    ?ctrl, ?status, ?cpcIdle, ?cpcRunning, ?errCause, ?errPc, ?ident, ?memSize, ?reserved⟩
  case ctrl => rintro rfl; exact s.ctrlWord_eq
  case status => rintro rfl; exact s.statusWord_toNat
  case cpcIdle =>
    rintro rfl hb
    exact (State.cpcRead_cases _).resolve_right fun ⟨hbusy, _⟩ => Bool.false_ne_true (hb.symm.trans hbusy)
  case cpcRunning => rintro rfl -; exact (State.cpcRead_cases _).imp_right And.right
  case errCause => rintro rfl; exact s.errCause.code_toNat
  case errPc => rintro rfl; rfl
  case ident => rintro rfl; rfl
  case memSize =>
    rintro rfl hlegal
    exact Nat.mod_eq_of_lt (legalMemSize_lt hlegal)
  case reserved => exact State.regValue_reserved _ ho

/-! ### Writes -/

/-- What a host write does at each offset; CTRL is at 0x00, STATUS at 0x04, CPC at 0x08 (10_state.md R26). -/
theorem State.writeReg_at (s : State) (off : BitVec 8) (v : Word) :
    (off = 0x00 ∧ s.writeReg off v = s.writeCtrl v) ∨ (off = 0x04 ∧ s.writeReg off v = s.writeStatus v) ∨
      (off = 0x08 ∧ s.busy = false ∧ s.writeReg off v = { s with cpc := v }) ∨ s.writeReg off v = s := by
  have hoff (n : Nat) (h : off.toNat = n) : off = BitVec.ofNat 8 n := by
    rw [← h, BitVec.ofNat_toNat, BitVec.setWidth_eq]
  unfold State.writeReg
  split
  · next h => exact .inl ⟨hoff _ h, rfl⟩
  · next h => exact .inr (.inl ⟨hoff _ h, rfl⟩)
  · next h =>
    cases hb : s.busy with
    | false => exact .inr (.inr (.inl ⟨hoff _ h, rfl, rfl⟩))
    | true => exact .inr (.inr (.inr rfl))
  · exact .inr (.inr (.inr rfl))

/-- A write is ignored at the read-only and reserved offsets, and at CPC's during a run (10_state.md R26, R29 to R33). -/
theorem State.writeReg_ignored (s : State) {off : BitVec 8} (v : Word)
    (h : 0x0C ≤ off.toNat ∨ off = 0x08 ∧ s.busy = true) : s.writeReg off v = s := by
  rcases s.writeReg_at off v with ⟨rfl, -⟩ | ⟨rfl, -⟩ | ⟨rfl, hb, -⟩ | he
  · simp at h
  · simp at h
  · simp [hb] at h
  · exact he

/-- An ignored write takes its turn and leaves the whole block. -/
theorem step_regWrite_ignored {off : BitVec 8} {v : Word} {ts : List Turn} (hdue : HostDue s (.regWrite off 4 v) ts)
    (ho : off.toNat % 4 = 0) (h : 0x0C ≤ off.toNat ∨ off = 0x08 ∧ s.busy = true) :
    ∃ t, step s = .next t ∧ t.turns = ts ∧ SameBlock s t := by
  refine ⟨({ s with turns := ts } : State).tick, ?_, rfl, sameBlock_reply s ts s.hostReply⟩
  rw [step_regWrite hdue ho, State.writeReg_ignored ({ s with turns := ts } : State) v h]

/-- Settles O53: STATUS and CPC by what their write leaves, the rest by `step_regWrite_ignored`. -/
theorem registerBlockWrites : Obligations.RegisterBlockWrites := by
  intro s off v ts hdue
  refine ⟨?status, ?cpcIdle, fun h8 hb => ?_, fun ho h => step_regWrite_ignored hdue ho (.inl h)⟩
  case status =>
    rintro rfl
    refine ⟨_, step_regWrite hdue rfl, rfl, fun _ => rfl,
      ⟨fun _ => rfl, fun _ => rfl, rfl, rfl, rfl, ?_, ?_, rfl, rfl, rfl, rfl⟩⟩
    · show (s.done && !v.getLsbD 1) = _
      cases v.getLsbD 1 <;> simp
    · show (s.err && !v.getLsbD 2) = _
      cases v.getLsbD 2 <;> simp
  case cpcIdle =>
    rintro rfl hb
    have hwrite : ({ s with turns := ts } : State).writeReg 0x08 v = { s with turns := ts, cpc := v } :=
      if_neg (by simp [hb])
    refine ⟨({ s with turns := ts, cpc := v } : State).tick, ?_, rfl, fun _ => rfl,
      ⟨fun _ => rfl, fun _ => rfl, rfl, rfl, rfl, rfl, rfl, rfl, rfl, rfl, rfl⟩⟩
    rw [step_regWrite hdue rfl, hwrite]
  · exact step_regWrite_ignored hdue (by rw [h8]; rfl) (.inr ⟨h8, hb⟩)

/-! ### What no host access does -/

theorem State.softReset_err (s : State) : s.softReset.err = false := by
  rcases s.softReset_cases with he | ⟨a, n, -, -, he⟩ <;> rw [he] <;> rfl

theorem State.writeCtrl_err (s : State) (v : Word) (h : (s.writeCtrl v).err = true) : s.err = true := by
  rcases s.writeCtrl_cases v with ⟨-, he⟩ | ⟨-, -, -, he⟩ | ⟨-, -, he⟩ <;> rw [he] at h
  · simp [s.softReset_err] at h
  · simp at h
  · exact h

/-- No register write sets ERR (60_exceptions.md R129). -/
theorem State.writeReg_err (s : State) (off : BitVec 8) (v : Word) (h : (s.writeReg off v).err = true) :
    s.err = true := by
  rcases s.writeReg_at off v with ⟨-, he⟩ | ⟨-, he⟩ | ⟨-, -, he⟩ | he <;> rw [he] at h
  · exact s.writeCtrl_err v h
  · simp only [State.writeStatus_err, Bool.and_eq_true] at h
    exact h.1
  · exact h
  · exact h

/-- `t` has the F and S registers of `s`. -/
def SameFS (s t : State) : Prop := SameF s t ∧ SameS s t

/-- CTRL without SRST leaves F and S: START keeps them (70_reset_and_hazards.md R139). -/
theorem State.writeCtrl_sameFS (s : State) (v : Word) (hv : v.getLsbD 2 = false) : SameFS s (s.writeCtrl v) := by
  rcases s.writeCtrl_cases v with ⟨hsrst, -⟩ | ⟨-, -, -, he⟩ | ⟨-, -, he⟩
  · exact absurd (hsrst.symm.trans hv) (by decide)
  · rw [he]; exact ⟨fun _ => rfl, fun _ => rfl⟩
  · rw [he]; exact ⟨fun _ => rfl, fun _ => rfl⟩

theorem State.writeReg_sameFS (s : State) (off : BitVec 8) (v : Word) (hv : off = 0x00 → v.getLsbD 2 = false) :
    SameFS s (s.writeReg off v) := by
  rcases s.writeReg_at off v with ⟨h0, he⟩ | ⟨-, he⟩ | ⟨-, -, he⟩ | he <;> rw [he]
  · exact s.writeCtrl_sameFS v (hv h0)
  all_goals exact ⟨fun _ => rfl, fun _ => rfl⟩

theorem State.windowWrite_err (s : State) (i : Nat) (b : Byte) : (s.windowWrite i b).err = s.err := by
  unfold State.windowWrite; split <;> rfl

theorem State.windowWrite_sameFS (s : State) (i : Nat) (b : Byte) : SameFS s (s.windowWrite i b) := by
  unfold State.windowWrite; split <;> exact ⟨fun _ => rfl, fun _ => rfl⟩

theorem hostTurn_err {a : HostAccess} (h : hostTurn a s = .next t) (ht : t.err = true) : s.err = true := by
  rcases hostTurn_next h with
    ⟨-, rfl⟩ | ⟨-, ⟨off, -, -, rfl⟩ | ⟨off, v, -, -, rfl⟩ | ⟨i, -, -, rfl⟩ | ⟨i, b, -, -, rfl⟩⟩
  · exact ht
  · exact ht
  · exact s.writeReg_err off v ht
  · exact ht
  · exact s.windowWrite_err i b ▸ ht

theorem hostTurn_sameFS {a : HostAccess} (h : hostTurn a s = .next t)
    (ha : ∀ v : Word, a = .regWrite 0x00 4 v → v.getLsbD 2 = false) : SameFS s t := by
  rcases hostTurn_next h with
    ⟨-, rfl⟩ | ⟨-, ⟨off, -, -, rfl⟩ | ⟨off, v, hav, -, rfl⟩ | ⟨i, -, -, rfl⟩ | ⟨i, b, -, -, rfl⟩⟩
  · exact ⟨fun _ => rfl, fun _ => rfl⟩
  · exact ⟨fun _ => rfl, fun _ => rfl⟩
  · exact s.writeReg_sameFS off v fun h0 => ha v (h0 ▸ hav)
  · exact ⟨fun _ => rfl, fun _ => rfl⟩
  · exact s.windowWrite_sameFS i b

/-- Settles O58: the host's turn is `hostTurn`, which sets no ERR and, but for SRST, leaves F and S. -/
theorem hostAccessesNeverFaultNorReachRegisters : Obligations.HostAccessesNeverFaultNorReachRegisters := by
  intro s t a ts hdue hstep
  obtain ⟨-, -, hhost, -⟩ := step_of_turns (s := s)
  have hturn : hostTurn a { s with turns := ts } = .next t := (hhost a ts hdue.turns).symm.trans hstep
  exact ⟨hostTurn_err (s := { s with turns := ts }) hturn,
    hostTurn_sameFS (s := { s with turns := ts }) hturn⟩

end Sys2Proof.Machine
end

section
/-! PROOF. MEM under the commands (20_memory.md R44, R52, R58): the effective address, and the bytes a command
leaves alone. -/

namespace Sys2Proof.Machine

variable {s t u : State}

/-- Settles O23: `State.ea_eq_emod`. -/
theorem effectiveAddressWraps : Obligations.EffectiveAddressWraps := State.ea_eq_emod

/-! ### What a command leaves of MEM -/

/-- `t` keeps the MEM of `s` but for the stable bytes of the range that `i` stores to (20_memory.md R52, R58). -/
structure WritesOnlyStoreRange (s t : State) (i : Instr) : Prop where
  unstable : ∀ a, s.memByte? a = none → t.memByte? a = none
  outsideStores : storeRange i s = none → SameMem s t
  outsideRange : ∀ a n, storeRange i s = some (a, n) → SameMemOutside s t a n

theorem SameMem.writesOnlyStoreRange (h : SameMem s t) (i : Instr) : WritesOnlyStoreRange s t i where
  unstable := fun a ha => (h a).trans ha
  outsideStores := fun _ => h
  outsideRange := fun _ _ _ k _ => h k

/-- A store over its own range writes outside it nothing, and inside it no unstable byte. -/
theorem writesOnlyStoreRange_storeBytes {i : Instr} {a : Nat} {bs : List Byte}
    (hr : storeRange i s = some (a, bs.length)) : WritesOnlyStoreRange s (s.storeBytes a bs) i where
  unstable := fun k hk => by
    rw [State.memByte?_storeBytes, if_pos ((s.memByte?_eq_none k).mp hk)]
  outsideStores := fun hn => by simp [hr] at hn
  outsideRange := fun c n hcn k hk => by
    obtain ⟨rfl, rfl⟩ : a = c ∧ bs.length = n := by simpa [hr] using hcn
    exact s.memByte?_storeBytes_outside a k bs hk

theorem Effect.writesOnlyStoreRange {i : Instr} (h : Effect s i u) : WritesOnlyStoreRange s u i := by
  cases h with
  | nothing _ => exact SameMem.writesOnlyStoreRange (fun _ => rfl) i
  | writesF r v _ => exact SameMem.writesOnlyStoreRange (s.setF_memByte? r v) i
  | writesS r v _ => exact SameMem.writesOnlyStoreRange (s.setS_memByte? r v) i
  | writesM k m _ _ => exact SameMem.writesOnlyStoreRange (s.setM_memByte? k m) i
  | writesMem a bs hr _ => exact writesOnlyStoreRange_storeBytes hr

/-- The advance of CPC is no write to MEM. -/
theorem WritesOnlyStoreRange.advance_tick {i : Instr} (h : WritesOnlyStoreRange s u i) :
    WritesOnlyStoreRange s u.advance.tick i := { h with }

/-- However a command ends, it wrote at most the stable bytes of its store range. -/
theorem exec_writesOnlyStoreRange {i : Instr} (h : exec i s = .next t) : WritesOnlyStoreRange s t i := by
  rcases exec_cases h with ⟨-, rfl⟩ | ⟨-, u, hu, rfl⟩ | ⟨c, -, rfl⟩
  · exact s.halted_haltedFrom.mem.writesOnlyStoreRange i
  · exact hu.writesOnlyStoreRange.advance_tick
  · exact (s.takeFault_faulted c).mem.writesOnlyStoreRange i

/-- Settles O12: `exec_writesOnlyStoreRange`, from the effects a command can have. -/
theorem onlyStoresWriteMemory : Obligations.OnlyStoresWriteMemory := by
  intro i s t h
  obtain ⟨hunstable, hnone, hrange⟩ := exec_writesOnlyStoreRange h
  exact ⟨hunstable, hnone, hrange⟩

end Sys2Proof.Machine
end

section
/-! PROOF. Fetch (20_memory.md R48, R51, R61; 40_control.md R73, R74): the engine's step during a run, the command
that the bytes at CPC are, and a store over the next command. -/

namespace Sys2Proof

/-! ### The bytes of a command word -/

@[simp] theorem bytesOfWord_length (w : Word) : (bytesOfWord w).length = 4 := Machine.beBytes_length 4 _

/-- Four bytes in address order give their word back (20_memory.md R48). -/
theorem wordOfBytes_bytesOfWord_append (w : Word) (rest : List Byte) :
    wordOfBytes (bytesOfWord w ++ rest) = w := by
  have htake : (bytesOfWord w ++ rest).take 4 = bytesOfWord w := List.take_left' (bytesOfWord_length w)
  rw [wordOfBytes, htake, bytesOfWord, Machine.be_beBytes, Nat.mod_eq_of_lt (show w.toNat < 256 ^ 4 from w.isLt),
    BitVec.ofNat_toNat, BitVec.setWidth_eq]

/-- The decoder on the bytes of a word decodes the word and leaves the bytes after it (30_encoding.md R63). -/
theorem decode_bytesOfWord_append (w : Word) (rest : List Byte) :
    decode (bytesOfWord w ++ rest) = (decodeWord w).map fun i => (i, rest) := by
  have hdrop : (bytesOfWord w ++ rest).drop 4 = rest := List.drop_left' (bytesOfWord_length w)
  rw [decode, if_neg (by simp), wordOfBytes_bytesOfWord_append, hdrop]
  cases decodeWord w <;> rfl

theorem decodeWord_encode_sst (ss sb : Reg) (imm : Imm) :
    decodeWord (encode (.sst ss sb imm)) = .ok (.sst ss sb imm) := by
  have hmask : (0xFF000000#32 : Word) = packI 0xFF 0 0 0 := by decide
  have hpattern : (0x06000000#32 : Word) = packI 0x06 0 0 0 := by decide
  have hand : packI 0x06 ss sb imm &&& 0xFF000000#32 = 0x06000000#32 := by
    rw [hmask, packI_and, hpattern]
    simp
  simp only [encode, decodeWord, fieldOp_packI, fieldR1_packI, fieldR2_packI, fieldImm_packI]
  exact acceptRow_ok.mpr ⟨hand, hand, rfl⟩

end Sys2Proof

namespace Sys2Proof.Machine

variable {s t : State}

/-! ### The engine's step during a run -/

theorem Running.step_eq_engineTurn (h : Running s) : step s = engineTurn s := step_of_turns.1 h.turns

/-- During a run a step executes the command at CPC (40_control.md R73). -/
theorem Running.step_of_command (h : Running s) {i : Instr} (hc : s.command = .ok i) : step s = exec i s := by
  rw [h.step_eq_engineTurn, engineTurn, if_pos (by simp [h.busy, h.resetInput]), hc]

/-- During a run a fetch or decode that fails is a step that takes the fault (60_exceptions.md R124). -/
theorem Running.step_of_command_error (h : Running s) {c : Cause} (hc : s.command = .error c) :
    ∃ t, step s = .next t ∧ Faulted s t c := by
  refine ⟨(s.takeFault c).tick, ?_, s.takeFault_faulted c⟩
  rw [h.step_eq_engineTurn, engineTurn, if_pos (by simp [h.busy, h.resetInput]), hc]
  rfl

/-- Settles O6: the check of CPC comes first in `State.command`. -/
theorem unfetchableCpcRaisesFetchFault : Obligations.UnfetchableCpcRaisesFetchFault := by
  intro s hrun hcpc
  have hfetch : ¬s.Fetchable := by rintro ⟨halign, hin⟩; omega
  exact hrun.step_of_command_error (if_neg hfetch)

/-! ### The command that MEM holds at CPC -/

/-- The stable word at CPC is the command, or is none (40_control.md R74; 30_encoding.md R70). -/
theorem State.command_of_holds {w : Word} (hf : s.Fetchable) (h : Holds s s.cpc.toNat (bytesOfWord w)) :
    s.command = (decodeWord w).mapError fun _ => .illegalCmd := by
  have hbytes : s.fetchBytes = bytesOfWord w := by
    have hread := h.memBytes .fetch
    rwa [bytesOfWord_length] at hread
  have hdecode : decode s.fetchBytes = (decodeWord w).map fun i => (i, []) := by
    rw [hbytes, ← decode_bytesOfWord_append, List.append_nil]
  rw [State.command, if_pos hf, hdecode]
  cases decodeWord w <;> rfl

/-- During a run a stable word at CPC that decodes is executed. -/
theorem Running.step_of_holds {w : Word} {i : Instr} (hrun : Running s) (hf : s.Fetchable)
    (h : Holds s s.cpc.toNat (bytesOfWord w)) (hi : decodeWord w = .ok i) : step s = exec i s :=
  hrun.step_of_command (by rw [State.command_of_holds hf h, hi]; rfl)

/-! ### A store over the next command -/

/-- A command that completes leaves the run going. -/
theorem Running.of_completed (hrun : Running s) (h : Completed s t) : Running t :=
  ⟨h.busy.trans hrun.busy, h.resetInput.trans hrun.resetInput, h.turns.trans hrun.turns⟩

/-- SST over stable bytes inside MEM completes, and MEM then holds the register's word (40_control.md R84). -/
theorem exec_sst_holds (s : State) (ss sb : Reg) (imm : Imm) (hr : s.ea sb imm + 4 ≤ s.memSize)
    (hstable : ∀ k < 4, s.ea sb imm + k ∉ s.unstable) :
    ∃ t, exec (.sst ss sb imm) s = .next t ∧ Completed s t ∧ Holds t (s.ea sb imm) (bytesOfWord (s.sreg ss)) :=
  ⟨_, congrArg s.settle (State.checkRange_pos (.inr hr) _), completed_storeBytes s _ _,
    holds_storeBytes s _ _ fun k hk => hstable k (by simpa using hk)⟩

/-- Settles O17: SST completes with its word at the advanced CPC, which is what the next fetch reads. -/
theorem storeOverTheNextCommandIsFetched : Obligations.StoreOverTheNextCommandIsFetched := by
  intro s ss sb imm j hrun halign hin hsize hsst hea hj hstable
  have hstep : step s = exec (.sst ss sb imm) s :=
    hrun.step_of_holds ⟨halign, by omega⟩ hsst (decodeWord_encode_sst ss sb imm)
  obtain ⟨t, hexec, hcompleted, hheld⟩ := exec_sst_holds s ss sb imm (by omega) (by rwa [hea])
  have hcpc : t.cpc.toNat = s.cpc.toNat + 4 := by
    rw [hcompleted.cpc, BitVec.toNat_add, BitVec.toNat_ofNat]
    omega
  have hfetch : t.Fetchable := by
    rw [State.Fetchable, hcpc, hcompleted.memSize]
    omega
  rw [hea, ← hcpc] at hheld
  exact ⟨t, hstep.trans hexec, hcompleted.cpc, (hrun.of_completed hcompleted).step_of_holds hfetch hheld hj⟩

end Sys2Proof.Machine
end

section
/-! PROOF. The memory window (20_memory.md R54, R58): what a host write of one byte leaves in MEM, while the engine
is idle and during a run, and that a host read leaves everything. -/

namespace Sys2Proof.Machine

variable {s : State}

/-! ### Writes -/

/-- A write while idle sets the byte, an unstable one too, and no other (20_memory.md R58). -/
theorem State.memByte?_windowWrite_of_idle (hb : s.busy = false) (i : Nat) (b : Byte) (k : Nat) :
    (s.windowWrite i b).memByte? k = if k = i then some b else s.memByte? k := by
  rw [State.windowWrite, if_neg (by simp [hb])]
  simp only [State.memByte?, List.contains_iff_mem, mem_removeAddr, Memory.lookup_write]
  by_cases hk : k = i <;> simp [hk]

/-- A write during a run makes the byte unstable, and no other (20_memory.md R58). -/
theorem State.memByte?_windowWrite_of_busy (hb : s.busy = true) (i : Nat) (b : Byte) (k : Nat) :
    (s.windowWrite i b).memByte? k = if k = i then none else s.memByte? k := by
  rw [State.windowWrite, if_pos hb]
  simp only [State.memByte?, List.contains_iff_mem, mem_insertAddr]
  by_cases hk : k = i <;> simp [hk]

theorem State.windowWrite_turns (s : State) (i : Nat) (b : Byte) : (s.windowWrite i b).turns = s.turns := by
  unfold State.windowWrite; split <;> rfl

theorem State.windowWrite_sameRegisters (s : State) (i : Nat) (b : Byte) : SameRegisters s (s.windowWrite i b) := by
  unfold State.windowWrite
  split <;> exact ⟨fun _ => rfl, fun _ => rfl, rfl, rfl, rfl, rfl, rfl, rfl, rfl, rfl, rfl⟩

/-- A host write of a byte of MEM takes its turn, leaves the registers, and writes MEM as `windowWrite` does. -/
theorem step_memWrite_frame {i : Nat} {b : Byte} {ts : List Turn} (hdue : HostDue s (.memWrite i b) ts)
    (hi : i < s.memSize) :
    ∃ t, step s = .next t ∧ t.turns = ts ∧ SameRegisters s t ∧
      ∀ k, t.memByte? k = (({ s with turns := ts } : State).windowWrite i b).memByte? k := by
  refine ⟨_, step_memWrite hdue hi, State.windowWrite_turns _ i b, ?_, fun _ => rfl⟩
  exact { State.windowWrite_sameRegisters { s with turns := ts } i b with }

/-! ### Reads -/

/-- A host read of a byte of MEM takes its turn and leaves the whole block (20_memory.md R54). -/
theorem step_memRead_frame {i : Nat} {ts : List Turn} (hdue : HostDue s (.memRead i) ts) (hi : i < s.memSize) :
    ∃ t, step s = .next t ∧ t.turns = ts ∧ SameBlock s t ∧ t.hostReply = .byte (s.windowByte i) :=
  ⟨_, step_memRead hdue hi, rfl, sameBlock_reply s ts _, rfl⟩

/-- A read while idle of a stable byte returns it (20_memory.md R58). -/
theorem State.windowByte_of_idle {i : Nat} {b : Byte} (hb : s.busy = false) (h : s.memByte? i = some b) :
    s.windowByte i = b := by
  rw [State.windowByte, if_neg (by simp [hb]), State.readByte_of_some h]

/-! ### The two statements -/

/-- Settles O56: the write by `State.memByte?_windowWrite_of_idle`, the read by `State.windowByte_of_idle`. -/
theorem windowAccessWhileIdle : Obligations.WindowAccessWhileIdle := by
  intro s i b ts hb hi
  refine ⟨fun hdue => ?write, fun hdue hbyte => ?read⟩
  case write =>
    obtain ⟨t, hstep, hts, hregs, hmem⟩ := step_memWrite_frame hdue hi
    have hset : ∀ k, t.memByte? k = if k = i then some b else s.memByte? k := fun k =>
      (hmem k).trans (State.memByte?_windowWrite_of_idle (s := { s with turns := ts }) hb i b k)
    exact ⟨t, hstep, hts, hregs, hset, State.readByte_of_some ((hset i).trans (if_pos rfl))⟩
  case read =>
    obtain ⟨t, hstep, hts, hblock, hreply⟩ := step_memRead_frame hdue hi
    exact ⟨t, hstep, hts, hblock, by rw [hreply, State.windowByte_of_idle hb hbyte]⟩

/-- Settles O57: the write by `State.memByte?_windowWrite_of_busy`, the read by its frame alone. -/
theorem windowAccessDuringARun : Obligations.WindowAccessDuringARun := by
  intro s i b ts hb hi
  refine ⟨fun hdue => ?write, fun hdue => ?read⟩
  case write =>
    obtain ⟨t, hstep, hts, hregs, hmem⟩ := step_memWrite_frame hdue hi
    exact ⟨t, hstep, hts, hregs, fun k =>
      (hmem k).trans (State.memByte?_windowWrite_of_busy (s := { s with turns := ts }) hb i b k)⟩
  case read =>
    obtain ⟨t, hstep, hts, hblock, hreply⟩ := step_memRead_frame hdue hi
    exact ⟨t, _, hstep, hts, hblock, hreply⟩

end Sys2Proof.Machine
end

section
/-! PROOF. The encoding (30_encoding.md R64 to R70): which words a mask of the opcode map matches, the row that decodes
a word, and that decoder and encoder are inverse to each other. -/

namespace Sys2Proof

/-! ### The bits a mask tests, by field (30_encoding.md R64) -/

section
variable {w : Word} {op : BitVec 8} {r1 r2 r3 r4 m1 m2 m3 m4 : Reg} {low ml : BitVec 8} {imm : Imm}

theorem packR_eq_iff :
    packR op r1 r2 r3 r4 low = w ↔ fieldOp w = op ∧ fieldR1 w = r1 ∧ fieldR2 w = r2 ∧ fieldR3 w = r3 ∧
      fieldR4 w = r4 ∧ w.extractLsb' 0 8 = low := by
  rw [eq_comm, ← packR_inj, packR_fields]

theorem packI_eq_iff :
    packI op r1 r2 imm = w ↔ fieldOp w = op ∧ fieldR1 w = r1 ∧ fieldR2 w = r2 ∧ fieldImm w = imm := by
  rw [eq_comm, ← packI_inj, packI_fields]

theorem and_packR_eq_iff :
    w &&& packR 0xFF m1 m2 m3 m4 ml = packR op 0 0 0 0 0 ↔ fieldOp w = op ∧ fieldR1 w &&& m1 = 0 ∧
      fieldR2 w &&& m2 = 0 ∧ fieldR3 w &&& m3 = 0 ∧ fieldR4 w &&& m4 = 0 ∧ w.extractLsb' 0 8 &&& ml = 0 := by
  have hand := packR_and (fieldOp w) 0xFF (fieldR1 w) m1 (fieldR2 w) m2 (fieldR3 w) m3 (fieldR4 w) m4
    (w.extractLsb' 0 8) ml
  rw [packR_fields] at hand
  rw [hand, packR_inj, show fieldOp w &&& 0xFF = fieldOp w from BitVec.and_allOnes]

theorem and_packI_eq_iff :
    w &&& packI 0xFF m1 m2 0 = packI op 0 0 0 ↔ fieldOp w = op ∧ fieldR1 w &&& m1 = 0 ∧ fieldR2 w &&& m2 = 0 := by
  have hand := packI_and (fieldOp w) 0xFF (fieldR1 w) m1 (fieldR2 w) m2 (fieldImm w) 0
  rw [packI_fields] at hand
  rw [hand, packI_inj, show fieldOp w &&& 0xFF = fieldOp w from BitVec.and_allOnes]
  simp

end

@[simp] theorem reg_and_ones (r : Reg) : r &&& 0xF#4 = r := BitVec.and_allOnes

@[simp] theorem byte_and_ones (b : Byte) : b &&& 0xFF#8 = b := BitVec.and_allOnes

@[simp] theorem reg_and_matrixBits (r : Reg) : r &&& 0xC#4 = 0#4 ↔ legalM r = true := by
  revert r; decide

/-- The low byte of format RB is its bit 0 exactly when its other bits are 0. -/
@[simp] theorem lowByte_and_reserved (w : Word) :
    w.extractLsb' 0 8 &&& 0xFE#8 = 0#8 ↔ w.extractLsb' 0 8 = (BitVec.ofBool (fieldB w)).setWidth 8 := by
  have hbyte : ∀ low : Byte, low &&& 0xFE#8 = 0#8 ↔ low = (BitVec.ofBool (low.getLsbD 0)).setWidth 8 := by decide
  have hbit : fieldB w = (w.extractLsb' 0 8).getLsbD 0 := by simp [fieldB]
  rw [hbit, hbyte]

/-! ### The masks of the opcode map (30_encoding.md R65, R66, R68)

One lemma per mask, named by its format and its M operands: a word matches exactly when its M fields are legal and it
is put together again from the fields its format has. The right side is, by definition, that the row's command is well
formed and encodes to the word. -/

section
variable {w : Word} (op : BitVec 8)

theorem matches_N : w &&& 0xFFFFFFFF#32 = packR op 0 0 0 0 0 ↔
    [].all legalM = true ∧ packR op 0 0 0 0 0 = w := by
  rw [show 0xFFFFFFFF#32 = packR 0xFF 0xF 0xF 0xF 0xF 0xFF by decide, and_packR_eq_iff, packR_eq_iff]
  simp

theorem matches_RR : w &&& 0xFF00FFFF#32 = packR op 0 0 0 0 0 ↔
    [].all legalM = true ∧ packR op (fieldR1 w) (fieldR2 w) 0 0 0 = w := by
  rw [show 0xFF00FFFF#32 = packR 0xFF 0 0 0xF 0xF 0xFF by decide, and_packR_eq_iff, packR_eq_iff]
  simp

theorem matches_RR_M12 : w &&& 0xFFCCFFFF#32 = packR op 0 0 0 0 0 ↔
    [fieldR1 w, fieldR2 w].all legalM = true ∧ packR op (fieldR1 w) (fieldR2 w) 0 0 0 = w := by
  rw [show 0xFFCCFFFF#32 = packR 0xFF 0xC 0xC 0xF 0xF 0xFF by decide, and_packR_eq_iff, packR_eq_iff]
  simp [and_assoc, and_left_comm, and_comm]

theorem matches_RRR : w &&& 0xFF000FFF#32 = packR op 0 0 0 0 0 ↔
    [].all legalM = true ∧ packR op (fieldR1 w) (fieldR2 w) (fieldR3 w) 0 0 = w := by
  rw [show 0xFF000FFF#32 = packR 0xFF 0 0 0 0xF 0xFF by decide, and_packR_eq_iff, packR_eq_iff]
  simp

theorem matches_RRR_M1 : w &&& 0xFFC00FFF#32 = packR op 0 0 0 0 0 ↔
    [fieldR1 w].all legalM = true ∧ packR op (fieldR1 w) (fieldR2 w) (fieldR3 w) 0 0 = w := by
  rw [show 0xFFC00FFF#32 = packR 0xFF 0xC 0 0 0xF 0xFF by decide, and_packR_eq_iff, packR_eq_iff]
  simp [and_assoc, and_left_comm, and_comm]

theorem matches_RRR_M123 : w &&& 0xFFCCCFFF#32 = packR op 0 0 0 0 0 ↔
    [fieldR1 w, fieldR2 w, fieldR3 w].all legalM = true ∧ packR op (fieldR1 w) (fieldR2 w) (fieldR3 w) 0 0 = w := by
  rw [show 0xFFCCCFFF#32 = packR 0xFF 0xC 0xC 0xC 0xF 0xFF by decide, and_packR_eq_iff, packR_eq_iff]
  simp [and_assoc, and_left_comm, and_comm]

theorem matches_RRRR : w &&& 0xFF0000FF#32 = packR op 0 0 0 0 0 ↔
    [].all legalM = true ∧ packR op (fieldR1 w) (fieldR2 w) (fieldR3 w) (fieldR4 w) 0 = w := by
  rw [show 0xFF0000FF#32 = packR 0xFF 0 0 0 0 0xFF by decide, and_packR_eq_iff, packR_eq_iff]
  simp

theorem matches_R1_M1 : w &&& 0xFFCFFFFF#32 = packR op 0 0 0 0 0 ↔
    [fieldR1 w].all legalM = true ∧ packR op (fieldR1 w) 0 0 0 0 = w := by
  rw [show 0xFFCFFFFF#32 = packR 0xFF 0xC 0xF 0xF 0xF 0xFF by decide, and_packR_eq_iff, packR_eq_iff]
  simp [and_assoc, and_left_comm, and_comm]

theorem matches_RB_M1 : w &&& 0xFFCFFFFE#32 = packR op 0 0 0 0 0 ↔
    [fieldR1 w].all legalM = true ∧ packR op (fieldR1 w) 0 0 0 ((BitVec.ofBool (fieldB w)).setWidth 8) = w := by
  rw [show 0xFFCFFFFE#32 = packR 0xFF 0xC 0xF 0xF 0xF 0xFE by decide, and_packR_eq_iff, packR_eq_iff]
  simp [and_assoc, and_left_comm, and_comm]

theorem matches_RI : w &&& 0xFF0F0000#32 = packI op 0 0 0 ↔
    [].all legalM = true ∧ packI op (fieldR1 w) 0 (fieldImm w) = w := by
  rw [show 0xFF0F0000#32 = packI 0xFF 0 0xF 0 by decide, and_packI_eq_iff, packI_eq_iff]
  simp

theorem matches_RRI : w &&& 0xFF000000#32 = packI op 0 0 0 ↔
    [].all legalM = true ∧ packI op (fieldR1 w) (fieldR2 w) (fieldImm w) = w := by
  rw [show 0xFF000000#32 = packI 0xFF 0 0 0 by decide, and_packI_eq_iff, packI_eq_iff]
  simp

theorem matches_RRI_M1 : w &&& 0xFFC00000#32 = packI op 0 0 0 ↔
    [fieldR1 w].all legalM = true ∧ packI op (fieldR1 w) (fieldR2 w) (fieldImm w) = w := by
  rw [show 0xFFC00000#32 = packI 0xFF 0xC 0 0 by decide, and_packI_eq_iff, packI_eq_iff]
  simp [and_comm]

end

/-! ### The row that decodes a word (30_encoding.md R68, R69) -/

/-- A row whose mask tests every bit that its format does accepts by its mask alone (30_encoding.md R69). -/
theorem acceptRow_ok_iff_matches {w pattern format mask : Word} {i j : Instr}
    (hmask : mask &&& format = format := by decide) (hpattern : pattern &&& format = pattern := by decide) :
    acceptRow w pattern format mask i = .ok j ↔ w &&& mask = pattern ∧ i = j := by
  have hformat : w &&& mask = pattern → w &&& format = pattern := fun hw => by
    rw [← hmask, ← BitVec.and_assoc, hw, hpattern]
  rw [acceptRow_ok]
  exact ⟨fun ⟨_, hw, hi⟩ => ⟨hw, hi⟩, fun ⟨hw, hi⟩ => ⟨hformat hw, hw, hi⟩⟩

/-- `w` is decoded by the row `row` of the opcode map, to the command `i` it encodes where the row matches. -/
structure DecodedBy (w : Word) (row : Word × Word) (i : Instr) : Prop where
  mem : row ∈ Machine.opcodeRows
  opcode : fieldOp w = fieldOp row.1
  ok_iff : ∀ j, decodeWord w = .ok j ↔ w &&& row.2 = row.1 ∧ i = j
  matches_iff : w &&& row.2 = row.1 ↔ i.wellFormed = true ∧ encode i = w

/-- How a row of `decodeWord` decodes, from what its mask tests (`matches_N` to `matches_RRI_M1`). -/
theorem DecodedBy.of_acceptRow {w pattern format mask : Word} {i : Instr}
    (hdec : decodeWord w = acceptRow w pattern format mask i) (hop : (fieldOp w).toNat = (fieldOp pattern).toNat)
    (hmatches : w &&& mask = pattern ↔ i.wellFormed = true ∧ encode i = w)
    (hrow : (pattern, mask) ∈ Machine.opcodeRows := by decide) (hmask : mask &&& format = format := by decide)
    (hpattern : pattern &&& format = pattern := by decide) : DecodedBy w (pattern, mask) i where
  mem := hrow
  opcode := BitVec.eq_of_toNat_eq hop
  ok_iff := fun _ => hdec ▸ acceptRow_ok_iff_matches hmask hpattern
  matches_iff := hmatches

/-- The assigned opcodes, in rising order (30_encoding.md R68). -/
theorem opcodeRows_opcodes : Machine.opcodeRows.map (fun row => (fieldOp row.1).toNat) =
    [0x00, 0x01, 0x02, 0x03, 0x04, 0x05, 0x06, 0x10, 0x11, 0x12, 0x13, 0x14, 0x15, 0x16, 0x17,
      0x20, 0x21, 0x22, 0x23, 0x24, 0x30, 0x31, 0x32, 0x33] := by decide

/-- A word is decoded by the row of its opcode, or no row has its opcode (30_encoding.md R69, R70). -/
theorem decodeWord_cases (w : Word) :
    (∃ row i, DecodedBy w row i) ∨
      ((∀ row ∈ Machine.opcodeRows, fieldOp w ≠ fieldOp row.1) ∧ decodeWord w = .error .unassignedOpcode) := by
  have hdec := decodeWord.eq_def w
  dsimp only at hdec
  split at hdec
  next hop => exact .inl ⟨_, _, .of_acceptRow hdec hop (matches_N 0x00)⟩
  next hop => exact .inl ⟨_, _, .of_acceptRow hdec hop (matches_N 0x01)⟩
  next hop => exact .inl ⟨_, _, .of_acceptRow hdec hop (matches_RI 0x02)⟩
  next hop => exact .inl ⟨_, _, .of_acceptRow hdec hop (matches_RI 0x03)⟩
  next hop => exact .inl ⟨_, _, .of_acceptRow hdec hop (matches_RRI 0x04)⟩
  next hop => exact .inl ⟨_, _, .of_acceptRow hdec hop (matches_RRI 0x05)⟩
  next hop => exact .inl ⟨_, _, .of_acceptRow hdec hop (matches_RRI 0x06)⟩
  next hop => exact .inl ⟨_, _, .of_acceptRow hdec hop (matches_RRR 0x10)⟩
  next hop => exact .inl ⟨_, _, .of_acceptRow hdec hop (matches_RR 0x11)⟩
  next hop => exact .inl ⟨_, _, .of_acceptRow hdec hop (matches_RR 0x12)⟩
  next hop => exact .inl ⟨_, _, .of_acceptRow hdec hop (matches_RRR 0x13)⟩
  next hop => exact .inl ⟨_, _, .of_acceptRow hdec hop (matches_RR 0x14)⟩
  next hop => exact .inl ⟨_, _, .of_acceptRow hdec hop (matches_RI 0x15)⟩
  next hop => exact .inl ⟨_, _, .of_acceptRow hdec hop (matches_RRI 0x16)⟩
  next hop => exact .inl ⟨_, _, .of_acceptRow hdec hop (matches_RRI 0x17)⟩
  next hop => exact .inl ⟨_, _, .of_acceptRow hdec hop (matches_RRR_M123 0x20)⟩
  next hop => exact .inl ⟨_, _, .of_acceptRow hdec hop (matches_RR_M12 0x21)⟩
  next hop => exact .inl ⟨_, _, .of_acceptRow hdec hop (matches_R1_M1 0x22)⟩
  next hop => exact .inl ⟨_, _, .of_acceptRow hdec hop (matches_RRI_M1 0x23)⟩
  next hop => exact .inl ⟨_, _, .of_acceptRow hdec hop (matches_RRI_M1 0x24)⟩
  next hop => exact .inl ⟨_, _, .of_acceptRow hdec hop (matches_RB_M1 0x30)⟩
  next hop => exact .inl ⟨_, _, .of_acceptRow hdec hop (matches_RRR_M1 0x31)⟩
  next hop => exact .inl ⟨_, _, .of_acceptRow hdec hop (matches_RRR_M1 0x32)⟩
  next hop => exact .inl ⟨_, _, .of_acceptRow hdec hop (matches_RRRR 0x33)⟩
  next =>
    refine .inr ⟨fun row hrow hop => ?_, hdec⟩
    have hassigned := List.mem_map_of_mem (f := fun row => (fieldOp row.1).toNat) hrow
    rw [opcodeRows_opcodes, ← hop] at hassigned
    simp only [List.mem_cons, List.not_mem_nil, or_false] at hassigned
    simp_all only [or_false, imp_false]

/-! ### Decoder and encoder -/

@[simp] theorem fieldB_packR_ofBool (op : BitVec 8) (r1 r2 r3 r4 : Reg) (b : Bool) :
    fieldB (packR op r1 r2 r3 r4 ((BitVec.ofBool b).setWidth 8)) = b := by
  cases b <;> simp

/-- The decoder gives back the command that was encoded. -/
theorem decodeWord_encode {i : Instr} (h : i.wellFormed = true) : decodeWord (encode i) = .ok i := by
  rw [Instr.wellFormed] at h
  cases i <;>
    simp only [encode, decodeWord, fieldOp_packR, fieldR1_packR, fieldR2_packR, fieldR3_packR, fieldR4_packR,
      fieldB_packR_ofBool, fieldOp_packI, fieldR1_packI, fieldR2_packI, fieldImm_packI] <;>
    refine (acceptRow_ok_iff_matches ..).mpr ⟨?_, rfl⟩
  case halt => exact (matches_N 0x00).mpr (by simp)
  case nop => exact (matches_N 0x01).mpr (by simp)
  case lil => exact (matches_RI 0x02).mpr (by simp)
  case lih => exact (matches_RI 0x03).mpr (by simp)
  case addi => exact (matches_RRI 0x04).mpr (by simp)
  case sld => exact (matches_RRI 0x05).mpr (by simp)
  case sst => exact (matches_RRI 0x06).mpr (by simp)
  case fadd => exact (matches_RRR 0x10).mpr (by simp)
  case fmulx => exact (matches_RR 0x11).mpr (by simp)
  case fmulx1 => exact (matches_RR 0x12).mpr (by simp)
  case fmul => exact (matches_RRR 0x13).mpr (by simp)
  case finv => exact (matches_RR 0x14).mpr (by simp)
  case fldi => exact (matches_RI 0x15).mpr (by simp)
  case fld => exact (matches_RRI 0x16).mpr (by simp)
  case fst => exact (matches_RRI 0x17).mpr (by simp)
  case mmul => exact (matches_RRR_M123 0x20).mpr (by simpa [Instr.mOperands] using h)
  case minv => exact (matches_RR_M12 0x21).mpr (by simpa [Instr.mOperands] using h)
  case mid => exact (matches_R1_M1 0x22).mpr (by simpa [Instr.mOperands] using h)
  case mld => exact (matches_RRI_M1 0x23).mpr (by simpa [Instr.mOperands] using h)
  case mst => exact (matches_RRI_M1 0x24).mpr (by simpa [Instr.mOperands] using h)
  case hbit => exact (matches_RB_M1 0x30).mpr (by simpa [Instr.mOperands] using h)
  case hupd => exact (matches_RRR_M1 0x31).mpr (by simpa [Instr.mOperands] using h)
  case hcat => exact (matches_RRR_M1 0x32).mpr (by simpa [Instr.mOperands] using h)
  case hval => exact (matches_RRRR 0x33).mpr (by simp)

/-- An accepted word is the encoding of its command. -/
theorem encode_of_decodeWord {w : Word} {i : Instr} (h : decodeWord w = .ok i) :
    i.wellFormed = true ∧ encode i = w := by
  rcases decodeWord_cases w with ⟨row, j, hrow⟩ | ⟨-, hdec⟩
  · obtain ⟨hmatch, rfl⟩ := (hrow.ok_iff i).mp h
    exact hrow.matches_iff.mp hmatch
  · rw [hdec] at h; cases h

/-- The decoder gives exactly the commands whose encoding the word is. -/
theorem decodeWord_ok_iff {w : Word} {i : Instr} : decodeWord w = .ok i ↔ i.wellFormed = true ∧ encode i = w :=
  ⟨encode_of_decodeWord, fun ⟨hwf, hw⟩ => hw ▸ decodeWord_encode hwf⟩

/-- Settles O1: on words `decodeWord_encode`, on bytes by the word they hold. -/
theorem decodeOfEncode : Obligations.DecodeOfEncode := by
  intro i rest hwf
  refine ⟨decodeWord_encode hwf, ?_⟩
  rw [decode_bytesOfWord_append, decodeWord_encode hwf]
  rfl

/-- Settles O2: `encode_of_decodeWord`, by the row that accepts the word. -/
theorem encodeOfDecode : Obligations.EncodeOfDecode := fun _ _ => encode_of_decodeWord

/-- Settles O4: each sample is the encoding of its command. -/
theorem sampleWordsDecode : Obligations.SampleWordsDecode := by
  unfold Obligations.SampleWordsDecode
  simp only [decodeWord_ok_iff]
  decide

/-! ### The opcode map -/

/-- The opcode of a word that matches a row is the row's: every mask tests all of it (30_encoding.md R68). -/
theorem fieldOp_of_matches {w : Word} {row : Word × Word} (hrow : row ∈ Machine.opcodeRows)
    (h : w &&& row.2 = row.1) : fieldOp w = fieldOp row.1 := by
  have hmask : ∀ row ∈ Machine.opcodeRows, fieldOp row.2 = BitVec.allOnes 8 := by simp [Machine.opcodeRows, fieldOp]
  have hand : fieldOp (w &&& row.2) = fieldOp w &&& fieldOp row.2 := BitVec.extractLsb'_and
  rw [← h, hand, hmask row hrow, BitVec.and_allOnes]

/-- No two rows share an opcode (30_encoding.md R69). -/
theorem row_eq_of_fieldOp {row row' : Word × Word} (hrow : row ∈ Machine.opcodeRows)
    (hrow' : row' ∈ Machine.opcodeRows) (h : fieldOp row.1 = fieldOp row'.1) : row = row' := by
  have hnodup : (Machine.opcodeRows.map fun row => (fieldOp row.1).toNat).Nodup := by
    rw [opcodeRows_opcodes]; decide
  exact List.inj_on_of_nodup_map hnodup hrow hrow' (congrArg BitVec.toNat h)

/-- The decoder accepts the words that match a row (30_encoding.md R69). -/
theorem decodeWord_isOk_iff (w : Word) : (∃ i, decodeWord w = .ok i) ↔ Machine.IsCommandWord w := by
  rcases decodeWord_cases w with ⟨row, j, hdec⟩ | ⟨hnone, herr⟩
  · constructor
    · rintro ⟨i, hi⟩
      exact ⟨row, hdec.mem, ((hdec.ok_iff i).mp hi).1⟩
    · rintro ⟨row', hrow', hmatch⟩
      have hop : fieldOp row.1 = fieldOp row'.1 := hdec.opcode.symm.trans (fieldOp_of_matches hrow' hmatch)
      obtain rfl := row_eq_of_fieldOp hdec.mem hrow' hop
      exact ⟨j, (hdec.ok_iff j).mpr ⟨hmatch, rfl⟩⟩
  · constructor
    · rintro ⟨i, hi⟩
      rw [herr] at hi; cases hi
    · rintro ⟨row, hrow, hmatch⟩
      exact absurd (fieldOp_of_matches hrow hmatch) (hnone row hrow)

/-- Settles O3: `decodeWord_isOk_iff`, and two rows that match have the word's opcode both. -/
theorem decodeAcceptsExactlyTheOpcodeMap : Obligations.DecodeAcceptsExactlyTheOpcodeMap :=
  ⟨decodeWord_isOk_iff, fun _ _ _ hrow hrow' hmatch hmatch' =>
    row_eq_of_fieldOp hrow hrow' ((fieldOp_of_matches hrow hmatch).symm.trans (fieldOp_of_matches hrow' hmatch'))⟩

end Sys2Proof

namespace Sys2Proof.Machine

/-! ### ILLEGAL_CMD (30_encoding.md R66, R70) -/

/-- Settles O7: the decoder refuses the word, which is the fault of the fetched command. -/
theorem illegalWordRaisesIllegalCmd : Obligations.IllegalWordRaisesIllegalCmd := by
  intro s w hrun halign hin hheld hillegal
  have hcommand : s.command = .error .illegalCmd := by
    rw [State.command_of_holds ⟨halign, hin⟩ hheld]
    cases hdec : decodeWord w with
    | ok i => exact absurd ((decodeWord_isOk_iff w).mp ⟨i, hdec⟩) hillegal
    | error r => rfl
  exact hrun.step_of_command_error hcommand

/-- A command with M operands checks them all before anything else (60_exceptions.md R124; log 19). -/
theorem exec_eq_guarded (i : Instr) (s : State) (h : i.mOperands ≠ []) :
    ∃ e, exec i s = s.settle (guardM i.mOperands e) := by
  cases i with
  | mmul md ma mb => exact ⟨_, rfl⟩
  | minv md ma => exact ⟨_, rfl⟩
  | mid md => exact ⟨_, rfl⟩
  | mld md sb imm => exact ⟨_, rfl⟩
  | mst ms sb imm => exact ⟨_, rfl⟩
  | hbit md b => exact ⟨_, rfl⟩
  | hupd md sa sb => exact ⟨_, rfl⟩
  | hcat md sa sb => exact ⟨_, rfl⟩
  | _ => exact absurd rfl h

/-- Settles O11: the check of the M operands comes first (`exec_eq_guarded`). -/
theorem badMatrixFieldRaisesIllegalCmd : Obligations.BadMatrixFieldRaisesIllegalCmd := by
  intro i s hbad
  have hoperands : i.mOperands ≠ [] := fun hnil => by simp [Instr.wellFormed, hnil] at hbad
  obtain ⟨e, hexec⟩ := exec_eq_guarded i s hoperands
  rw [guardM_neg hbad] at hexec
  exact ⟨_, hexec, s.takeFault_faulted .illegalCmd⟩

end Sys2Proof.Machine
end

section
/-! PROOF. The engine's step (40_control.md R73, R74, R76): the command it runs, the idle engine, and the bound on
the steps of a run. -/

namespace Sys2Proof.Machine

variable {s t : State}

/-! ### One turn of the engine -/

/-- A turn during a run executes the command at CPC (40_control.md R73). -/
theorem engineTurn_of_command {i : Instr} (hb : s.busy = true) (hr : s.resetInput = false)
    (hc : s.command = .ok i) : engineTurn s = exec i s := by
  rw [engineTurn, if_pos (by simp [hb, hr]), hc]

/-- The idle engine's turn keeps the state (40_control.md R73; log 12). -/
theorem engineTurn_of_idle (hb : s.busy = false) : engineTurn s = .next s := if_neg (by simp [hb])

/-- The bytes at a CPC that can be fetched from are the command they decode to (40_control.md R74). -/
theorem State.command_of_decode {i : Instr} {rest : List Byte} (hf : s.Fetchable)
    (hd : decode s.fetchBytes = .ok (i, rest)) : s.command = .ok i := by
  rw [State.command, if_pos hf, hd]

/-- Fetch and decode do not look at the turns to come. -/
theorem State.command_setTurns (s : State) (ts : List Turn) : ({ s with turns := ts } : State).command = s.command :=
  rfl

/-- Settles O5: the bytes at CPC are `State.command`, which a turn of the engine executes. -/
theorem stepRunsDecodedCommand : Obligations.StepRunsDecodedCommand := by
  intro s i rest hb hr halign hin hdecode
  have hcommand : s.command = .ok i := State.command_of_decode ⟨halign, hin⟩ hdecode
  obtain ⟨hnil, hengine, -⟩ := step_of_turns (s := s)
  refine ⟨fun hts => ?_, fun ts hts => ?_⟩
  · exact (hnil hts).trans (engineTurn_of_command hb hr hcommand)
  · exact (hengine ts hts).trans (engineTurn_of_command hb hr ((s.command_setTurns ts).trans hcommand))

/-- Settles O8: whichever way the engine has the turn, an idle one keeps the state (`engineTurn_of_idle`). -/
theorem idleEngineKeepsItsState : Obligations.IdleEngineKeepsItsState := by
  intro s hb
  obtain ⟨hnil, hengine, -⟩ := step_of_turns (s := s)
  refine ⟨fun hts => ?_, fun ts hts => ?_⟩
  · exact (hnil hts).trans (engineTurn_of_idle hb)
  · exact (hengine ts hts).trans (engineTurn_of_idle hb)

/-! ### A run ends (40_control.md R76) -/

theorem State.fetchable_of_command {i : Instr} (hc : s.command = .ok i) : s.Fetchable := by
  by_contra hf
  rw [State.command, if_neg hf] at hc
  cases hc

/-- A step of a run ends it, or completes a command fetched from inside MEM. -/
theorem Running.step_ends_or_completes (h : Running s) :
    ∃ t, step s = .next t ∧ (t.busy = false ∨ s.Fetchable ∧ Completed s t) := by
  cases hc : s.command with
  | error c =>
    obtain ⟨t, hstep, hfault⟩ := h.step_of_command_error hc
    exact ⟨t, hstep, .inl hfault.busy⟩
  | ok i =>
    obtain ⟨t, hexec⟩ := exec_isNext i s
    refine ⟨t, (h.step_of_command hc).trans hexec, ?_⟩
    rcases exec_cases hexec with ⟨-, rfl⟩ | ⟨-, u, hu, rfl⟩ | ⟨c, -, rfl⟩
    · exact .inl rfl
    · exact .inr ⟨State.fetchable_of_command hc, hu.completed⟩
    · exact .inl rfl

/-- The most steps a run from `s` takes: `floor((MEM_SIZE - c) / 4) + 1` from CPC = c inside MEM, else 1. -/
def State.stepBound (s : State) : Nat :=
  if s.cpc.toNat < s.memSize then (s.memSize - s.cpc.toNat) / 4 + 1 else 1

theorem State.stepBound_pos (s : State) : 0 < s.stepBound := by unfold State.stepBound; split <;> omega

/-- A command fetched from inside MEM is followed by one 4 bytes on, with one step less to take: no address of
MEM wraps. -/
theorem Completed.stepBound_lt (h : Completed s t) (hf : s.Fetchable) (hsize : s.memSize < 2 ^ 32) :
    t.stepBound < s.stepBound := by
  obtain ⟨-, hin⟩ := hf
  have hcpc : t.cpc.toNat = s.cpc.toNat + 4 := by
    rw [h.cpc, BitVec.toNat_add, BitVec.toNat_ofNat]
    omega
  simp only [State.stepBound, h.memSize, hcpc]
  split_ifs <;> omega

/-- A run of at most `n` steps from `s` reaches a state with BUSY = 0. -/
def EndsWithin (n : Nat) (s : State) : Prop :=
  ∃ k t, k ≤ n ∧ Host.Core.run Sys2Proof.core k s = .next t ∧ t.busy = false

theorem EndsWithin.of_idle (h : s.busy = false) (n : Nat) : EndsWithin n s := ⟨0, s, n.zero_le, rfl, h⟩

theorem core_run_succ (h : step s = .next t) (k : Nat) :
    Host.Core.run Sys2Proof.core (k + 1) s = Host.Core.run Sys2Proof.core k t := by
  have hcore : Sys2Proof.core.step s = .next t := h
  simp only [Host.Core.run, hcore]

theorem EndsWithin.of_step {n : Nat} (h : EndsWithin n t) (hs : step s = .next t) : EndsWithin (n + 1) s := by
  obtain ⟨k, u, hk, hrun, hu⟩ := h
  exact ⟨k + 1, u, by omega, (core_run_succ hs k).trans hrun, hu⟩

/-- By induction on the steps that are left: a step ends the run or uses one of them up. -/
theorem Running.endsWithin {n : Nat} : ∀ {s : State}, Running s → s.memSize < 2 ^ 32 → s.stepBound ≤ n →
    EndsWithin n s := by
  induction n with
  | zero =>
    intro s _ _ hn
    have := s.stepBound_pos
    omega
  | succ n ih =>
    intro s hrun hsize hn
    obtain ⟨t, hstep, hidle | ⟨hf, hcompleted⟩⟩ := hrun.step_ends_or_completes
    · exact (EndsWithin.of_idle hidle n).of_step hstep
    · have hlt := hcompleted.stepBound_lt hf hsize
      have hends : EndsWithin n t :=
        ih (hrun.of_completed hcompleted) (hcompleted.memSize ▸ hsize) (by omega)
      exact hends.of_step hstep

/-- Settles O15: `Running.endsWithin` at the bound itself. -/
theorem everyRunEnds : Obligations.EveryRunEnds :=
  fun _ hrun hlegal => hrun.endsWithin (legalMemSize_lt hlegal) le_rfl

end Sys2Proof.Machine
end

section
/-! PROOF. The control and scalar commands (40_control.md R77 to R84): what a command that writes one S register
or a range of MEM changes and leaves, then each command's value. -/

namespace Sys2Proof.Machine

variable {s t : State}

/-- Settles O18: HALT ends in `State.halted_haltedFrom`, NOP has no effect but the advance of CPC. -/
theorem controlCommands : Obligations.ControlCommands := fun s =>
  ⟨⟨_, rfl, s.halted_haltedFrom⟩,
    ⟨_, rfl, (Effect.nothing (i := .nop) rfl).completed, fun _ => rfl, fun _ => rfl, fun _ => rfl⟩⟩

/-! ### A command that writes one S register -/

/-- From `s` a command completed in `t` with `S[d] <- v` as its one effect; at S0 the write is discarded
(10_state.md R23). -/
structure WroteS (s t : State) (d : Reg) (v : Word) : Prop where
  completed : Completed s t
  fregs : SameF s t
  mem : SameMem s t
  others : SameSBut s t d
  value : t.sreg d = if d = 0#4 then 0#32 else v

theorem wroteS_setS (s : State) (d : Reg) (v : Word) : WroteS s (s.setS d v).advance.tick d v where
  completed := completed_setS s d v
  fregs := fun q => s.setS_freg d v q
  mem := fun a => s.setS_memByte? d v a
  others := fun q hq => by simp [State.sreg_setS, hq]
  value := by
    by_cases hd : d = 0#4
    · simp [hd]
    · simp [State.sreg_setS, hd]

theorem WroteS.sreg_of_ne {d : Reg} {v : Word} (h : WroteS s t d v) (hd : d ≠ 0#4) : t.sreg d = v := by
  rw [h.value, if_neg hd]

theorem WroteS.sreg_of_zero {d : Reg} {v : Word} (h : WroteS s t d v) (hd : d = 0#4) : t.sreg d = 0#32 := by
  rw [h.value, if_pos hd]

/-! ### LIL, LIH, ADDI -/

/-- `zext_32(imm16)` is the immediate below a zero high half (30_encoding.md R67). -/
theorem zext32_eq_append (imm : Imm) : zext32 imm = 0#16 ++ imm := by
  apply BitVec.eq_of_toNat_eq
  have := imm.isLt
  simp only [zext32, BitVec.toNat_setWidth, toNat_append_eq, BitVec.toNat_ofNat]
  omega

/-- LIH's result is the immediate above the old low half (40_control.md R81). -/
theorem highHalf_eq_append (imm : Imm) (old : Word) : highHalf imm old = imm ++ old.extractLsb' 0 16 := by
  have hlow : old &&& 0x0000FFFF#32 = 0#16 ++ old.extractLsb' 0 16 := by
    apply BitVec.eq_of_toNat_eq
    simp only [BitVec.toNat_and, BitVec.toNat_ofNat, toNat_append_eq, toNat_field]
    rw [show 0x0000FFFF % 2 ^ 32 = 2 ^ 16 - 1 by norm_num, Nat.and_two_pow_sub_one_eq_mod]
    omega
  have hhigh : imm.setWidth 32 <<< 16 = imm ++ 0#16 := by
    apply BitVec.eq_of_toNat_eq
    have := imm.isLt
    simp only [BitVec.toNat_shiftLeft, BitVec.toNat_setWidth, Nat.shiftLeft_eq, toNat_append_eq, BitVec.toNat_ofNat]
    omega
  rw [highHalf, hhigh, hlow, BitVec.or_append]
  simp

theorem exec_lil_wroteS (s : State) (sd : Reg) (imm : Imm) :
    ∃ t, exec (.lil sd imm) s = .next t ∧ WroteS s t sd (0#16 ++ imm) :=
  ⟨_, rfl, zext32_eq_append imm ▸ wroteS_setS s sd (zext32 imm)⟩

theorem exec_lih_wroteS (s : State) (sd : Reg) (imm : Imm) :
    ∃ t, exec (.lih sd imm) s = .next t ∧ WroteS s t sd (imm ++ (s.sreg sd).extractLsb' 0 16) :=
  ⟨_, rfl, highHalf_eq_append imm (s.sreg sd) ▸ wroteS_setS s sd (highHalf imm (s.sreg sd))⟩

theorem exec_addi_wroteS (s : State) (sd sa : Reg) (imm : Imm) :
    ∃ t, exec (.addi sd sa imm) s = .next t ∧ WroteS s t sd (s.sreg sa + sext32 imm) :=
  ⟨_, rfl, wroteS_setS s sd _⟩

/-- Settles O19: each of the two is a write of one S register (`WroteS`). -/
theorem loadImmediateCommands : Obligations.LoadImmediateCommands := by
  refine fun s sd imm => ⟨?_, ?_⟩
  · obtain ⟨t, ht, hw⟩ := exec_lil_wroteS s sd imm
    exact ⟨t, ht, hw.completed, hw.fregs, hw.mem, hw.others, hw.value⟩
  · obtain ⟨t, ht, hw⟩ := exec_lih_wroteS s sd imm
    exact ⟨t, ht, hw.completed, hw.fregs, hw.mem, hw.others, hw.value⟩

/-- Settles O20: ADDI writes one S register with the sum that is also an effective address (`State.ea_eq_emod`). -/
theorem addImmediateWraps : Obligations.AddImmediateWraps := by
  intro s sd sa imm
  obtain ⟨t, ht, hw⟩ := exec_addi_wroteS s sd sa imm
  refine ⟨t, ht, hw.completed, hw.fregs, hw.mem, hw.others, hw.sreg_of_zero, fun hd => ?_⟩
  rw [hw.sreg_of_ne hd]
  exact s.ea_eq_emod sa imm

/-! ### The range check of SLD and SST -/

/-- A nonempty range that leaves MEM is the fault MEM_RANGE (20_memory.md R43). -/
theorem settle_checkRange_faulted (s : State) {a n : Nat} (e : Except Cause State) (hn : n ≠ 0)
    (h : s.memSize < a + n) : ∃ t, s.settle (s.checkRange a n e) = .next t ∧ Faulted s t .memRange := by
  have hout : ¬s.InRange a n := by simp only [State.InRange, not_or]; omega
  exact ⟨_, congrArg s.settle (State.checkRange_neg hout e), s.takeFault_faulted .memRange⟩

/-- A range inside MEM lets the command have its effect. -/
theorem settle_checkRange_ok (s u : State) {a n : Nat} (h : a + n ≤ s.memSize) :
    s.settle (s.checkRange a n (.ok u)) = .next u.advance.tick :=
  congrArg s.settle (State.checkRange_pos (.inr h) _)

/-! ### SLD -/

/-- The 32-bit read of four stable bytes has the first as its top byte (20_memory.md R48). -/
theorem Holds.memRead32 {a : Nat} {b3 b2 b1 b0 : Byte} (h : Holds s a [b3, b2, b1, b0]) (p : ReadPort) :
    s.memRead32 p a = b3 ++ b2 ++ b1 ++ b0 := by
  have hbytes : s.memBytes p a 4 = [b3, b2, b1, b0] := h.memBytes p
  apply BitVec.eq_of_toNat_eq
  rw [State.memRead32, hbytes]
  simp only [be_cons, be_nil, toNat_append_eq, BitVec.toNat_ofNat, List.length_cons, List.length_nil]
  omega

theorem exec_sld_wroteS (s : State) (sd sb : Reg) (imm : Imm) (hin : s.ea sb imm + 4 ≤ s.memSize) :
    ∃ t, exec (.sld sd sb imm) s = .next t ∧ WroteS s t sd (s.memRead32 .data (s.ea sb imm)) :=
  ⟨_, settle_checkRange_ok s _ hin, wroteS_setS s sd _⟩

/-- Settles O21: inside MEM SLD writes one S register, with the word it reads (`Holds.memRead32`). -/
theorem scalarLoad : Obligations.ScalarLoad := by
  refine fun s sd sb imm => ⟨fun hin => ?_, settle_checkRange_faulted s _ (by decide)⟩
  obtain ⟨t, ht, hw⟩ := exec_sld_wroteS s sd sb imm hin
  refine ⟨t, ht, hw.completed, hw.fregs, hw.mem, hw.others, hw.sreg_of_zero, fun b3 b2 b1 b0 hd hheld => ?_⟩
  rw [hw.sreg_of_ne hd, hheld.memRead32]

/-! ### A command that stores bytes -/

/-- From `s` a command completed in `t` with the bytes `bs` stored at `a` as its one effect. -/
structure WroteMem (s t : State) (a : Nat) (bs : List Byte) : Prop where
  completed : Completed s t
  fregs : SameF s t
  sregs : SameS s t
  outside : SameMemOutside s t a bs.length
  stored : Stored s t a bs

theorem wroteMem_storeBytes (s : State) (a : Nat) (bs : List Byte) :
    WroteMem s (s.storeBytes a bs).advance.tick a bs where
  completed := completed_storeBytes s a bs
  fregs := fun _ => rfl
  sregs := fun _ => rfl
  outside := fun k hk => s.memByte?_storeBytes_outside a k bs hk
  stored := fun k hk => by
    have hin : a ≤ a + k ∧ a + k < a + bs.length := by omega
    rw [State.tick_memByte?, State.advance_memByte?, State.memByte?_storeBytes, dif_pos hin]
    simp

/-! ### SST -/

/-- The bytes of a word, most significant first, as its bit fields (20_memory.md R48). -/
theorem bytesOfWord_eq (w : Word) : bytesOfWord w =
    [w.extractLsb' 24 8, w.extractLsb' 16 8, w.extractLsb' 8 8, w.extractLsb' 0 8] := by
  simp [bytesOfWord, beBytes, BitVec.extractLsb', Nat.shiftRight_eq_div_pow]

theorem exec_sst_wroteMem (s : State) (ss sb : Reg) (imm : Imm) (hin : s.ea sb imm + 4 ≤ s.memSize) :
    ∃ t, exec (.sst ss sb imm) s = .next t ∧ WroteMem s t (s.ea sb imm) (bytesOfWord (s.sreg ss)) :=
  ⟨_, settle_checkRange_ok s _ hin, wroteMem_storeBytes s _ _⟩

/-- Settles O22: inside MEM SST stores the bytes of its register's word (`bytesOfWord_eq`). -/
theorem scalarStore : Obligations.ScalarStore := by
  refine fun s ss sb imm => ⟨fun hin => ?_, settle_checkRange_faulted s _ (by decide)⟩
  obtain ⟨t, ht, hw⟩ := exec_sst_wroteMem s ss sb imm hin
  rw [bytesOfWord_eq] at hw
  exact ⟨t, ht, hw.completed, hw.fregs, hw.sregs, hw.outside, hw.stored⟩

end Sys2Proof.Machine
end

section
/-! PROOF. The polynomials that bit strings stand for (00_scope.md R9), and the field functions as arithmetic in
GF(2)[x] / (P) (41_gf127.md R85 to R90). -/

namespace Sys2Proof.Machine

open Polynomial

/-! ### The polynomial of a bit string -/

/-- The polynomial over GF(2) whose coefficient of x^i is bit i of `b`, for any width: `toPoly` at width 127, and
the polynomials up to degree 127 that R91's loop works on. -/
noncomputable def bitPoly {w : Nat} (b : BitVec w) : (ZMod 2)[X] :=
  ∑ i ∈ Finset.range w, if b.getLsbD i then X ^ i else 0

theorem toPoly_eq_bitPoly (e : Elem) : toPoly e = bitPoly e := rfl

/-- A bit as an element of GF(2). -/
def bitVal (b : Bool) : ZMod 2 := if b then 1 else 0

@[simp] theorem bitVal_true : bitVal true = 1 := rfl

@[simp] theorem bitVal_false : bitVal false = 0 := rfl

theorem bitVal_xor (a b : Bool) : bitVal (a ^^ b) = bitVal a + bitVal b := by
  revert a b; decide

theorem bitVal_injective : Function.Injective bitVal := by
  unfold Function.Injective; decide

section
variable {w : Nat}

theorem coeff_bitPoly (b : BitVec w) (n : Nat) : (bitPoly b).coeff n = bitVal (b.getLsbD n) := by
  have hterm (i : Nat) : (if b.getLsbD i then (X : (ZMod 2)[X]) ^ i else 0).coeff n =
      if n = i then bitVal (b.getLsbD i) else 0 := by
    cases b.getLsbD i <;> simp [coeff_X_pow]
  simp only [bitPoly, finsetSum_coeff, hterm, Finset.sum_ite_eq, Finset.mem_range]
  by_cases hn : n < w
  · rw [if_pos hn]
  · rw [if_neg hn, BitVec.getLsbD_of_ge b n (Nat.le_of_not_lt hn), bitVal_false]

theorem bitPoly_injective : Function.Injective (bitPoly (w := w)) := fun a b h =>
  BitVec.eq_of_getLsbD_eq fun i _ => bitVal_injective (by rw [← coeff_bitPoly, ← coeff_bitPoly, h])

@[simp] theorem bitPoly_zero : bitPoly (0#w) = 0 := by
  ext n; simp [coeff_bitPoly]

/-- XOR adds the polynomials (41_gf127.md R85, R87). -/
theorem bitPoly_xor (a b : BitVec w) : bitPoly (a ^^^ b) = bitPoly a + bitPoly b := by
  ext n; simp only [coeff_add, coeff_bitPoly, BitVec.getLsbD_xor, bitVal_xor]

theorem degree_bitPoly_lt (b : BitVec w) : (bitPoly b).degree < w := by
  rw [degree_lt_iff_coeff_zero]
  intro n hn
  rw [coeff_bitPoly, BitVec.getLsbD_of_ge b n hn, bitVal_false]

end

theorem bitPoly_twoPow {w i : Nat} (hi : i < w) : bitPoly (BitVec.twoPow w i) = X ^ i := by
  ext n
  rw [coeff_bitPoly, coeff_X_pow, BitVec.getLsbD_twoPow]
  by_cases hn : n = i
  · simp [hn, hi]
  · simp [hn, Ne.symm hn]

theorem toPoly_xPow {j : Nat} (hj : j < 127) : toPoly (xPow j) = X ^ j := bitPoly_twoPow hj

theorem toPoly_ONE : toPoly ONE = 1 := by
  rw [← pow_zero X, ← toPoly_xPow (by decide), xPow, BitVec.shiftLeft_zero]

/-! ### The reduction polynomial -/

/-- The one place that unfolds `polyP`: comparing its powers by evaluation is out of reach. -/
theorem polyP_eq : polyP = X ^ 127 + X ^ 63 + 1 := by
  unfold polyP
  rfl

theorem natDegree_polyP : polyP.natDegree = 127 := by
  rw [polyP_eq]
  compute_degree!

theorem monic_polyP : polyP.Monic := by
  rw [polyP_eq]
  monicity!

theorem degree_polyP : polyP.degree = ((127 : Nat) : WithBot Nat) := by
  rw [degree_eq_natDegree monic_polyP.ne_zero, natDegree_polyP]

/-- An element is reduced modulo P. -/
theorem degree_toPoly_lt (e : Elem) : (toPoly e).degree < polyP.degree := by
  rw [degree_polyP]
  exact degree_bitPoly_lt e

theorem coeff_polyP (n : Nat) :
    polyP.coeff n = bitVal ((decide (n = 0) || decide (n = 63)) ^^ decide (n = 127)) := by
  simp only [polyP_eq, coeff_add, coeff_X_pow, coeff_one]
  by_cases h127 : n = 127
  · simp [h127]
  · by_cases h63 : n = 63
    · simp [h63]
    · by_cases h0 : n = 0 <;> simp [h127, h63, h0]

/-! ### Multiplication by x -/

/-- The bits of `fmulx(e)`: those of e one place up, with x^127 replaced by x^63 + 1 (41_gf127.md R88). -/
theorem getLsbD_fmulx (e : Elem) {i : Nat} (h : i < 127) :
    (fmulx e).getLsbD i =
      ((decide (0 < i) && e.getLsbD (i - 1)) ^^ ((decide (i = 0) || decide (i = 63)) && e.getLsbD 126)) := by
  have htop : ((hi e <<< 1) ||| (lo e >>> 63)).getLsbD 63 = e.getLsbD 126 := by
    simp [-BitVec.getLsbD_eq_getElem, getLsbD_hi]
  have hshift : (if i < 64 then (lo e <<< 1).getLsbD i else ((hi e <<< 1) ||| (lo e >>> 63)).getLsbD (i - 64)) =
      (decide (0 < i) && e.getLsbD (i - 1)) := by
    rcases Nat.lt_or_ge i 64 with hlo | hhi
    · cases i with
      | zero => simp
      | succ i => simp [-BitVec.getLsbD_eq_getElem, getLsbD_lo, hlo, Nat.lt_of_succ_lt hlo]
    · obtain ⟨k, rfl⟩ := Nat.exists_eq_add_of_le hhi
      cases k with
      | zero => simp [-BitVec.getLsbD_eq_getElem, getLsbD_lo]
      | succ k =>
        have hk : k < 64 := by omega
        have hk' : k + 1 < 64 := by omega
        have hcarry : ¬63 + (k + 1) < 64 := by omega
        have hidx : 64 + (k + 1) - 1 = 64 + k := by omega
        simp [-BitVec.getLsbD_eq_getElem, getLsbD_hi, getLsbD_lo, hk, hk', hcarry, hidx]
  rw [fmulx, getLsbD_reduceTop _ _ h, htop, hshift]

/-- `fmulx(e)` is x times e, less P where that has degree 127 (41_gf127.md R88). -/
theorem toPoly_fmulx (e : Elem) :
    toPoly (fmulx e) = X * toPoly e + if e.getLsbD 126 then polyP else 0 := by
  have hP (n : Nat) : (if e.getLsbD 126 then polyP else 0).coeff n =
      bitVal (((decide (n = 0) || decide (n = 63)) ^^ decide (n = 127)) && e.getLsbD 126) := by
    cases e.getLsbD 126 <;> simp [coeff_polyP]
  have hX (n : Nat) : (X * toPoly e).coeff n = bitVal (decide (0 < n) && e.getLsbD (n - 1)) := by
    cases n with
    | zero => simp
    | succ n => simp [-BitVec.getLsbD_eq_getElem, toPoly_eq_bitPoly, coeff_X_mul, coeff_bitPoly]
  ext n
  rw [coeff_add, hP, hX, ← bitVal_xor, toPoly_eq_bitPoly, coeff_bitPoly]
  congr 1
  by_cases hn : n < 127
  · rw [getLsbD_fmulx e hn]
    simp [hn.ne]
  · rw [BitVec.getLsbD_of_ge _ n (Nat.le_of_not_lt hn)]
    by_cases h127 : n = 127
    · subst h127; simp
    · have hhigh : 127 ≤ n - 1 := by omega
      have h0 : n ≠ 0 := by omega
      have h63 : n ≠ 63 := by omega
      rw [BitVec.getLsbD_of_ge _ _ hhigh]
      simp [h127, h0, h63]

/-! ### Elements as residues modulo P -/

/-- The class of an element in GF(2)[x] / (P), where the field functions are plain arithmetic. -/
noncomputable def residue (e : Elem) : AdjoinRoot polyP := AdjoinRoot.mk polyP (toPoly e)

/-- An element is the reduced polynomial of its class. -/
theorem toPoly_eq_modByMonicHom (e : Elem) : toPoly e = AdjoinRoot.modByMonicHom monic_polyP (residue e) := by
  rw [residue, AdjoinRoot.modByMonicHom_mk, (modByMonic_eq_self_iff monic_polyP).mpr (degree_toPoly_lt e)]

theorem residue_injective : Function.Injective residue := fun a b h =>
  bitPoly_injective <| show toPoly a = toPoly b by rw [toPoly_eq_modByMonicHom, h, ← toPoly_eq_modByMonicHom]

/-- The element whose class is that of `q` stands for `pmod(q, P)`. -/
theorem toPoly_eq_modByMonic {e : Elem} {q : (ZMod 2)[X]} (h : residue e = AdjoinRoot.mk polyP q) :
    toPoly e = q %ₘ polyP := by
  rw [toPoly_eq_modByMonicHom, h, AdjoinRoot.modByMonicHom_mk]

@[simp] theorem residue_ZERO : residue ZERO = 0 := by
  rw [residue, toPoly_eq_bitPoly, ZERO, bitPoly_zero, map_zero]

@[simp] theorem residue_ONE : residue ONE = 1 := by
  rw [residue, toPoly_ONE, map_one]

theorem residue_xor (a b : Elem) : residue (a ^^^ b) = residue a + residue b := by
  rw [residue, toPoly_eq_bitPoly, bitPoly_xor, map_add]
  rfl

theorem residue_fmulx (e : Elem) : residue (fmulx e) = AdjoinRoot.root polyP * residue e := by
  have hred : AdjoinRoot.mk polyP (if e.getLsbD 126 then polyP else 0) = 0 := by
    cases e.getLsbD 126 <;> simp
  rw [residue, toPoly_fmulx, map_add, hred, add_zero, map_mul, AdjoinRoot.mk_X, residue]

/-- Settles O25: `residue_fmulx` read back as polynomials, and for fmulx1 the sum of R89. -/
theorem fmulxAndFmulx1ModP : Obligations.FmulxAndFmulx1ModP := by
  refine fun e => ⟨toPoly_eq_modByMonic ?_, fmulx1_eq_fmulx_xor e, toPoly_eq_modByMonic ?_⟩
  · rw [residue_fmulx, map_mul, AdjoinRoot.mk_X, residue]
  · rw [fmulx1_eq_fmulx_xor, residue_xor, residue_fmulx, map_mul, map_add, map_one, AdjoinRoot.mk_X, residue]
    ring

/-! ### Multiplication -/

/-- The polynomial of the bits of `b` below `n`. -/
noncomputable def lowPoly (b : Elem) (n : Nat) : (ZMod 2)[X] :=
  ∑ i ∈ Finset.range n, if b.getLsbD i then X ^ i else 0

/-- The running copy of `a` is x^n times it (41_gf127.md R90). -/
theorem residue_fmulUpTo_snd (a b : Elem) (n : Nat) :
    residue (fmulUpTo a b n).2 = AdjoinRoot.root polyP ^ n * residue a := by
  induction n with
  | zero => simp [fmulUpTo]
  | succ n ih => rw [fmulUpTo, residue_fmulx, ih, pow_succ', mul_assoc]

/-- The accumulator is the product of `a` with the bits of `b` done so far (41_gf127.md R90). -/
theorem residue_fmulUpTo_fst (a b : Elem) (n : Nat) :
    residue (fmulUpTo a b n).1 = residue a * AdjoinRoot.mk polyP (lowPoly b n) := by
  induction n with
  | zero => simp [fmulUpTo, lowPoly]
  | succ n ih =>
    rw [lowPoly, Finset.sum_range_succ, ← lowPoly, map_add, mul_add, ← ih, fmulUpTo]
    cases b.getLsbD n with
    | false => simp
    | true => simp [residue_xor, residue_fmulUpTo_snd, mul_comm]

theorem residue_fmul (a b : Elem) : residue (fmul a b) = residue a * residue b := residue_fmulUpTo_fst a b 127

/-- Settles O26: `residue_fmul` read back as polynomials. -/
theorem fmulIsProductModP : Obligations.FmulIsProductModP := fun a b =>
  toPoly_eq_modByMonic (by rw [residue_fmul, map_mul, residue, residue])

/-! ### The laws of the field operations -/

theorem fmul_comm (a b : Elem) : fmul a b = fmul b a :=
  residue_injective (by rw [residue_fmul, residue_fmul, mul_comm])

theorem fmul_assoc (a b c : Elem) : fmul (fmul a b) c = fmul a (fmul b c) :=
  residue_injective (by simp only [residue_fmul, mul_assoc])

theorem fmul_xor (a b c : Elem) : fmul a (b ^^^ c) = fmul a b ^^^ fmul a c :=
  residue_injective (by simp only [residue_fmul, residue_xor, mul_add])

/-- Settles O27: the laws of the quotient ring, through `residue_injective`. -/
theorem fieldLaws : Obligations.FieldLaws := fun a b c =>
  ⟨BitVec.xor_self, BitVec.xor_zero, fmul_comm a b, fmul_assoc a b c, fmul_xor a b c, fmul_by_one a, fmul_by_zero a⟩

end Sys2Proof.Machine
end

section
/-! PROOF. The reduction polynomial is irreducible (41_gf127.md R85), by Rabin's test. -/

namespace Sys2Proof.Machine

open Polynomial

/-! ### The Frobenius powers of a root of P

`x P = x^128 + x^64 + x` has 2-power exponents only, so along the Frobenius powers `x^(2^k)` of a root the equation
P = 0 is a linear recurrence of order 7, and its period is 127: that is Rabin's `x^(2^127) = x` modulo P. -/

section
variable {R : Type*} [CommRing R] [CharP R 2]

/-- A recurrence of two terms, read twice, holds at twice the distances: the cross terms cancel in
characteristic 2. -/
theorem recurrence_double {a : Nat → R} {m n : Nat} (h : ∀ k, a k = a (k + m) + a (k + n)) (k : Nat) :
    a k = a (k + 2 * m) + a (k + 2 * n) := by
  have hcross : a (k + m + n) + a (k + n + m) = 0 := by rw [Nat.add_right_comm, CharTwo.add_self_eq_zero]
  rw [h k, h (k + m), h (k + n), Nat.two_mul, Nat.two_mul, ← Nat.add_assoc, ← Nat.add_assoc]
  linear_combination hcross

/-- The recurrence of t^7 + t^6 + 1 has period 127, as t is of order 127 modulo that polynomial. -/
theorem recurrence_period {a : Nat → R} (h7 : ∀ k, a k = a (k + 7) + a (k + 6)) (k : Nat) :
    a k = a (k + 127) := by
  have h14 (k : Nat) : a k = a (k + 14) + a (k + 12) := recurrence_double h7 k
  have h28 (k : Nat) : a k = a (k + 28) + a (k + 24) := recurrence_double h14 k
  have h56 (k : Nat) : a k = a (k + 56) + a (k + 48) := recurrence_double h28 k
  have h63 (k : Nat) : a k = a (k + 63) + a (k + 60) := by
    have e48 : a (k + 48) = a (k + 62) + a (k + 60) := h14 (k + 48)
    have e56 : a (k + 56) = a (k + 63) + a (k + 62) := h7 (k + 56)
    have htwice : a (k + 62) + a (k + 62) = 0 := CharTwo.add_self_eq_zero _
    rw [h56 k, e48, e56]
    linear_combination htwice
  have h126 (k : Nat) : a k = a (k + 126) + a (k + 120) := recurrence_double h63 k
  have e120 : a (k + 120) = a (k + 127) + a (k + 126) := h7 (k + 120)
  have htwice : a (k + 126) + a (k + 126) = 0 := CharTwo.add_self_eq_zero _
  rw [h126 k, e120]
  linear_combination htwice

/-- Rabin's condition for a root of P. -/
theorem pow_two_pow_127_of_root {r : R} (h : r ^ 2 ^ 7 = r ^ 2 ^ 6 + r) : r ^ 2 ^ 127 = r := by
  have hrec (k : Nat) : r ^ 2 ^ k = r ^ 2 ^ (k + 7) + r ^ 2 ^ (k + 6) := by
    have hpow (j : Nat) : r ^ 2 ^ (k + j) = (r ^ 2 ^ j) ^ 2 ^ k := by rw [← pow_mul, ← pow_add, Nat.add_comm]
    have htwice : (r ^ 2 ^ 6) ^ 2 ^ k + (r ^ 2 ^ 6) ^ 2 ^ k = 0 := CharTwo.add_self_eq_zero _
    rw [hpow 7, hpow 6, h, add_pow_char_pow]
    linear_combination -htwice
  have hperiod : r ^ 2 ^ 0 = r ^ 2 ^ (0 + 127) := recurrence_period (a := fun k => r ^ 2 ^ k) hrec 0
  rw [pow_zero, pow_one, Nat.zero_add] at hperiod
  exact hperiod.symm

end

/-! ### Rabin's test -/

theorem charP_adjoinRoot_polyP : CharP (AdjoinRoot polyP) 2 := by
  have hdeg : polyP.degree ≠ 0 := by
    rw [degree_polyP]
    decide
  exact charP_of_injective_ringHom (AdjoinRoot.of.injective_of_degree_ne_zero hdeg) 2

theorem root_polyP_recurrence :
    AdjoinRoot.root polyP ^ 2 ^ 7 = AdjoinRoot.root polyP ^ 2 ^ 6 + AdjoinRoot.root polyP := by
  have hchar := charP_adjoinRoot_polyP
  have hroot := congrArg (AdjoinRoot.mk polyP) polyP_eq
  rw [AdjoinRoot.mk_self, map_add, map_add, map_pow, map_pow, AdjoinRoot.mk_X, map_one] at hroot
  have htwo : (2 : AdjoinRoot polyP) = 0 := CharTwo.two_eq_zero
  linear_combination (-AdjoinRoot.root polyP) * hroot -
    (AdjoinRoot.root polyP ^ 2 ^ 6 + AdjoinRoot.root polyP) * htwo

/-- A power of x that is x in GF(2)[x] / (P). -/
theorem polyP_dvd_X_pow_sub_X {n : Nat} (h : AdjoinRoot.root polyP ^ n = AdjoinRoot.root polyP) :
    polyP ∣ X ^ n - X := by
  rwa [← AdjoinRoot.mk_eq_mk, map_pow, AdjoinRoot.mk_X]

/-- P has no root in GF(2): P(0) = P(1) = 1 (41_gf127.md R85). -/
theorem not_isRoot_polyP (r : ZMod 2) : ¬polyP.IsRoot r := by
  have hr : r = 0 ∨ r = 1 := by
    revert r
    decide
  rw [polyP_eq, IsRoot, eval_add, eval_add, eval_pow, eval_pow, eval_X, eval_one]
  rcases hr with rfl | rfl
  · simp
  · rw [one_pow, one_pow]
    decide

/-- `x^(2^127) = x` modulo P (41_gf127.md R85). -/
theorem polyP_dvd_X_pow_card_pow_sub_X : polyP ∣ X ^ Nat.card (ZMod 2) ^ 127 - X := by
  have hchar := charP_adjoinRoot_polyP
  refine polyP_dvd_X_pow_sub_X ?_
  rw [Nat.card_zmod]
  exact pow_two_pow_127_of_root root_polyP_recurrence

/-- Rabin's test: a factor of P has a degree that divides 127, and none has degree 1 (41_gf127.md R85). -/
theorem irreducible_polyP : Irreducible polyP := by
  have hpos : 0 < polyP.natDegree := by
    rw [natDegree_polyP]
    decide
  obtain ⟨g, -, hirr, (hdvd : g ∣ polyP)⟩ :=
    exists_monic_irreducible_factor polyP (not_isUnit_of_natDegree_pos polyP hpos)
  have hrabin : g ∣ X ^ Nat.card (ZMod 2) ^ 127 - X := hdvd.trans polyP_dvd_X_pow_card_pow_sub_X
  have hg : g.natDegree ∣ 127 := hirr.natDegree_dvd_of_dvd_X_pow_card_pow_sub_X hrabin
  rcases (Nat.dvd_prime (by norm_num)).mp hg with h1 | h127
  · obtain ⟨r, hr⟩ := exists_root_of_degree_eq_one (degree_eq_iff_natDegree_eq_of_pos Nat.one_pos |>.mpr h1)
    exact absurd (hr.dvd hdvd) (not_isRoot_polyP r)
  · have hassoc : Associated g polyP :=
      associated_of_dvd_of_natDegree_le hdvd monic_polyP.ne_zero (by rw [natDegree_polyP, h127])
    exact hassoc.irreducible hirr

end Sys2Proof.Machine
end

section
/-! PROOF. R91's loop finds the inverse of every nonzero element (41_gf127.md R91): what the degree, the shift and
XOR do to polynomials of degree up to 127, the loop's invariant, and its variant deg(u) + deg(v). -/

namespace Sys2Proof.Machine

open Polynomial

/-! ### Polynomials of degree up to 127 as 128 bits -/

theorem natDegree_bitPoly (b : BitVec 128) : (bitPoly b).natDegree = deg b := by
  by_cases hb : b = 0#128
  · simp [hb, deg]
  · have hne : b.toNat ≠ 0 := fun h => hb (BitVec.eq_of_toNat_eq h)
    refine natDegree_eq_of_le_of_coeff_ne_zero (natDegree_le_iff_coeff_eq_zero.mpr fun n hn => ?_) ?_
    · have hlt : b.toNat < 2 ^ n := (Nat.log2_lt hne).mp hn
      rw [coeff_bitPoly, BitVec.getLsbD, Nat.testBit_lt_two_pow hlt, bitVal_false]
    · have htop : b.getLsbD (deg b) = true := Nat.testBit_log2 hne
      rw [coeff_bitPoly, htop, bitVal_true]
      exact one_ne_zero

theorem bitPoly_eq_zero_iff {w : Nat} {b : BitVec w} : bitPoly b = 0 ↔ b = 0#w := by
  rw [← bitPoly_zero, bitPoly_injective.eq_iff]

theorem monic_of_ne_zero {p : (ZMod 2)[X]} (h : p ≠ 0) : p.Monic := by
  have hbit : ∀ r : ZMod 2, r ≠ 0 → r = 1 := by decide
  exact hbit _ (leadingCoeff_ne_zero.mpr h)

theorem bitPoly_P : bitPoly P = polyP := by
  have hP : P = BitVec.twoPow 128 127 ^^^ BitVec.twoPow 128 63 ^^^ BitVec.twoPow 128 0 := by decide
  rw [hP, bitPoly_xor, bitPoly_xor, bitPoly_twoPow (by decide), bitPoly_twoPow (by decide),
    bitPoly_twoPow (by decide), pow_zero, polyP_eq]

theorem bitPoly_setWidth (e : Elem) : bitPoly (e.setWidth 128) = toPoly e := by
  ext n
  rw [toPoly_eq_bitPoly, coeff_bitPoly, coeff_bitPoly, BitVec.getLsbD_setWidth]
  by_cases hn : n < 128
  · rw [decide_eq_true hn, Bool.true_and]
  · rw [decide_eq_false hn, Bool.false_and, BitVec.getLsbD_of_ge e n (by omega)]

theorem natDegree_bitPoly_lt {w : Nat} (hw : 0 < w) (b : BitVec w) : (bitPoly b).natDegree < w := by
  by_cases hb : bitPoly b = 0
  · rwa [hb, natDegree_zero]
  · exact (natDegree_lt_iff_degree_lt hb).mpr (degree_bitPoly_lt b)

theorem deg_lt (b : BitVec 128) : deg b < 128 := natDegree_bitPoly b ▸ natDegree_bitPoly_lt (by decide) b

/-- A left shift that loses no bit multiplies by x^j. -/
theorem bitPoly_shiftLeft {b : BitVec 128} {j : Nat} (h : deg b + j < 128) :
    bitPoly (b <<< j) = X ^ j * bitPoly b := by
  ext n
  rw [coeff_X_pow_mul', coeff_bitPoly, coeff_bitPoly, BitVec.getLsbD_shiftLeft]
  by_cases hjn : j ≤ n
  · by_cases hn : n < 128
    · simp [hjn, hn, Nat.not_lt.mpr hjn]
    · have hzero : (bitPoly b).coeff (n - j) = 0 :=
        coeff_eq_zero_of_natDegree_lt (by rw [natDegree_bitPoly]; omega)
      rw [if_pos hjn, ← coeff_bitPoly b, hzero, decide_eq_false hn]
      rfl
  · simp [hjn, Nat.lt_of_not_le hjn]

/-! ### One round of the loop -/

/-- The loop's invariant (41_gf127.md R91): c and d times a are u and v modulo P, u and v have no common factor, and
v is not constant. -/
structure EuclidInv (a : Elem) (u v : BitVec 128) (c d : Elem) : Prop where
  coprime : IsCoprime (bitPoly u) (bitPoly v)
  deg_pos : 0 < deg v
  left : residue c * residue a = AdjoinRoot.mk polyP (bitPoly u)
  right : residue d * residue a = AdjoinRoot.mk polyP (bitPoly v)

/-- `u XOR (v << j)` with j = deg(u) - deg(v), which cancels the leading term of u. -/
def reduceBy (u v : BitVec 128) : BitVec 128 := u ^^^ (v <<< (deg u - deg v))

section
variable {a c d : Elem} {u v : BitVec 128}

theorem bitPoly_reduceBy (hle : deg v ≤ deg u) :
    bitPoly (reduceBy u v) = bitPoly u + X ^ (deg u - deg v) * bitPoly v := by
  have hlt := deg_lt u
  rw [reduceBy, bitPoly_xor, bitPoly_shiftLeft (by omega)]

/-- The round lowers deg(u): both terms are monic and of one degree. -/
theorem deg_reduceBy_lt (hv : 0 < deg v) (hle : deg v ≤ deg u) : deg (reduceBy u v) < deg u := by
  have hu0 : bitPoly u ≠ 0 := ne_zero_of_natDegree_gt (n := 0) (by rw [natDegree_bitPoly]; omega)
  have hv0 : bitPoly v ≠ 0 := ne_zero_of_natDegree_gt (n := 0) (by rw [natDegree_bitPoly]; omega)
  have hmu := monic_of_ne_zero hu0
  have hmv : (X ^ (deg u - deg v) * bitPoly v).Monic := (monic_X_pow _).mul (monic_of_ne_zero hv0)
  have hdeg : (X ^ (deg u - deg v) * bitPoly v).natDegree = (bitPoly u).natDegree := by
    rw [natDegree_X_pow_mul _ hv0, natDegree_bitPoly, natDegree_bitPoly]
    omega
  have hdeg' : (bitPoly u).degree = (X ^ (deg u - deg v) * bitPoly v).degree := by
    rw [degree_eq_natDegree hu0, degree_eq_natDegree hmv.ne_zero, hdeg]
  have hlt := degree_sub_lt_left hdeg' hu0 (hmu.leadingCoeff.trans hmv.leadingCoeff.symm)
  rw [CharTwo.sub_eq_add, ← bitPoly_reduceBy hle] at hlt
  rw [← natDegree_bitPoly (reduceBy u v), ← natDegree_bitPoly u]
  by_cases h0 : bitPoly (reduceBy u v) = 0
  · rw [h0, natDegree_zero, natDegree_bitPoly]
    omega
  · exact natDegree_lt_natDegree h0 hlt

theorem EuclidInv.swap (h : EuclidInv a u v c d) (hu : 0 < deg u) : EuclidInv a v u d c :=
  ⟨h.coprime.symm, hu, h.right, h.left⟩

theorem EuclidInv.reduce (h : EuclidInv a u v c d) (hle : deg v ≤ deg u) :
    EuclidInv a (reduceBy u v) v (c ^^^ fmul (xPow (deg u - deg v)) d) d := by
  have hlt := deg_lt u
  have hv := h.deg_pos
  refine ⟨?_, hv, ?_, h.right⟩
  · rw [bitPoly_reduceBy hle]
    exact h.coprime.add_mul_right_left _
  · rw [bitPoly_reduceBy hle, residue_xor, residue_fmul, add_mul, mul_assoc, h.left, h.right, map_add, map_mul,
      residue, toPoly_xPow (by omega)]

/-- Where the loop stops u is 1. -/
theorem EuclidInv.bitPoly_eq_one (h : EuclidInv a u v c d) (hu : deg u = 0) : bitPoly u = 1 := by
  have hne : bitPoly u ≠ 0 := fun h0 => by
    have hunit : IsUnit (bitPoly v) := isCoprime_zero_left.mp (h0 ▸ h.coprime)
    have hdeg := natDegree_eq_zero_of_isUnit hunit
    rw [natDegree_bitPoly] at hdeg
    exact absurd hdeg h.deg_pos.ne'
  exact (monic_of_ne_zero hne).natDegree_eq_zero.mp (by rw [natDegree_bitPoly, hu])

end

/-! ### The loop -/

theorem finvLoop_of_deg_zero {fuel : Nat} {u v : BitVec 128} {c d : Elem} (hu : deg u = 0) :
    finvLoop (fuel + 1) u v c d = c := by
  rw [finvLoop, if_pos hu]

theorem finvLoop_of_lt {fuel : Nat} {u v : BitVec 128} {c d : Elem} (hu : deg u ≠ 0) (hlt : deg u < deg v) :
    finvLoop (fuel + 1) u v c d =
      finvLoop fuel (reduceBy v u) u (d ^^^ fmul (xPow (deg v - deg u)) c) c := by
  rw [finvLoop, if_neg hu, if_pos hlt, reduceBy]

theorem finvLoop_of_le {fuel : Nat} {u v : BitVec 128} {c d : Elem} (hu : deg u ≠ 0) (hle : deg v ≤ deg u) :
    finvLoop (fuel + 1) u v c d =
      finvLoop fuel (reduceBy u v) v (c ^^^ fmul (xPow (deg u - deg v)) d) d := by
  rw [finvLoop, if_neg hu, if_neg hle.not_gt, reduceBy]

/-- From the invariant the loop ends with the inverse of a within deg(u) + deg(v) rounds (41_gf127.md R91). -/
theorem EuclidInv.residue_finvLoop {a : Elem} {fuel : Nat} : ∀ {u v : BitVec 128} {c d : Elem},
    EuclidInv a u v c d → deg u + deg v ≤ fuel → residue (finvLoop fuel u v c d) * residue a = 1 := by
  induction fuel with
  | zero =>
    intro u v c d h hfuel
    have hpos := h.deg_pos
    omega
  | succ fuel ih =>
    intro u v c d h hfuel
    by_cases hu : deg u = 0
    · rw [finvLoop_of_deg_zero hu, h.left, h.bitPoly_eq_one hu, map_one]
    · have hupos : 0 < deg u := Nat.pos_of_ne_zero hu
      rcases Nat.lt_or_ge (deg u) (deg v) with hlt | hle
      · have hless := deg_reduceBy_lt hupos hlt.le
        rw [finvLoop_of_lt hu hlt]
        exact ih ((h.swap hupos).reduce hlt.le) (by omega)
      · have hless := deg_reduceBy_lt h.deg_pos hle
        rw [finvLoop_of_le hu hle]
        exact ih (h.reduce hle) (by omega)

/-- An irreducible polynomial has no common factor with one of lower degree. -/
theorem isCoprime_of_degree_lt {p q : (ZMod 2)[X]} (hp : Irreducible p) (hq : q ≠ 0) (h : q.degree < p.degree) :
    IsCoprime q p :=
  (hp.coprime_iff_not_dvd.mpr (not_dvd_of_degree_lt hq h)).symm

/-- The loop starts in its invariant: P is irreducible, of a degree above that of a. -/
theorem euclidInv_start {a : Elem} (ha : a ≠ ZERO) : EuclidInv a (a.setWidth 128) P ONE ZERO := by
  have hne : toPoly a ≠ 0 := fun h => ha (bitPoly_eq_zero_iff.mp h)
  refine ⟨?_, ?_, ?_, ?_⟩
  · rw [bitPoly_setWidth, bitPoly_P]
    exact isCoprime_of_degree_lt irreducible_polyP hne (degree_toPoly_lt a)
  · rw [← natDegree_bitPoly, bitPoly_P, natDegree_polyP]
    decide
  · rw [residue_ONE, one_mul, bitPoly_setWidth, residue]
  · rw [residue_ZERO, zero_mul, bitPoly_P, AdjoinRoot.mk_self]

theorem residue_finv {a : Elem} (ha : a ≠ ZERO) : residue (finv a) * residue a = 1 := by
  refine (euclidInv_start ha).residue_finvLoop ?_
  have hu : deg (a.setWidth 128) < 127 := by
    rw [← natDegree_bitPoly, bitPoly_setWidth]
    exact natDegree_bitPoly_lt (by decide) a
  have hv := deg_lt P
  omega

/-- Settles O28: `residue_finv`; the inverse is unique, as in every commutative ring. -/
theorem finvIsTheUniqueInverse : Obligations.FinvIsTheUniqueInverse := by
  intro a ha
  have hinv : fmul a (finv a) = ONE :=
    residue_injective (by rw [residue_fmul, mul_comm, residue_finv ha, residue_ONE])
  refine ⟨hinv, fun b hb => residue_injective ?_⟩
  have hb' : residue a * residue b = 1 := by rw [← residue_fmul, hb, residue_ONE]
  exact (left_inv_eq_right_inv (residue_finv ha) hb').symm

end Sys2Proof.Machine
end

section
/-! PROOF. The field commands (41_gf127.md R93 to R100): what a command that writes one F register changes and
leaves, then each command's value and faults. -/

namespace Sys2Proof.Machine

variable {s t : State}

/-! ### A command that writes one F register -/

/-- From `s` a command completed in `t` with `F[d] <- v` as its one effect. -/
structure WroteF (s t : State) (d : Reg) (v : Elem) : Prop where
  completed : Completed s t
  sregs : SameS s t
  mem : SameMem s t
  others : SameFBut s t d
  value : t.freg d = v

theorem wroteF_setF (s : State) (d : Reg) (v : Elem) : WroteF s (s.setF d v).advance.tick d v where
  completed := completed_setF s d v
  sregs := fun _ => rfl
  mem := fun _ => rfl
  others := fun q hq => by simp [State.freg_setF, hq]
  value := s.freg_setF_self d v

/-! ### FADD, FMULX, FMULX1, FMUL, FLDI -/

theorem exec_fadd_wroteF (s : State) (fd fa fb : Reg) :
    ∃ t, exec (.fadd fd fa fb) s = .next t ∧ WroteF s t fd (s.freg fa ^^^ s.freg fb) :=
  ⟨_, rfl, wroteF_setF s fd _⟩

theorem exec_fmulx_wroteF (s : State) (fd fa : Reg) :
    ∃ t, exec (.fmulx fd fa) s = .next t ∧ WroteF s t fd (fmulx (s.freg fa)) :=
  ⟨_, rfl, wroteF_setF s fd _⟩

theorem exec_fmulx1_wroteF (s : State) (fd fa : Reg) :
    ∃ t, exec (.fmulx1 fd fa) s = .next t ∧ WroteF s t fd (fmulx1 (s.freg fa)) :=
  ⟨_, rfl, wroteF_setF s fd _⟩

theorem exec_fmul_wroteF (s : State) (fd fa fb : Reg) :
    ∃ t, exec (.fmul fd fa fb) s = .next t ∧ WroteF s t fd (fmul (s.freg fa) (s.freg fb)) :=
  ⟨_, rfl, wroteF_setF s fd _⟩

theorem exec_fldi_wroteF (s : State) (fd : Reg) (imm : Imm) :
    ∃ t, exec (.fldi fd imm) s = .next t ∧ WroteF s t fd (zext127 imm) :=
  ⟨_, rfl, wroteF_setF s fd _⟩

theorem toNat_zext127 (imm : Imm) : (zext127 imm).toNat = imm.toNat :=
  BitVec.toNat_setWidth_of_le (by decide)

/-- Settles O29: each of the five is a write of one F register (`WroteF`). -/
theorem fieldRegisterCommands : Obligations.FieldRegisterCommands := by
  refine fun s fd fa fb imm => ⟨?_, ?_, ?_, ?_, ?_⟩
  · obtain ⟨t, ht, hw⟩ := exec_fadd_wroteF s fd fa fb
    exact ⟨t, ht, hw.completed, hw.sregs, hw.mem, hw.others, hw.value⟩
  · obtain ⟨t, ht, hw⟩ := exec_fmulx_wroteF s fd fa
    exact ⟨t, ht, hw.completed, hw.sregs, hw.mem, hw.others, hw.value⟩
  · obtain ⟨t, ht, hw⟩ := exec_fmulx1_wroteF s fd fa
    exact ⟨t, ht, hw.completed, hw.sregs, hw.mem, hw.others, hw.value⟩
  · obtain ⟨t, ht, hw⟩ := exec_fmul_wroteF s fd fa fb
    exact ⟨t, ht, hw.completed, hw.sregs, hw.mem, hw.others, hw.value⟩
  · obtain ⟨t, ht, hw⟩ := exec_fldi_wroteF s fd imm
    exact ⟨t, ht, hw.completed, hw.sregs, hw.mem, hw.others, by rw [hw.value, toNat_zext127]⟩

/-! ### FINV -/

/-- The fault of a command, as its end. -/
theorem settle_error_faulted (s : State) {e : Except Cause State} {c : Cause} (h : e = .error c) :
    ∃ t, s.settle e = .next t ∧ Faulted s t c :=
  ⟨_, congrArg s.settle h, s.takeFault_faulted c⟩

theorem exec_finv_wroteF (s : State) (fd : Reg) {fa : Reg} (h : s.freg fa ≠ ZERO) :
    ∃ t, exec (.finv fd fa) s = .next t ∧ WroteF s t fd (finv (s.freg fa)) :=
  ⟨_, congrArg s.settle (if_neg h), wroteF_setF s fd _⟩

/-- Settles O30: FINV's one check is the one for ZERO. -/
theorem inverseCommand : Obligations.InverseCommand := by
  refine fun s fd fa => ⟨fun hne => ?_, fun hzero => settle_error_faulted s (if_pos hzero)⟩
  obtain ⟨t, ht, hw⟩ := exec_finv_wroteF s fd hne
  exact ⟨t, ht, hw.completed, hw.sregs, hw.mem, hw.others, hw.value⟩

/-! ### FLD -/

/-- Inside MEM FLD ends as its decoding does (41_gf127.md R99). -/
theorem exec_fld_eq (s : State) (fd sb : Reg) (imm : Imm) (hin : s.ea sb imm + 16 ≤ s.memSize) :
    exec (.fld fd sb imm) s =
      s.settle (decoded (decF (s.memBytes .data (s.ea sb imm) 16)) fun e => .ok (s.setF fd e)) :=
  congrArg s.settle (State.checkRange_pos (.inr hin) _)

theorem exec_fld_wroteF {s : State} (fd : Reg) {sb : Reg} {imm : Imm} {e : Elem}
    (hin : s.ea sb imm + 16 ≤ s.memSize) (hdec : decF (s.memBytes .data (s.ea sb imm) 16) = some e) :
    ∃ t, exec (.fld fd sb imm) s = .next t ∧ WroteF s t fd e := by
  refine ⟨_, ?_, wroteF_setF s fd e⟩
  rw [exec_fld_eq s fd sb imm hin, hdec, decoded_some, State.settle, State.settled_ok]

/-- Sixteen bytes with the top bit clear decode to their value (00_scope.md R13). -/
theorem exists_decF_eq_some {bs : List Byte} (hl : bs.length = 16) (h : topBit bs = false) :
    ∃ e, decF bs = some e ∧ e.toNat = be bs := by
  refine ⟨_, decF_of_not_topBit h, ?_⟩
  rw [BitVec.toNat_ofNat, Nat.mod_eq_of_lt ((topBit_eq_false_iff hl).mp h)]

/-- The first byte of a nonempty read has the read's top bit. -/
theorem Holds.topBit_memBytes {a : Nat} {b : Byte} (h : Holds s a [b]) (p : ReadPort) (n : Nat) :
    topBit (s.memBytes p a (n + 1)) = b.getLsbD 7 := by
  have hb : s.readByte p a = b := State.readByte_of_some (h 0 (by simp)) p
  rw [State.memBytes, topBit, hb]

/-- Settles O32: FLD's two checks are the range's and DecF's, which looks at the top bit alone. -/
theorem elementLoad : Obligations.ElementLoad := by
  refine fun s fd sb imm => ⟨fun bs hin hl hheld htop => ?_, fun b hin hheld htop => ?_,
    settle_checkRange_faulted s _ (by decide)⟩
  · obtain ⟨e, hdec, he⟩ := exists_decF_eq_some hl htop
    have hread : s.memBytes .data (s.ea sb imm) 16 = bs := hl ▸ hheld.memBytes .data
    obtain ⟨t, ht, hw⟩ := exec_fld_wroteF fd hin (hread ▸ hdec)
    exact ⟨t, ht, hw.completed, hw.sregs, hw.mem, hw.others, by rw [hw.value, he]⟩
  · have hnone : decF (s.memBytes .data (s.ea sb imm) 16) = none :=
      decF_of_topBit ((hheld.topBit_memBytes .data 15).trans htop)
    rw [exec_fld_eq s fd sb imm hin, hnone]
    exact settle_error_faulted s (decoded_none _)

/-! ### FST -/

theorem exec_fst_wroteMem (s : State) (fs sb : Reg) (imm : Imm) (hin : s.ea sb imm + 16 ≤ s.memSize) :
    ∃ t, exec (.fst fs sb imm) s = .next t ∧ WroteMem s t (s.ea sb imm) (encF (s.freg fs)) :=
  ⟨_, settle_checkRange_ok s _ hin, wroteMem_storeBytes s _ _⟩

/-- Settles O33: inside MEM FST stores the encoding of its register's element. -/
theorem elementStore : Obligations.ElementStore := by
  refine fun s fs sb imm => ⟨fun hin => ?_, settle_checkRange_faulted s _ (by decide)⟩
  obtain ⟨t, ht, hw⟩ := exec_fst_wroteMem s fs sb imm hin
  exact ⟨t, ht, hw.completed, hw.fregs, hw.sregs, encF_length (s.freg fs) ▸ hw.outside, hw.stored⟩

/-! ### FLD after FST -/

/-- Equal scalar registers give equal effective addresses (20_memory.md R44). -/
theorem SameS.ea_eq (h : SameS s t) (rb : Reg) (imm : Imm) : t.ea rb imm = s.ea rb imm := by
  rw [State.ea, State.ea, h rb]

/-- What a command stored at stable addresses is held there. -/
theorem WroteMem.holds {a : Nat} {bs : List Byte} (h : WroteMem s t a bs)
    (hstable : ∀ k < bs.length, a + k ∉ s.unstable) : Holds t a bs :=
  fun k hk => (h.stored k hk).trans (if_neg (hstable k hk))

/-- Settles O34: FLD reads the bytes FST left (`WroteMem.holds`), and DecF undoes EncF (`decF_encF`). -/
theorem loadOfStoredElement : Obligations.LoadOfStoredElement := by
  intro s fs fd sb imm hin hstable
  obtain ⟨t, ht, hstore⟩ := exec_fst_wroteMem s fs sb imm hin
  have hea : t.ea sb imm = s.ea sb imm := hstore.sregs.ea_eq sb imm
  have hheld : Holds t (s.ea sb imm) (encF (s.freg fs)) := hstore.holds (by simpa using hstable)
  have hread : t.memBytes .data (t.ea sb imm) 16 = encF (s.freg fs) := by
    rw [hea, ← encF_length (s.freg fs), hheld.memBytes .data]
  have hdec : decF (t.memBytes .data (t.ea sb imm) 16) = some (s.freg fs) := by rw [hread, decF_encF]
  have hin' : t.ea sb imm + 16 ≤ t.memSize := by rw [hea, hstore.completed.memSize]; exact hin
  obtain ⟨u, hu, hload⟩ := exec_fld_wroteF fd hin' hdec
  exact ⟨t, u, ht, hu, hload.completed, hload.value, fun q hq => (hload.others q hq).trans (hstore.fregs q)⟩

end Sys2Proof.Machine
end

section
/-! PROOF. The matrix functions (42_sl2.md R101 to R104): 2×2 matrices over the ring GF(2)[x] / (P), where their
laws are Mathlib's. -/

namespace Sys2Proof.Machine

open Matrix

/-! ### Matrices of residues -/

/-- The matrix of the classes of the four elements, in GF(2)[x] / (P) (`residue`). -/
noncomputable def residues (m : Mat) : Matrix (Fin 2) (Fin 2) (AdjoinRoot polyP) :=
  !![residue m.a, residue m.b; residue m.c, residue m.d]

theorem residues_injective : Function.Injective residues := by
  rintro ⟨a, b, c, d⟩ ⟨e, f, g, h⟩ heq
  have hrow (i j : Fin 2) := congrFun (congrFun heq i) j
  rw [Mat.mk.injEq]
  exact ⟨residue_injective (hrow 0 0), residue_injective (hrow 0 1), residue_injective (hrow 1 0),
    residue_injective (hrow 1 1)⟩

theorem residues_IDENTITY : residues IDENTITY = 1 := by
  simp [residues, IDENTITY, one_fin_two]

theorem residues_mmul (m n : Mat) : residues (mmul m n) = residues m * residues n := by
  simp [residues, mmul, residue_xor, residue_fmul]

/-- In characteristic 2 the elements of a matrix are those of R103's formula, without signs. -/
theorem adjugate_residues (m : Mat) :
    (residues m).adjugate = !![residue m.d, residue m.b; residue m.c, residue m.a] := by
  have hchar := charP_adjoinRoot_polyP
  simp only [residues, adjugate_fin_two_of, CharTwo.neg_eq]

theorem residue_det (m : Mat) : residue (det m) = (residues m).det := by
  have hchar := charP_adjoinRoot_polyP
  rw [det, residue_xor, residue_fmul, residue_fmul, residues, det_fin_two_of, CharTwo.sub_eq_add]

theorem residues_minv (m : Mat) : residues (minv m) = residue (finv (det m)) • (residues m).adjugate := by
  rw [adjugate_residues]
  simp [residues, minv, residue_fmul]

/-! ### The laws -/

theorem mmul_assoc (m n o : Mat) : mmul (mmul m n) o = mmul m (mmul n o) :=
  residues_injective (by simp only [residues_mmul, mul_assoc])

theorem IDENTITY_mmul (m : Mat) : mmul IDENTITY m = m :=
  residues_injective (by rw [residues_mmul, residues_IDENTITY, one_mul])

theorem mmul_IDENTITY (m : Mat) : mmul m IDENTITY = m :=
  residues_injective (by rw [residues_mmul, residues_IDENTITY, mul_one])

/-- The two generators do not commute: each of the products is one `tzbit`. -/
theorem mmul_generators_ne : mmul G0 G1 ≠ mmul G1 G0 := by
  have h01 : mmul G0 G1 = tzbit G0 true := (tzbit_eq_mmul G0 true).symm
  have h10 : mmul G1 G0 = tzbit G1 false := (tzbit_eq_mmul G1 false).symm
  rw [h01, h10]
  decide

theorem det_mmul (m n : Mat) : det (mmul m n) = fmul (det m) (det n) :=
  residue_injective (by rw [residue_fmul, residue_det, residue_det, residue_det, residues_mmul, det_mul])

/-- Settles O35: the formulas are the definitions, and the laws those of matrices over GF(2)[x] / (P). -/
theorem matrixLaws : Obligations.MatrixLaws :=
  ⟨fun _ _ _ _ _ _ _ _ => ⟨rfl, rfl⟩, mmul_assoc, fun m => ⟨IDENTITY_mmul m, mmul_IDENTITY m⟩,
    ⟨G0, G1, mmul_generators_ne⟩, det_mmul⟩

/-! ### The inverse -/

theorem mmul_minv {m : Mat} (h : det m ≠ ZERO) : mmul m (minv m) = IDENTITY := by
  refine residues_injective ?_
  rw [residues_mmul, residues_minv, residues_IDENTITY, Matrix.mul_smul, mul_adjugate, smul_smul, ← residue_det,
    residue_finv h, one_smul]

theorem minv_mmul {m : Mat} (h : det m ≠ ZERO) : mmul (minv m) m = IDENTITY := by
  refine residues_injective ?_
  rw [residues_mmul, residues_minv, residues_IDENTITY, Matrix.smul_mul, adjugate_mul, smul_smul, ← residue_det,
    residue_finv h, one_smul]

theorem finv_ONE : finv ONE = ONE := by
  have hne : ONE ≠ ZERO := by decide
  exact ((finvIsTheUniqueInverse ONE hne).2 ONE (fmul_by_one ONE)).symm

theorem minv_of_det_ONE {m : Mat} (h : det m = ONE) : minv m = ⟨m.d, m.b, m.c, m.a⟩ := by
  have hone (e : Elem) : fmul ONE e = e := (fmul_comm ONE e).trans (fmul_by_one e)
  simp only [minv, h, finv_ONE, hone]

/-- Settles O36: minv is the adjugate divided by the determinant (`residues_minv`). -/
theorem minvIsTheMatrixInverse : Obligations.MinvIsTheMatrixInverse := fun _ =>
  ⟨fun h => ⟨mmul_minv h, minv_mmul h⟩, minv_of_det_ONE⟩

end Sys2Proof.Machine
end

section
/-! PROOF. The matrix commands MINV, MLD and MST (42_sl2.md R106, R108, R109) and the matrix codec
(00_scope.md R13). -/

namespace Sys2Proof.Machine

variable {s : State}

/-! ### MINV -/

/-- With legal M fields MINV ends as its check of the determinant does (42_sl2.md R106). -/
theorem exec_minv_eq (s : State) {md ma : Reg} (hd : legalM md = true) (ha : legalM ma = true) :
    exec (.minv md ma) s =
      s.settle (if det (s.mreg ma) = ZERO then .error .divZero else .ok (s.setM md (minv (s.mreg ma)))) :=
  congrArg s.settle (guardM_pos (by simp [hd, ha]) _)

theorem exec_minv_wroteM (s : State) {md ma : Reg} (hd : legalM md = true) (ha : legalM ma = true)
    (h : det (s.mreg ma) ≠ ZERO) : ∃ t, exec (.minv md ma) s = .next t ∧ WroteM s t md (minv (s.mreg ma)) := by
  refine ⟨_, ?_, wroteM_setM s hd _⟩
  rw [exec_minv_eq s hd ha, if_neg h, State.settle, State.settled_ok]

/-- Settles O38: MINV's one check is the determinant's. -/
theorem matrixInverseCommand : Obligations.MatrixInverseCommand := by
  refine fun s md ma hd ha => ⟨fun hne => ?_, fun hzero => ?_⟩
  · obtain ⟨t, ht, hw⟩ := exec_minv_wroteM s hd ha hne
    exact ⟨t, ht, hw.completed, hw.sregs, hw.mem, hw.fregs, hw.value⟩
  · rw [exec_minv_eq s hd ha]
    exact settle_error_faulted s (if_pos hzero)

/-! ### The matrix codec -/

/-- `DecM(EncM(m)) = m` (00_scope.md R13): the four chunks are the elements' encodings. -/
theorem decM_encM (m : Mat) : decM (encM m) = some m := by
  have h0 : chunk (encM m) 0 = encF m.a := by simp [chunk, encM]
  have h1 : chunk (encM m) 1 = encF m.b := by simp [chunk, encM]
  have h2 : chunk (encM m) 2 = encF m.c := by simp [chunk, encM, List.drop_append, List.drop_eq_nil_of_le]
  have h3 : chunk (encM m) 3 = encF m.d := by simp [chunk, encM, List.drop_append, List.drop_eq_nil_of_le]
  simp only [decM, h0, h1, h2, h3, decF_encF]

/-- One chunk that DecF refuses makes DecM fail (00_scope.md R13). -/
theorem decM_of_chunk {bs : List Byte} {j : Nat} (hj : j < 4) (h : decF (chunk bs j) = none) : decM bs = none := by
  unfold decM
  split
  next h0 h1 h2 h3 => interval_cases j <;> simp_all
  next => rfl

/-- Chunk `j` of a 64-byte read is the 16-byte read at its place. -/
theorem State.chunk_memBytes (s : State) (p : ReadPort) (a : Nat) {j : Nat} (hj : j < 4) :
    chunk (s.memBytes p a 64) j = s.memBytes p (a + 16 * j) 16 := by
  have hcut : 64 = 16 * j + (16 + (48 - 16 * j)) := by omega
  rw [chunk, hcut, State.memBytes_add, List.drop_left' (by simp), State.memBytes_add, List.take_left' (by simp)]

/-! ### The checks of MLD and MST -/

/-- With a legal M field a nonempty range that leaves MEM is the fault MEM_RANGE (20_memory.md R43). -/
theorem settle_guardM_checkRange_faulted (s : State) {ms : List Reg} {a n : Nat} (e : Except Cause State)
    (hm : ms.all legalM = true) (hn : n ≠ 0) (h : s.memSize < a + n) :
    ∃ t, s.settle (guardM ms (s.checkRange a n e)) = .next t ∧ Faulted s t .memRange := by
  rw [guardM_pos hm]
  exact settle_checkRange_faulted s e hn h

/-! ### MLD -/

/-- Inside MEM MLD ends as its decoding does (42_sl2.md R108). -/
theorem exec_mld_eq (s : State) {md : Reg} (sb : Reg) (imm : Imm) (hd : legalM md = true)
    (hin : s.ea sb imm + 64 ≤ s.memSize) :
    exec (.mld md sb imm) s =
      s.settle (decoded (decM (s.memBytes .data (s.ea sb imm) 64)) fun m => .ok (s.setM md m)) :=
  congrArg s.settle ((guardM_pos (by simp [hd]) _).trans (State.checkRange_pos (.inr hin) _))

theorem exec_mld_wroteM {md sb : Reg} {imm : Imm} {m : Mat} (hd : legalM md = true)
    (hin : s.ea sb imm + 64 ≤ s.memSize) (hdec : decM (s.memBytes .data (s.ea sb imm) 64) = some m) :
    ∃ t, exec (.mld md sb imm) s = .next t ∧ WroteM s t md m := by
  refine ⟨_, ?_, wroteM_setM s hd m⟩
  rw [exec_mld_eq s sb imm hd hin, hdec, decoded_some, State.settle, State.settled_ok]

/-- Stable bytes that encode a matrix are read as that matrix. -/
theorem Holds.decM_memBytes {a : Nat} {m : Mat} (h : Holds s a (encM m)) (p : ReadPort) :
    decM (s.memBytes p a 64) = some m := by
  rw [← encM_length m, h.memBytes p, decM_encM]

/-- A chunk with its top bit set makes the 64-byte read no encoding. -/
theorem Holds.decM_memBytes_of_topBit {a j : Nat} {b : Byte} (h : Holds s (a + 16 * j) [b]) (hj : j < 4)
    (htop : b.getLsbD 7 = true) (p : ReadPort) : decM (s.memBytes p a 64) = none := by
  refine decM_of_chunk hj ?_
  rw [s.chunk_memBytes p a hj]
  exact decF_of_topBit ((h.topBit_memBytes p 15).trans htop)

/-- Settles O39: after the range check MLD's one check is DecM's, which looks at the chunks' top bits alone. -/
theorem matrixLoad : Obligations.MatrixLoad := by
  refine fun s md sb imm hd => ⟨fun m hin hheld => ?_, fun j b hin hj hheld htop => ?_,
    settle_guardM_checkRange_faulted s _ (by simp [hd]) (by decide)⟩
  · obtain ⟨t, ht, hw⟩ := exec_mld_wroteM hd hin (Holds.decM_memBytes hheld .data)
    exact ⟨t, ht, hw.completed, hw.sregs, hw.mem, hw.fregs, hw.value⟩
  · rw [exec_mld_eq s sb imm hd hin, hheld.decM_memBytes_of_topBit hj htop .data]
    exact settle_error_faulted s (decoded_none _)

/-! ### MST -/

theorem exec_mst_wroteMem (s : State) {ms : Reg} (sb : Reg) (imm : Imm) (hm : legalM ms = true)
    (hin : s.ea sb imm + 64 ≤ s.memSize) :
    ∃ t, exec (.mst ms sb imm) s = .next t ∧ WroteMem s t (s.ea sb imm) (encM (s.mreg ms)) := by
  refine ⟨_, ?_, wroteMem_storeBytes s _ _⟩
  exact (congrArg s.settle (guardM_pos (by simp [hm]) _)).trans (settle_checkRange_ok s _ hin)

/-- Settles O40: inside MEM MST stores the encoding of its register's matrix. -/
theorem matrixStore : Obligations.MatrixStore := by
  refine fun s ms sb imm hm => ⟨fun hin => ?_, settle_guardM_checkRange_faulted s _ (by simp [hm]) (by decide)⟩
  obtain ⟨t, ht, hw⟩ := exec_mst_wroteMem s sb imm hm hin
  exact ⟨t, ht, hw.completed, hw.fregs, hw.sregs, encM_length (s.mreg ms) ▸ hw.outside, hw.stored⟩

end Sys2Proof.Machine
end

section
/-! PROOF. What every hash update keeps (42_sl2.md R104; 43_tzhash.md R112; 70_reset_and_hazards.md R140). -/

namespace Sys2Proof.Machine

/-- What one message bit keeps, every update keeps (43_tzhash.md R112). -/
theorem tzupd_keeps {p : Mat → Prop} (hbit : ∀ m b, p m → p (tzbit m b)) {m : Mat} (h : p m) (bs : List Byte) :
    p (tzupd m bs) := by
  have hbyte (m : Mat) (b : Byte) (hm : p m) : p (tzbyte m b) :=
    List.foldlRecOn (bitsOf b) tzbit hm fun n hn bit _ => hbit n bit hn
  exact List.foldlRecOn bs tzbyte h fun n hn b _ => hbyte n b hn

theorem det_IDENTITY : det IDENTITY = ONE := by
  simp [det, IDENTITY, ONE, ZERO, fmul_by_one, fmul_by_zero]

theorem det_generator (bit : Bool) : det (if bit then G1 else G0) = ONE := by
  cases bit with
  | false => simp [det, G0, ONE, ZERO, fmul_by_one, fmul_by_zero]
  | true => simp [det, G1, ONE, fmul_by_one]

/-- A message bit multiplies by a matrix of determinant ONE (43_tzhash.md R110, R111). -/
theorem det_tzbit (m : Mat) (bit : Bool) : det (tzbit m bit) = det m := by
  rw [tzbit_eq_mmul, det_mmul, det_generator]
  exact fmul_by_one (det m)

theorem tzbit_zero (bit : Bool) : tzbit ⟨ZERO, ZERO, ZERO, ZERO⟩ bit = ⟨ZERO, ZERO, ZERO, ZERO⟩ := by
  revert bit
  decide

/-- Settles O43: each message bit keeps the determinant (`det_tzbit`) and the all-ZERO matrix (`tzbit_zero`). -/
theorem hashDeterminantAndZeroState : Obligations.HashDeterminantAndZeroState := by
  refine fun bs => ⟨?_, ?_⟩
  · exact tzupd_keeps (p := fun m => det m = ONE) (fun m b h => (det_tzbit m b).trans h) det_IDENTITY bs
  · refine tzupd_keeps (p := (· = ⟨ZERO, ZERO, ZERO, ZERO⟩)) (fun m b h => ?_) rfl bs
    rw [h, tzbit_zero]

end Sys2Proof.Machine
end

section
/-! PROOF. The hash functions (43_tzhash.md R110 to R116): an update is a product on the right with a hash, so the
hash turns concatenation into multiplication. -/

namespace Sys2Proof.Machine

/-- Settles O41: `tzbit_eq_mmul` and `det_generator`. -/
theorem tzbitIsRightMultiplication : Obligations.TzbitIsRightMultiplication :=
  ⟨tzbit_eq_mmul, rfl, rfl, det_generator false, det_generator true⟩

/-! ### Updates as products -/

/-- A factor on the left passes through a message bit, for the bit multiplies on the right (43_tzhash.md R111). -/
theorem tzbit_mmul (m n : Mat) (bit : Bool) : tzbit (mmul m n) bit = mmul m (tzbit n bit) := by
  rw [tzbit_eq_mmul, tzbit_eq_mmul, mmul_assoc]

theorem tzbyte_mmul (m n : Mat) (b : Byte) : tzbyte (mmul m n) b = mmul m (tzbyte n b) :=
  List.foldl_hom (mmul m) (tzbit_mmul m)

theorem tzupd_mmul (m n : Mat) (bs : List Byte) : tzupd (mmul m n) bs = mmul m (tzupd n bs) :=
  List.foldl_hom (mmul m) (tzbyte_mmul m)

theorem tzupd_eq_mmul_tzHash (m : Mat) (bs : List Byte) : tzupd m bs = mmul m (tzHash bs) := by
  rw [tzHash, ← tzupd_mmul, mmul_IDENTITY]

/-- Absorbing a concatenation is absorbing its parts in order (43_tzhash.md R112). -/
theorem tzupd_append (m : Mat) (bs cs : List Byte) : tzupd m (bs ++ cs) = tzupd (tzupd m bs) cs :=
  List.foldl_append

theorem tzHash_append (a b : List Byte) : tzHash (a ++ b) = mmul (tzHash a) (tzHash b) := by
  rw [← tzupd_eq_mmul_tzHash]
  exact tzupd_append IDENTITY a b

/-! ### The product of a list of digests -/

theorem concatMats_cons (m : Mat) (ms : List Mat) : concatMats (m :: ms) = mmul m (concatMats ms) := by
  have hpass : ms.foldl mmul (mmul m IDENTITY) = mmul m (concatMats ms) := List.foldl_hom (mmul m) (mmul_assoc m)
  rw [concatMats, List.foldl_cons, IDENTITY_mmul, ← hpass, mmul_IDENTITY]

/-- The hashes of the parts multiply to the hash of the whole (43_tzhash.md R116). -/
theorem concatMats_map_tzHash (parts : List (List Byte)) : concatMats (parts.map tzHash) = tzHash parts.flatten := by
  induction parts with
  | nil => rfl
  | cons p ps ih => rw [List.map_cons, concatMats_cons, ih, List.flatten_cons, tzHash_append]

/-- Settles O42: `tzHash_append`, and for any split `concatMats_map_tzHash` by induction over the parts. -/
theorem hashOfConcatenation : Obligations.HashOfConcatenation :=
  ⟨tzHash_append, rfl, fun parts => ⟨fun p _ => decM_encM (tzHash p), concatMats_map_tzHash parts⟩⟩

end Sys2Proof.Machine
end

section
/-! PROOF. HBIT and HUPD (43_tzhash.md R118, R119): what HUPD writes, and sequences of the two, which change one
matrix register and nothing else. -/

namespace Sys2Proof.Machine

variable {s t u : State}

/-! ### HUPD -/

/-- MEM that reads the same holds the same bytes. -/
theorem SameMem.holds {a : Nat} {bs : List Byte} (h : SameMem s t) (hb : Holds s a bs) : Holds t a bs :=
  fun k hk => (h (a + k)).trans (hb k hk)

theorem exec_hupd_wroteM (s : State) {md sa sb : Reg} (hd : legalM md = true)
    (hin : s.InRange (s.sval sa) (s.sval sb)) :
    ∃ t, exec (.hupd md sa sb) s = .next t ∧
      WroteM s t md (tzupd (s.mreg md) (s.memBytes .data (s.sval sa) (s.sval sb))) := by
  refine ⟨_, ?_, wroteM_setM s hd _⟩
  have hrest := State.checkRange_pos hin
    (.ok (s.setM md (tzupd (s.mreg md) (s.memBytes .data (s.sval sa) (s.sval sb)))))
  exact congrArg s.settle ((guardM_pos (by simp [hd]) _).trans hrest)

/-- Of stable bytes HUPD absorbs just those (43_tzhash.md R119). -/
theorem exec_hupd_of_holds {md sa sb : Reg} {bs : List Byte} (hd : legalM md = true)
    (hlen : (s.sreg sb).toNat = bs.length) (hin : (s.sreg sa).toNat + bs.length ≤ s.memSize)
    (h : Holds s (s.sreg sa).toNat bs) :
    ∃ t, exec (.hupd md sa sb) s = .next t ∧ WroteM s t md (tzupd (s.mreg md) bs) := by
  have hread : s.memBytes .data (s.sval sa) (s.sval sb) = bs := by
    rw [State.sval, State.sval, hlen, h.memBytes]
  obtain ⟨t, ht, hw⟩ := exec_hupd_wroteM s hd (sa := sa) (sb := sb) (.inr (by simpa [State.sval, hlen] using hin))
  exact ⟨t, ht, hread ▸ hw⟩

/-- Settles O44: HUPD's one check is the range's, which an empty range passes. -/
theorem hashUpdateCommand : Obligations.HashUpdateCommand := by
  refine fun s md sa sb hd => ⟨fun hin => ?_, settle_guardM_checkRange_faulted s _ (by simp [hd])⟩
  obtain ⟨t, ht, hw⟩ := exec_hupd_wroteM s hd hin
  refine ⟨t, ht, hw.completed, hw.sregs, hw.mem, hw.fregs, fun bs hlen hheld => ?_⟩
  have hread : s.memBytes .data (s.sval sa) (s.sval sb) = bs := by
    rw [State.sval, State.sval, ← hlen, hheld.memBytes]
  rw [hw.value, hread]

/-! ### Sequences of commands that write M[k] -/

/-- `t` has the registers, MEM and MEM_SIZE of `s` but for M[k], which is `m`: what commands that each write M[k]
leave, CPC aside. -/
structure ChangedM (s t : State) (k : Reg) (m : Mat) : Prop where
  memSize : t.memSize = s.memSize
  sregs : SameS s t
  mem : SameMem s t
  fregs : SameFOutsideM s t k
  value : t.mreg k = m

theorem WroteM.changedM {k : Reg} {m : Mat} (h : WroteM s t k m) : ChangedM s t k m where
  memSize := h.completed.memSize
  sregs := h.sregs
  mem := h.mem
  fregs := h.fregs
  value := h.value

theorem ChangedM.refl (s : State) (k : Reg) : ChangedM s s k (s.mreg k) :=
  ⟨rfl, fun _ => rfl, fun _ => rfl, fun _ _ => rfl, rfl⟩

theorem ChangedM.trans {k : Reg} {m n : Mat} (h : ChangedM s t k m) (h' : ChangedM t u k n) : ChangedM s u k n where
  memSize := h'.memSize.trans h.memSize
  sregs := fun r => (h'.sregs r).trans (h.sregs r)
  mem := fun a => (h'.mem a).trans (h.mem a)
  fregs := fun r hr => (h'.fregs r hr).trans (h.fregs r hr)
  value := h'.value

/-- The F registers are those outside M[k] and the four of its view (10_state.md R19). -/
theorem sameF_of_mreg_eq {k : Reg} (hk : legalM k = true) (hout : SameFOutsideM t u k) (hm : u.mreg k = t.mreg k) :
    SameF t u := by
  intro r
  by_cases hr : r.toNat < 4 * k.toNat ∨ 4 * k.toNat + 3 < r.toNat
  · exact hout r hr
  · have hview (j : Reg) (hj : legalM j = true) (h : r.toNat = 4 * k.toNat + j.toNat) : r = mElem k j :=
      BitVec.eq_of_toNat_eq (by rw [mElem_toNat k j hk hj, h])
    obtain h | h | h | h : r.toNat = 4 * k.toNat + 0 ∨ r.toNat = 4 * k.toNat + 1 ∨ r.toNat = 4 * k.toNat + 2 ∨
        r.toNat = 4 * k.toNat + 3 := by omega
    · exact hview 0#4 rfl h ▸ congrArg Mat.a hm
    · exact hview 1#4 rfl h ▸ congrArg Mat.b hm
    · exact hview 2#4 rfl h ▸ congrArg Mat.c hm
    · exact hview 3#4 rfl h ▸ congrArg Mat.d hm

/-- Two ways to change M[k] to one matrix leave the same registers and MEM. -/
theorem ChangedM.same {k : Reg} {m : Mat} (ht : ChangedM s t k m) (hu : ChangedM s u k m) (hk : legalM k = true) :
    SameF t u ∧ SameS t u ∧ SameMem t u :=
  ⟨sameF_of_mreg_eq hk (fun r hr => (hu.fregs r hr).trans (ht.fregs r hr).symm) (hu.value.trans ht.value.symm),
    fun r => (hu.sregs r).trans (ht.sregs r).symm, fun a => (hu.mem a).trans (ht.mem a).symm⟩

theorem execSeq_cons {i : Instr} (is : List Instr) (h : exec i s = .next t) : execSeq (i :: is) s = execSeq is t := by
  simp only [execSeq, h]

/-- A sequence of HBITs absorbs its bits in order (43_tzhash.md R118). -/
theorem execSeq_hbit_changedM {md : Reg} (hd : legalM md = true) (bits : List Bool) (s : State) :
    ∃ t, execSeq (bits.map (.hbit md)) s = .next t ∧ ChangedM s t md (bits.foldl tzbit (s.mreg md)) := by
  induction bits generalizing s with
  | nil => exact ⟨s, rfl, .refl s md⟩
  | cons b bits ih =>
    obtain ⟨t, ht, hw⟩ := exec_hbit_wroteM s b hd
    obtain ⟨u, hu, hc⟩ := ih t
    rw [hw.value, ← tzbit_eq_mmul] at hc
    exact ⟨u, (execSeq_cons _ ht).trans hu, hw.changedM.trans hc⟩

/-- Settles O45: both sides change M[md] to `tzbyte` of it, the fold of `tzbit` over the byte's bits. -/
theorem eightHbitsEqualOneHupd : Obligations.EightHbitsEqualOneHupd := by
  intro s md sa sb b hd hlen hin hheld
  obtain ⟨t, ht, hct⟩ := execSeq_hbit_changedM hd (bitsOf b) s
  obtain ⟨u, hu, hwu⟩ := exec_hupd_of_holds hd hlen hin hheld
  exact ⟨t, u, ht, hu, hct.same hwu.changedM hd⟩

/-- Settles O46: both sides change M[md] to its update by both strings (`tzupd_append`). -/
theorem repeatedHupdsEqualOne : Obligations.RepeatedHupdsEqualOne := by
  intro s md sa sb sa' sb' sc bs cs hd hlb hlc hadjoin hlen hin hheld
  obtain ⟨hbs, hcs⟩ := (holds_append s _ bs cs).mp hheld
  obtain ⟨t, ht, hwt⟩ := exec_hupd_of_holds hd hlb (by omega) hbs
  have ha' : (t.sreg sa').toNat = (s.sreg sa).toNat + bs.length := by rw [hwt.sregs sa', hadjoin]
  have hb' : (t.sreg sb').toNat = cs.length := by rw [hwt.sregs sb', hlc]
  have hin' : (t.sreg sa').toNat + cs.length ≤ t.memSize := by rw [ha', hwt.completed.memSize]; exact hin
  obtain ⟨v, hv, hwv⟩ := exec_hupd_of_holds hd hb' hin' (ha' ▸ hwt.mem.holds hcs)
  obtain ⟨u, hu, hwu⟩ := exec_hupd_of_holds (s := s) (bs := bs ++ cs) hd (by simpa using hlen)
    (by rw [List.length_append]; omega) hheld
  rw [hwt.value, ← tzupd_append] at hwv
  have hseq : execSeq [.hupd md sa sb, .hupd md sa' sb'] s = .next v := by
    rw [execSeq_cons _ ht, execSeq_cons _ hv, execSeq]
  exact ⟨v, u, hseq, hu, (hwt.changedM.trans hwv.changedM).same hwu.changedM hd⟩

end Sys2Proof.Machine
end

section
/-! PROOF. HCAT (43_tzhash.md R115, R120): the digests a command reads from a list in MEM, and what it makes of
them. -/

namespace Sys2Proof.Machine

variable {s : State}

/-! ### Reading a list of digests -/

theorem State.readDigests_succ (s : State) (p : ReadPort) (a n : Nat) {m : Mat} {ms : List Mat}
    (hm : decM (s.memBytes p a 64) = some m) (hms : s.readDigests p (a + 64) n = some ms) :
    s.readDigests p a (n + 1) = some (m :: ms) := by
  simp only [State.readDigests, hm, hms]

/-- One digest that DecM refuses makes the list unreadable. -/
theorem State.readDigests_succ_none (s : State) (p : ReadPort) (a n : Nat)
    (h : decM (s.memBytes p a 64) = none ∨ s.readDigests p (a + 64) n = none) :
    s.readDigests p a (n + 1) = none := by
  rw [State.readDigests]
  split
  next hm hms => simp [hm, hms] at h
  next => rfl

/-- Stable digests are read as the matrices they encode, in list order (43_tzhash.md R120). -/
theorem Holds.readDigests {ms : List Mat} {a : Nat} (h : Holds s a (ms.flatMap encM)) (p : ReadPort) :
    s.readDigests p a ms.length = some ms := by
  induction ms generalizing a with
  | nil => rfl
  | cons m ms ih =>
    obtain ⟨hm, hms⟩ := (holds_append s a (encM m) (ms.flatMap encM)).mp h
    rw [encM_length] at hms
    exact s.readDigests_succ p a ms.length (hm.decM_memBytes p) (ih hms)

/-- A chunk with its top bit set, in whichever digest, makes the list unreadable. -/
theorem Holds.readDigests_of_topBit {n a j : Nat} {b : Byte} (h : Holds s (a + 16 * j) [b]) (hj : j < 4 * n)
    (htop : b.getLsbD 7 = true) (p : ReadPort) : s.readDigests p a n = none := by
  induction n generalizing a j with
  | zero => omega
  | succ n ih =>
    refine s.readDigests_succ_none p a n ?_
    rcases Nat.lt_or_ge j 4 with hfirst | hlater
    · exact .inl (h.decM_memBytes_of_topBit hfirst htop p)
    · obtain ⟨i, rfl⟩ := Nat.exists_eq_add_of_le hlater
      have haddr : a + 16 * (4 + i) = a + 64 + 16 * i := by omega
      exact .inr (ih (haddr ▸ h) (by omega))

/-! ### HCAT -/

/-- With a legal M field and a count that is not 0, HCAT ends as its range check does (43_tzhash.md R120). -/
theorem exec_hcat_eq (s : State) {md sa sb : Reg} (hd : legalM md = true) (hn : (s.sreg sb).toNat ≠ 0) :
    exec (.hcat md sa sb) s =
      s.settle (s.checkRange (s.sreg sa).toNat (64 * (s.sreg sb).toNat)
        (decoded (s.readDigests .data (s.sreg sa).toNat (s.sreg sb).toNat) fun ms =>
          .ok (s.setM md (concatMats ms)))) :=
  congrArg s.settle ((guardM_pos (by simp [hd]) _).trans (if_neg hn))

theorem exec_hcat_wroteM {md sa sb : Reg} {ms : List Mat} (hd : legalM md = true) (hne : ms ≠ [])
    (hlen : ms.length = (s.sreg sb).toNat) (hin : (s.sreg sa).toNat + 64 * (s.sreg sb).toNat ≤ s.memSize)
    (hheld : Holds s (s.sreg sa).toNat (ms.flatMap encM)) :
    ∃ t, exec (.hcat md sa sb) s = .next t ∧ WroteM s t md (concatMats ms) := by
  have hn : (s.sreg sb).toNat ≠ 0 := by rwa [← hlen, Ne, List.length_eq_zero_iff]
  refine ⟨_, ?_, wroteM_setM s hd _⟩
  rw [exec_hcat_eq s hd hn, State.checkRange_pos (.inr hin), ← hlen, hheld.readDigests .data, decoded_some,
    State.settle, State.settled_ok]

/-- HCAT of no digest is INVALID_INPUT, wherever the list is (43_tzhash.md R120). -/
theorem exec_hcat_empty (s : State) {md sa sb : Reg} (hd : legalM md = true) (hn : (s.sreg sb).toNat = 0) :
    ∃ t, exec (.hcat md sa sb) s = .next t ∧ Faulted s t .invalidInput :=
  settle_error_faulted s ((guardM_pos (by simp [hd]) _).trans (if_pos hn))

/-- Settles O47: HCAT's checks are the count's, the range's and DecM's, in this order. -/
theorem hashConcatenateCommand : Obligations.HashConcatenateCommand := by
  refine fun s md sa sb hd => ⟨fun ms hne hlen hin hheld => ?_, exec_hcat_empty s hd,
    fun j b hj hin hheld htop => ?_, fun hn hout => ?_⟩
  · obtain ⟨t, ht, hw⟩ := exec_hcat_wroteM hd hne hlen hin hheld
    exact ⟨t, ht, hw.completed, hw.sregs, hw.mem, hw.fregs, hw.value⟩
  · rw [exec_hcat_eq s hd (by omega), State.checkRange_pos (.inr hin), hheld.readDigests_of_topBit hj htop .data]
    exact settle_error_faulted s (decoded_none _)
  · rw [exec_hcat_eq s hd hn]
    exact settle_checkRange_faulted s _ (by omega) hout

end Sys2Proof.Machine
end

section
/-! PROOF. HVAL (43_tzhash.md R121): when it answers 1, the digests of two parts and of their concatenation, and
why no other digest in place of one of them passes. -/

namespace Sys2Proof.Machine

variable {s : State}

/-! ### HVAL -/

theorem validates_none (comb : List Byte) : validates comb none = false := rfl

/-- The list is not empty and its product has the combined digest's bytes (43_tzhash.md R121). -/
theorem validates_some (comb : List Byte) (ms : List Mat) :
    validates comb (some ms) = true ↔ ms ≠ [] ∧ encM (concatMats ms) = comb := by
  cases ms with
  | nil => simp [validates]
  | cons m ms => simp [validates]

/-- The bytes of the combined digest and the list, as HVAL reads them, validate. -/
def State.hvalPasses (s : State) (sa sb sc : Reg) : Bool :=
  validates (s.memBytes .data (s.sreg sa).toNat 64) (s.readDigests .list (s.sreg sb).toNat (s.sreg sc).toNat)

/-- With the combined digest inside MEM, HVAL ends as the range check of its list does (60_exceptions.md R124). -/
theorem exec_hval_eq (s : State) (sd : Reg) {sa sb sc : Reg} (hcomb : (s.sreg sa).toNat + 64 ≤ s.memSize) :
    exec (.hval sd sa sb sc) s =
      s.settle (s.checkRange (s.sreg sb).toNat (64 * (s.sreg sc).toNat)
        (.ok (s.setS sd (if s.hvalPasses sa sb sc then 1#32 else 0#32)))) :=
  congrArg s.settle (State.checkRange_pos (.inr hcomb) _)

theorem exec_hval_wroteS (s : State) (sd : Reg) {sa sb sc : Reg} (hcomb : (s.sreg sa).toNat + 64 ≤ s.memSize)
    (hlist : s.InRange (s.sreg sb).toNat (64 * (s.sreg sc).toNat)) :
    ∃ t, exec (.hval sd sa sb sc) s = .next t ∧ WroteS s t sd (if s.hvalPasses sa sb sc then 1#32 else 0#32) := by
  refine ⟨_, ?_, wroteS_setS s sd _⟩
  rw [exec_hval_eq s sd hcomb, State.checkRange_pos hlist, State.settle, State.settled_ok]

theorem exec_hval_outside (s : State) (sd : Reg) {sa sb sc : Reg}
    (hout : s.memSize < (s.sreg sa).toNat + 64 ∨
      ((s.sreg sc).toNat ≠ 0 ∧ s.memSize < (s.sreg sb).toNat + 64 * (s.sreg sc).toNat)) :
    ∃ t, exec (.hval sd sa sb sc) s = .next t ∧ Faulted s t .memRange := by
  by_cases hcomb : (s.sreg sa).toNat + 64 ≤ s.memSize
  · obtain ⟨hn, hlist⟩ := hout.resolve_left (by omega)
    rw [exec_hval_eq s sd hcomb]
    exact settle_checkRange_faulted s _ (by omega) hlist
  · exact settle_checkRange_faulted s _ (by decide) (Nat.lt_of_not_le hcomb)

/-- Of stable bytes HVAL reads the combined digest and the matrices of the list. -/
theorem hvalPasses_iff {sa sb sc : Reg} {comb : List Byte} {ms : List Mat} (hcomb : comb.length = 64)
    (hlen : ms.length = (s.sreg sc).toNat) (hc : Holds s (s.sreg sa).toNat comb)
    (hl : Holds s (s.sreg sb).toNat (ms.flatMap encM)) :
    s.hvalPasses sa sb sc = true ↔ ms ≠ [] ∧ encM (concatMats ms) = comb := by
  rw [State.hvalPasses, ← hcomb, hc.memBytes, ← hlen, hl.readDigests, validates_some]

/-- Settles O48: HVAL's checks are the two ranges'; inside MEM it writes whether `hvalPasses`. -/
theorem hashValidateCommand : Obligations.HashValidateCommand := by
  refine fun s sd sa sb sc => ⟨fun hcomb hlist => ?_, exec_hval_outside s sd⟩
  obtain ⟨t, ht, hw⟩ := exec_hval_wroteS s sd hcomb (sb := sb) (sc := sc) (by simp only [State.InRange]; omega)
  refine ⟨t, ht, hw.completed, hw.fregs, hw.mem, hw.others, ?_, fun comb ms hd hcl hlen hc hl => ?_,
    fun j b hj hheld htop => ?_⟩
  · rw [hw.value]
    split_ifs <;> simp
  · rw [hw.sreg_of_ne hd]
    refine Iff.trans ?_ (hvalPasses_iff hcl hlen hc hl)
    cases s.hvalPasses sa sb sc <;> simp
  · have hfails : s.hvalPasses sa sb sc = false := by
      rw [State.hvalPasses, hheld.readDigests_of_topBit hj htop, validates_none]
    rw [hw.value, hfails]
    simp

/-! ### The digests of two parts -/

theorem flatMap_encM_pair (m n : Mat) : [m, n].flatMap encM = encM m ++ encM n := by
  simp

theorem concatMats_pair (m n : Mat) : concatMats [m, n] = mmul m n := by
  rw [concatMats_cons, concatMats_cons, concatMats, List.foldl_nil, mmul_IDENTITY]

/-- Settles O49: the digests of A and B multiply to the digest of A ++ B (`tzHash_append`). -/
theorem partDigestsCombineAndValidate : Obligations.PartDigestsCombineAndValidate := by
  intro s a b md sd sa sb sc hmd hsd hn hcomb hlist hc hl
  have hprod : concatMats [tzHash a, tzHash b] = tzHash (a ++ b) := by rw [concatMats_pair, tzHash_append]
  have hlen : [tzHash a, tzHash b].length = (s.sreg sc).toNat := hn.symm
  have hl' : Holds s (s.sreg sb).toNat ([tzHash a, tzHash b].flatMap encM) := (flatMap_encM_pair _ _).symm ▸ hl
  have hin : (s.sreg sb).toNat + 64 * (s.sreg sc).toNat ≤ s.memSize := by omega
  constructor
  · obtain ⟨t, ht, hw⟩ := exec_hcat_wroteM hmd (by simp) hlen hin hl'
    exact ⟨t, ht, hw.completed, hw.value.trans hprod⟩
  · obtain ⟨t, ht, hw⟩ := exec_hval_wroteS s sd hcomb (.inr hin)
    have hpass : s.hvalPasses sa sb sc = true :=
      (hvalPasses_iff (encM_length _) hlen hc hl').mpr ⟨by simp, by rw [hprod]⟩
    refine ⟨t, ht, hw.completed, ?_⟩
    rw [hw.sreg_of_ne hsd, if_pos hpass]

/-! ### A changed digest -/

/-- What DecF accepts is the encoding of what it gives (00_scope.md R13). -/
theorem encF_of_decF {bs : List Byte} {e : Elem} (hl : bs.length = 16) (h : decF bs = some e) : encF e = bs := by
  cases htop : topBit bs with
  | true => simp [decF_of_topBit htop] at h
  | false =>
    obtain rfl : BitVec.ofNat 127 (be bs) = e := by simpa [decF_of_not_topBit htop] using h
    exact encF_of_be hl htop

/-- A 64-byte string is its four chunks. -/
theorem chunks_append {bs : List Byte} (hl : bs.length = 64) :
    chunk bs 0 ++ chunk bs 1 ++ chunk bs 2 ++ chunk bs 3 = bs := by
  simp only [chunk, Nat.mul_zero, List.drop_zero, Nat.mul_one, Nat.reduceMul, ← List.take_add, Nat.reduceAdd]
  exact List.take_of_length_le hl.le

/-- What DecM accepts is the encoding of what it gives (00_scope.md R13). -/
theorem encM_of_decM {bs : List Byte} {m : Mat} (hl : bs.length = 64) (h : decM bs = some m) : encM m = bs := by
  have hlen (j : Nat) (hj : j < 4) : (chunk bs j).length = 16 := by
    rw [chunk, List.length_take, List.length_drop]; omega
  unfold decM at h
  split at h
  next h0 h1 h2 h3 =>
    obtain rfl := Option.some.inj h
    rw [encM, encF_of_decF (hlen 0 (by decide)) h0, encF_of_decF (hlen 1 (by decide)) h1,
      encF_of_decF (hlen 2 (by decide)) h2, encF_of_decF (hlen 3 (by decide)) h3, chunks_append hl]
  next => cases h

theorem encM_injective : Function.Injective encM := fun m n h =>
  Option.some.inj (by rw [← decM_encM m, h, decM_encM n])

theorem det_tzHash_ne_ZERO (bs : List Byte) : det (tzHash bs) ≠ ZERO := by
  rw [(hashDeterminantAndZeroState bs).1]
  decide

theorem mmul_left_cancel {m n o : Mat} (hm : det m ≠ ZERO) (h : mmul m n = mmul m o) : n = o := by
  rw [← IDENTITY_mmul n, ← minv_mmul hm, mmul_assoc, h, ← mmul_assoc, minv_mmul hm, IDENTITY_mmul]

theorem mmul_right_cancel {m n o : Mat} (hm : det m ≠ ZERO) (h : mmul n m = mmul o m) : n = o := by
  rw [← mmul_IDENTITY n, ← mmul_minv hm, ← mmul_assoc, h, mmul_assoc, mmul_minv hm, mmul_IDENTITY]

/-- Two stable strings of 64 bytes that are read as digests are the digests' encodings. -/
theorem readDigests_pair_inv {p : ReadPort} {a : Nat} {x y : List Byte} {ms : List Mat} (hx : x.length = 64)
    (hy : y.length = 64) (hheld : Holds s a (x ++ y)) (h : s.readDigests p a 2 = some ms) :
    ∃ m n, ms = [m, n] ∧ x = encM m ∧ y = encM n := by
  obtain ⟨hxh, hyh⟩ := (holds_append s a x y).mp hheld
  have hreadx : s.memBytes p a 64 = x := hx ▸ hxh.memBytes p
  have hready : s.memBytes p (a + 64) 64 = y := by simpa only [hx, hy] using hyh.memBytes p
  cases hm : decM x with
  | none => simp [State.readDigests, hreadx, hm] at h
  | some m =>
    cases hn : decM y with
    | none => simp [State.readDigests, hready, hn] at h
    | some n =>
      refine ⟨m, n, ?_, (encM_of_decM hx hm).symm, (encM_of_decM hy hn).symm⟩
      simpa [State.readDigests, hreadx, hready, hm, hn] using h.symm

/-- A pair of digests that multiplies to the hash of A ++ B has both of its parts or neither: with one right, the
other is determined, for hashes are invertible (42_sl2.md R104). -/
theorem pair_eq_of_mmul_eq {a b : List Byte} {m n : Mat} (h : mmul m n = tzHash (a ++ b)) :
    m = tzHash a ↔ n = tzHash b := by
  rw [tzHash_append] at h
  constructor
  · rintro rfl
    exact mmul_left_cancel (det_tzHash_ne_ZERO a) h
  · rintro rfl
    exact mmul_right_cancel (det_tzHash_ne_ZERO b) h

/-- Settles O50: a list that passes is a pair of encodings with the product of A's and B's hashes, so it cannot
hold just one of the two digests (`pair_eq_of_mmul_eq`). -/
theorem changedPartDigestFailsValidation : Obligations.ChangedPartDigestFailsValidation := by
  intro s a b x y sd sa sb sc hx hy hone hn hcomb hlist hc hl
  obtain ⟨t, ht, hw⟩ := exec_hval_wroteS s sd hcomb (sb := sb) (sc := sc) (.inr (by omega))
  have hread : s.memBytes .data (s.sreg sa).toNat 64 = encM (tzHash (a ++ b)) := by
    rw [← encM_length (tzHash (a ++ b)), hc.memBytes]
  have hfails : s.hvalPasses sa sb sc = false := by
    rw [State.hvalPasses, hread, hn]
    cases hms : s.readDigests .list (s.sreg sb).toNat 2 with
    | none => rfl
    | some ms =>
      obtain ⟨m, n, rfl, rfl, rfl⟩ := readDigests_pair_inv hx hy hl hms
      rw [Bool.eq_false_iff, Ne, validates_some, concatMats_pair, encM_injective.eq_iff]
      rintro ⟨-, hprod⟩
      have hboth := pair_eq_of_mmul_eq hprod
      rw [Ne, Ne, encM_injective.eq_iff, encM_injective.eq_iff] at hone
      tauto
  refine ⟨t, ht, hw.completed, ?_⟩
  rw [hw.value, hfails]
  simp

end Sys2Proof.Machine
end

section
/-! PROOF. How a command ends and with which causes (60_exceptions.md R122, R123, R125, R126). -/

namespace Sys2Proof.Machine

variable {s t : State}

/-- FETCH_FAULT is no command's own cause: it is raised before a command is known (60_exceptions.md R124). -/
theorem CauseOf.ne_fetchFault {i : Instr} {c : Cause} (h : CauseOf i c) : c ≠ .fetchFault := by
  have hown : Cause.fetchFault ∉ ownCauses i := by cases i <;> simp [ownCauses]
  rcases h with ⟨-, hc⟩ | ⟨-, rfl⟩
  · exact fun hfetch => hown (hfetch ▸ hc)
  · simp

/-- Settles O9: the three endings of `exec_cases`. -/
theorem everyCommandCompletesOrFaultsPrecisely : Obligations.EveryCommandCompletesOrFaultsPrecisely := by
  intro i s
  obtain ⟨t, hexec⟩ := exec_isNext i s
  refine ⟨t, hexec, ?_⟩
  rcases exec_cases hexec with ⟨rfl, rfl⟩ | ⟨hi, u, hu, rfl⟩ | ⟨c, hc, rfl⟩
  · exact .inr (.inr ⟨rfl, s.halted_haltedFrom⟩)
  · exact .inr (.inl ⟨hi, hu.completed⟩)
  · exact .inl ⟨c, hc.ne_none, hc.ne_fetchFault, s.takeFault_faulted c⟩

/-- A fault leaves CPC at its command, so nothing that advances CPC is one (60_exceptions.md R126). -/
theorem Faulted.cpc_ne_advanced {c : Cause} (h : Faulted s t c) : t.cpc ≠ s.cpc + 4#32 := by
  rw [h.cpc]
  bv_omega

/-- Settles O10: of the endings of `exec_cases` only the fault leaves CPC, and a well-formed command faults with a
cause of its own row. -/
theorem commandsFaultOnlyWithTheirOwnCauses : Obligations.CommandsFaultOnlyWithTheirOwnCauses := by
  intro i s t c hwf hexec hfault
  rcases exec_cases hexec with ⟨-, rfl⟩ | ⟨-, u, hu, rfl⟩ | ⟨c', hc', rfl⟩
  · exact absurd s.halted_haltedFrom.cpc hfault.cpc_ne_advanced
  · exact absurd hu.completed.cpc hfault.cpc_ne_advanced
  · obtain rfl : c' = c := hfault.errCause
    rcases hc' with ⟨-, hown⟩ | ⟨hbad, -⟩
    · exact hown
    · exact absurd (hwf.symm.trans hbad) (by decide)

end Sys2Proof.Machine
end

section
/-! PROOF. The retry of a faulting command (60_exceptions.md R127): how a command ends depends only on CPC, the
registers and MEM, all of which a fault and the START after it leave. -/

namespace Sys2Proof.Machine

variable {s t u : State}

/-! ### What a command reads -/

/-- `u` has everything a fetch and a command read as `s` has it: CPC, the F and S registers, MEM and MEM_SIZE. -/
structure SameSources (s u : State) : Prop where
  cpc : u.cpc = s.cpc
  memSize : u.memSize = s.memSize
  fregs : SameF s u
  sregs : SameS s u
  mem : SameMem s u

theorem SameSources.trans (h : SameSources s t) (h' : SameSources t u) : SameSources s u where
  cpc := h'.cpc.trans h.cpc
  memSize := h'.memSize.trans h.memSize
  fregs := fun r => (h'.fregs r).trans (h.fregs r)
  sregs := fun r => (h'.sregs r).trans (h.sregs r)
  mem := fun a => (h'.mem a).trans (h.mem a)

theorem Faulted.sameSources {c : Cause} (h : Faulted s t c) : SameSources s t :=
  ⟨h.cpc, h.memSize, h.fregs, h.sregs, h.mem⟩

theorem SameF.mreg_eq (h : SameF s u) (k : Reg) : u.mreg k = s.mreg k := by
  simp only [State.mreg, h _]

theorem SameS.sval_eq (h : SameS s u) (r : Reg) : u.sval r = s.sval r := congrArg BitVec.toNat (h r)

/-- With no unstable byte, equal MEM reads equal at every port, whatever the draw (20_memory.md R58). -/
theorem SameMem.memBytes_eq (h : SameMem s u) (hstable : s.unstable = []) (p : ReadPort) (a n : Nat) :
    u.memBytes p a n = s.memBytes p a n := by
  refine List.ext_getElem (by simp) fun k _ _ => ?_
  rw [State.getElem_memBytes, State.getElem_memBytes]
  cases hb : s.memByte? (a + k) with
  | none => simp [State.memByte?_eq_none, hstable] at hb
  | some b => rw [State.readByte_of_some hb, State.readByte_of_some ((h _).trans hb)]

theorem SameMem.readDigests_eq (h : SameMem s u) (hstable : s.unstable = []) (p : ReadPort) (n : Nat) :
    ∀ a, u.readDigests p a n = s.readDigests p a n := by
  induction n with
  | zero => exact fun _ => rfl
  | succ n ih => exact fun a => by simp only [State.readDigests, h.memBytes_eq hstable, ih]

theorem SameSources.command_eq (h : SameSources s u) (hstable : s.unstable = []) : u.command = s.command := by
  simp only [State.command, State.Fetchable, State.fetchBytes, h.cpc, h.memSize, h.mem.memBytes_eq hstable]

/-! ### Two executions that end alike -/

/-- `e`, an execution begun in `s`, and `f` both complete, `e` with ERR as it was, or both fault with one cause. -/
inductive SameEnd (s : State) : Except Cause State → Except Cause State → Prop
  | completes {x y : State} : x.err = s.err → SameEnd s (.ok x) (.ok y)
  | faults (c : Cause) : SameEnd s (.error c) (.error c)

namespace SameEnd

variable {e f : Except Cause State}

theorem guardM (h : SameEnd s e f) (ms : List Reg) : SameEnd s (guardM ms e) (guardM ms f) := by
  cases hms : ms.all legalM with
  | true => rwa [guardM_pos hms, guardM_pos hms]
  | false => rw [guardM_neg hms, guardM_neg hms]; exact faults _

theorem checkRange (h : SameEnd s e f) (hsize : u.memSize = s.memSize) (a n : Nat) :
    SameEnd s (s.checkRange a n e) (u.checkRange a n f) := by
  by_cases hr : s.InRange a n
  · rwa [State.checkRange_pos hr, State.checkRange_pos (by rwa [State.InRange, hsize])]
  · rw [State.checkRange_neg hr, State.checkRange_neg (by rwa [State.InRange, hsize])]
    exact faults _

theorem decoded {α : Type} {g g' : α → Except Cause State} (h : ∀ x, SameEnd s (g x) (g' x)) (v : Option α) :
    SameEnd s (decoded v g) (decoded v g') := by
  cases v with
  | some x => exact h x
  | none => exact faults _

/-- A check made first that faults with `c`. -/
theorem check (h : SameEnd s e f) (p : Prop) [Decidable p] (c : Cause) :
    SameEnd s (if p then .error c else e) (if p then .error c else f) := by
  split
  · exact faults c
  · exact h

/-- When the one execution faulted, the other faults with the same cause. -/
theorem faulted {c : Cause} (h : SameEnd s e f) (hs : s.settle e = .next t) (hfault : Faulted s t c)
    (herr : s.err = false) (u : State) : ∃ w, u.settle f = .next w ∧ Faulted u w c := by
  cases h with
  | completes hx =>
    cases hs
    exact absurd (hfault.err.symm.trans (hx.trans herr)) (by decide)
  | faults c' =>
    cases hs
    obtain rfl : c' = c := hfault.errCause
    exact ⟨_, rfl, u.takeFault_faulted c'⟩

end SameEnd

/-- Each command ends alike in two states with the same sources: its checks look at nothing else. -/
theorem SameSources.exec_sameEnd (h : SameSources s u) (hstable : s.unstable = []) (i : Instr) :
    ∃ e f, exec i s = s.settle e ∧ exec i u = u.settle f ∧ SameEnd s e f := by
  have hea := h.sregs.ea_eq
  have hsval := h.sregs.sval_eq
  have hread := h.mem.memBytes_eq hstable
  have hlist := h.mem.readDigests_eq hstable
  cases i with
  | halt | nop | fadd | fmulx | fmulx1 | fmul | fldi | lil | lih | addi =>
    exact ⟨_, _, rfl, rfl, .completes (by simp)⟩
  | sld | sst | fst =>
    refine ⟨_, _, rfl, rfl, ?_⟩
    rw [hea]
    exact .checkRange (.completes (by simp)) h.memSize _ _
  | finv fd fa =>
    refine ⟨_, _, rfl, rfl, ?_⟩
    rw [h.fregs fa]
    exact .check (.completes (by simp)) _ _
  | fld fd sb imm =>
    refine ⟨_, _, rfl, rfl, ?_⟩
    rw [hea, hread]
    exact .checkRange (.decoded (fun _ => .completes (by simp)) _) h.memSize _ _
  | mmul | mid | hbit => exact ⟨_, _, rfl, rfl, .guardM (.completes (by simp)) _⟩
  | minv md ma =>
    refine ⟨_, _, rfl, rfl, ?_⟩
    rw [h.fregs.mreg_eq ma]
    exact .guardM (.check (.completes (by simp)) _ _) _
  | mld md sb imm =>
    refine ⟨_, _, rfl, rfl, ?_⟩
    rw [hea, hread]
    exact .guardM (.checkRange (.decoded (fun _ => .completes (by simp)) _) h.memSize _ _) _
  | mst ms sb imm =>
    refine ⟨_, _, rfl, rfl, ?_⟩
    rw [hea]
    exact .guardM (.checkRange (.completes (by simp)) h.memSize _ _) _
  | hupd md sa sb =>
    refine ⟨_, _, rfl, rfl, ?_⟩
    simp only [hsval]
    exact .guardM (.checkRange (.completes (by simp)) h.memSize _ _) _
  | hcat md sa sb =>
    refine ⟨_, _, rfl, rfl, ?_⟩
    simp only [hsval, hlist]
    exact .guardM (.check (.checkRange (.decoded (fun _ => .completes (by simp)) _) h.memSize _ _) _ _) _
  | hval sd sa sb sc =>
    refine ⟨_, _, rfl, rfl, ?_⟩
    simp only [hsval]
    exact .checkRange (.checkRange (.completes (by simp)) h.memSize _ _) h.memSize _ _

/-! ### Fault, START and retry -/

/-- A step of a run that sets ERR took a fault: no other ending does (60_exceptions.md R125). -/
theorem Running.faulted_of_err (hs : Running s) (herr : s.err = false) (hstep : step s = .next t)
    (ht : t.err = true) : ∃ c, Faulted s t c := by
  cases hc : s.command with
  | error c =>
    obtain ⟨t', hstep', hfault⟩ := hs.step_of_command_error hc
    cases hstep'.symm.trans hstep
    exact ⟨c, hfault⟩
  | ok i =>
    have herrs : s.err ≠ t.err := by simp [herr, ht]
    obtain ⟨t', hexec, hend⟩ := everyCommandCompletesOrFaultsPrecisely i s
    cases hexec.symm.trans ((hs.step_of_command hc).symm.trans hstep)
    rcases hend with ⟨c, -, -, hfault⟩ | ⟨-, hcompleted⟩ | ⟨-, hhalted⟩
    · exact ⟨c, hfault⟩
    · exact absurd hcompleted.err.symm herrs
    · exact absurd hhalted.err.symm herrs

/-- A fault taken in a run is taken again by every run with the same sources (60_exceptions.md R127). -/
theorem Running.faults_again {c : Cause} (hs : Running s) (herr : s.err = false) (hstable : s.unstable = [])
    (hstep : step s = .next t) (hfault : Faulted s t c) (hu : Running u) (h : SameSources s u) :
    ∃ w, step u = .next w ∧ Faulted u w c := by
  have hcommand := h.command_eq hstable
  cases hc : s.command with
  | error c' =>
    obtain ⟨t', hstep', hfault'⟩ := hs.step_of_command_error hc
    cases hstep'.symm.trans hstep
    obtain rfl : c' = c := hfault'.errCause.symm.trans hfault.errCause
    exact hu.step_of_command_error (hcommand.trans hc)
  | ok i =>
    obtain ⟨e, f, he, hf, hend⟩ := h.exec_sameEnd hstable i
    rw [hs.step_of_command hc, he] at hstep
    rw [hu.step_of_command (hcommand.trans hc), hf]
    exact hend.faulted hstep hfault herr u

/-- START while idle begins a run over what the block holds (10_state.md R27; 70_reset_and_hazards.md R139). -/
theorem step_start {v : Word} {ts : List Turn} (hdue : HostDue s (.regWrite 0x00 4 v) ts) (hidle : s.busy = false)
    (hstart : v.getLsbD 0 = true) (hsrst : v.getLsbD 2 = false) :
    step s = .next ({ s with turns := ts, ie := v.getLsbD 1 } : State).started.tick := by
  have hwrite : ({ s with turns := ts } : State).writeReg 0x00 v =
      ({ s with turns := ts, ie := v.getLsbD 1 } : State).started := by
    show State.writeCtrl _ v = _
    rw [State.writeCtrl, hsrst, hstart, hidle]
    rfl
  rw [step_regWrite hdue rfl, hwrite]

/-- START with the block idle and nothing else to come begins a run on the block's own sources. -/
theorem start_begins_run {v : Word} (hidle : s.busy = false) (hreset : s.resetInput = false)
    (hstart : v.getLsbD 0 = true) (hsrst : v.getLsbD 2 = false) :
    ∃ u, step { s with turns := [.host (.regWrite 0x00 4 v)] } = .next u ∧ Running u ∧ SameSources s u :=
  ⟨_, step_start ⟨hreset, rfl⟩ hidle hstart hsrst, ⟨rfl, hreset, rfl⟩,
    ⟨rfl, rfl, fun _ => rfl, fun _ => rfl, fun _ => rfl⟩⟩

/-- Settles O16: the fault and the START leave the sources of the command, which faults again. -/
theorem retryGivesTheSameFault : Obligations.RetryGivesTheSameFault := by
  intro s t v hrun herr hstable hstep hterr hstart hsrst
  obtain ⟨c, hfault⟩ := hrun.faulted_of_err herr hstep hterr
  obtain ⟨u, hu, hurun, hkept⟩ :=
    start_begins_run hfault.busy (hfault.resetInput.trans hrun.resetInput) hstart hsrst
  obtain ⟨w, hw, hrefault⟩ := hrun.faults_again herr hstable hstep hfault hurun (hfault.sameSources.trans hkept)
  have herrPc : w.errPc = t.errPc := hrefault.errPc.trans (hkept.cpc.trans (hfault.cpc.trans hfault.errPc.symm))
  have hend : SameSources t w := hkept.trans hrefault.sameSources
  exact ⟨u, w, hu, hw, hrefault.err, hrefault.busy, hrefault.errCause.trans hfault.errCause.symm, herrPc, hend.cpc,
    hend.fregs, hend.sregs, hend.mem⟩

end Sys2Proof.Machine
end

section
/-! PROOF. CTRL writes and the two resets (10_state.md R27, R40; 70_reset_and_hazards.md R137 to R139): what START
keeps, the reset values of the registers, and what a soft reset leaves of MEM. -/

namespace Sys2Proof.Machine

variable {s t : State} {i : Instr} {a n : Nat}

/-! ### A write to CTRL -/

theorem step_writeCtrl {v : Word} {ts : List Turn} (hdue : HostDue s (.regWrite 0x00 4 v) ts) :
    step s = .next (({ s with turns := ts } : State).writeCtrl v).tick := step_regWrite hdue rfl

/-- Settles O51: without SRST the write either starts a run over the state it finds or sets IE and no more
(`State.writeCtrl_cases`). -/
theorem startBeginsARun : Obligations.StartBeginsARun := by
  intro s v ts hdue hsrst
  have hexclude : ¬((v.getLsbD 0 = true ∧ s.busy = false) ∧ (v.getLsbD 0 = false ∨ s.busy = true)) := by
    rintro ⟨⟨hstart, hidle⟩, hignored⟩
    rw [hstart, hidle] at hignored
    exact absurd hignored (by decide)
  refine ⟨_, step_writeCtrl hdue, ?_⟩
  rcases State.writeCtrl_cases { s with turns := ts } v with
    ⟨hsrst', -⟩ | ⟨-, hstart, hidle, he⟩ | ⟨-, hignored, he⟩
  · exact absurd (hsrst'.symm.trans hsrst) (by decide)
  · rw [he]
    exact ⟨rfl, rfl, fun _ => rfl, fun _ => rfl, fun _ => rfl, rfl, rfl, rfl,
      fun _ => ⟨rfl, rfl, rfl, rfl, rfl⟩, fun hignored => absurd ⟨⟨hstart, hidle⟩, hignored⟩ hexclude⟩
  · rw [he]
    exact ⟨rfl, rfl, fun _ => rfl, fun _ => rfl, fun _ => rfl, rfl, rfl, rfl,
      fun hstarts => absurd ⟨hstarts, hignored⟩ hexclude, fun _ => ⟨rfl, rfl, rfl, rfl, rfl⟩⟩

/-! ### The reset values of the registers -/

/-- Every register of `t` holds its reset value and the engine is idle (10_state.md R40). -/
structure RegistersAtReset (t : State) : Prop where
  fregs : ∀ r, t.freg r = ZERO
  sregs : ∀ r, t.sreg r = 0#32
  cpc : t.cpc = 0#32
  ie : t.ie = false
  busy : t.busy = false
  done : t.done = false
  err : t.err = false
  errCause : t.errCause = .none
  errPc : t.errPc = 0#32

theorem RegistersAtReset.irq (h : RegistersAtReset t) : t.irq = false := by simp [State.irq, h.ie]

theorem State.clearRegisters_atReset (s : State) : RegistersAtReset s.clearRegisters :=
  ⟨State.reset_freg, State.reset_sreg, rfl, rfl, rfl, rfl, rfl, rfl, rfl⟩

theorem State.hardwareReset_atReset (s : State) : RegistersAtReset s.hardwareReset :=
  { s.clearRegisters_atReset with }

theorem State.softReset_atReset (s : State) : RegistersAtReset s.softReset := by
  rcases s.softReset_cases with he | ⟨a, n, -, -, he⟩ <;> rw [he] <;> exact State.clearRegisters_atReset _

/-- MEM_SIZE is a build parameter, and the turns to come are not the block's: a soft reset reaches neither
(00_scope.md R7; log 9). -/
theorem State.softReset_memSize_turns (s : State) :
    s.softReset.memSize = s.memSize ∧ s.softReset.turns = s.turns := by
  rcases s.softReset_cases with he | ⟨a, n, -, -, he⟩ <;> rw [he] <;> exact ⟨rfl, rfl⟩

/-! ### The store a soft reset can cut short (70_reset_and_hazards.md R138) -/

/-- No store has an empty range (20_memory.md R52). -/
theorem storeRange_pos (h : storeRange i s = some (a, n)) : 0 < n := by
  cases i with
  | sst | fst | mst => cases h; decide
  | _ => cases h

/-- The range a soft reset can tear: that of the store at CPC, in a run, when it lies inside MEM. -/
theorem State.storeAtCpc_eq_some : s.storeAtCpc = some (a, n) ↔
    s.busy = true ∧ ∃ i, s.command = .ok i ∧ storeRange i s = some (a, n) ∧ a + n ≤ s.memSize := by
  unfold State.storeAtCpc
  cases s.busy with
  | false => simp
  | true =>
    cases s.command with
    | error c => simp
    | ok i =>
      have hrange (h : storeRange i s = some (a, n)) : s.InRange a n ↔ a + n ≤ s.memSize :=
        or_iff_right (storeRange_pos h).ne'
      simpa [Option.filter_eq_some_iff] using hrange

/-- The store at CPC does not depend on the turns to come. -/
theorem State.storeAtCpc_setTurns (s : State) (ts : List Turn) :
    ({ s with turns := ts } : State).storeAtCpc = s.storeAtCpc := by
  have hrange (i : Instr) : storeRange i { s with turns := ts } = storeRange i s := by cases i <;> rfl
  simp only [State.storeAtCpc, State.command_setTurns, hrange]

theorem State.tear_sameMemOutside (s : State) (a n : Nat) : SameMemOutside s (s.tear a n) a n :=
  fun k hk => s.memByte?_storeBytes_outside a k _ (by simpa using hk)

/-- A soft reset keeps MEM outside the only range it can tear. -/
theorem State.softReset_sameMemOutside (h : ∀ r, s.storeAtCpc = some r → r = (a, n)) :
    SameMemOutside s s.softReset a n := by
  unfold State.softReset
  split
  · next c m hstore =>
    obtain ⟨rfl, rfl⟩ := Prod.mk.inj (h _ hstore)
    exact s.tear_sameMemOutside c m
  · exact fun _ _ => rfl

theorem State.softReset_sameMem (h : s.storeAtCpc = none) : SameMem s s.softReset := by
  rw [State.softReset, h]
  exact fun _ => rfl

/-- Settles O52: a soft reset puts the registers at their reset values (`State.softReset_atReset`) and touches MEM
only in the range of the store at CPC (`State.storeAtCpc_eq_some`). -/
theorem softResetClearsRegistersAndKeepsMem : Obligations.SoftResetClearsRegistersAndKeepsMem := by
  intro s v ts hdue hsrst
  have hwrite : ({ s with turns := ts } : State).writeCtrl v = ({ s with turns := ts } : State).softReset :=
    if_pos hsrst
  have hregs := State.softReset_atReset { s with turns := ts }
  obtain ⟨hmemSize, hturns⟩ := State.softReset_memSize_turns { s with turns := ts }
  refine ⟨({ s with turns := ts } : State).softReset.tick, by rw [step_writeCtrl hdue, hwrite], hturns, hregs.fregs,
    hregs.sregs, hregs.cpc, hregs.ie, hregs.busy, hregs.done, hregs.err, hregs.errCause, hregs.errPc, hmemSize,
    hregs.irq, fun i a n _ hcommand hrange _ => ?outside, fun hnone => ?all⟩
  case outside =>
    refine State.softReset_sameMemOutside (s := { s with turns := ts }) fun r hr => ?_
    rw [State.storeAtCpc_setTurns] at hr
    obtain ⟨-, j, hj, hrange', -⟩ := State.storeAtCpc_eq_some.mp hr
    obtain rfl : i = j := Except.ok.inj (hcommand.symm.trans hj)
    exact Option.some.inj (hrange'.symm.trans hrange)
  case all =>
    refine State.softReset_sameMem (s := { s with turns := ts }) ?_
    rw [State.storeAtCpc_setTurns, Option.eq_none_iff_forall_ne_some]
    rintro ⟨a, n⟩ hstore
    obtain ⟨hbusy, i, hcommand, hrange, hinside⟩ := State.storeAtCpc_eq_some.mp hstore
    rcases hnone with hidle | houtside
    · exact Bool.false_ne_true (hidle.symm.trans hbusy)
    · exact absurd hinside (houtside i a n hcommand hrange).not_ge

/-! ### The reset input (70_reset_and_hazards.md R137) -/

theorem engineTurn_of_resetInput (h : s.resetInput = true) : engineTurn s = .next s := if_neg (by simp [h])

theorem hostTurn_of_resetInput (h : s.resetInput = true) (a : HostAccess) : hostTurn a s = .next s := if_pos h

/-- Settles O60: the turns of the platform (`step_of_turns`), and those of the engine and the host while the reset
input is asserted. -/
theorem hardwareReset : Obligations.HardwareReset := by
  intro s ts
  obtain ⟨hnil, hengine, hhost, hassert, hrelease⟩ := step_of_turns (s := s)
  refine ⟨hassert ts, fun hreset hts => ?notAsserted, fun hreset =>
    ⟨fun hts => ?nothing, fun a => ?ignored, fun hts => ?release⟩⟩
  case notAsserted => rw [hrelease ts hts, State.releaseReset, if_neg (by simp [hreset])]
  case nothing => exact (hnil hts).trans (engineTurn_of_resetInput hreset)
  case ignored =>
    rintro (hts | hts)
    · exact (hengine ts hts).trans (engineTurn_of_resetInput hreset)
    · exact (hhost a ts hts).trans (hostTurn_of_resetInput (s := { s with turns := ts }) hreset a)
  case release =>
    have hregs := State.hardwareReset_atReset { s with turns := ts }
    refine ⟨({ s with turns := ts } : State).hardwareReset, ?_, rfl, rfl, hregs.fregs, hregs.sregs, hregs.cpc,
      hregs.ie, hregs.busy, hregs.done, hregs.err, hregs.errCause, hregs.errPc, hregs.irq, rfl⟩
    rw [hrelease ts hts, State.releaseReset, if_pos hreset]

end Sys2Proof.Machine
end

section
/-! PROOF. The host accesses the model does not answer (93_implementation_defined.md section 2; log 15, 16). -/

namespace Sys2Proof.Machine

variable {s : State} {off : BitVec 8} {size i : Nat} {ts : List Turn}

/-- The step of a host access that is due is the host's turn, and the reset input does not suppress it. -/
theorem HostDue.step_eq {a : HostAccess} (hdue : HostDue s a ts) :
    step s = hostTurn a { s with turns := ts } ∧ ({ s with turns := ts } : State).resetInput = false := by
  obtain ⟨-, -, hhost, -⟩ := step_of_turns (s := s)
  exact ⟨hhost a ts hdue.turns, hdue.resetInput⟩

/-! ### The host's turn -/

theorem hostTurn_regRead_refused (hreset : s.resetInput = false) (h : ¬ alignedWord off size) :
    hostTurn (.regRead off size) s = .refused .registerAccessShape :=
  (if_neg (by simp [hreset])).trans (if_neg h)

theorem hostTurn_regWrite_refused (hreset : s.resetInput = false) (h : ¬ alignedWord off size) (v : Word) :
    hostTurn (.regWrite off size v) s = .refused .registerAccessShape :=
  (if_neg (by simp [hreset])).trans (if_neg h)

theorem hostTurn_memRead_refused (hreset : s.resetInput = false) (h : s.memSize ≤ i) :
    hostTurn (.memRead i) s = .refused .windowBeyondMem :=
  (if_neg (by simp [hreset])).trans (if_neg h.not_gt)

theorem hostTurn_memWrite_refused (hreset : s.resetInput = false) (h : s.memSize ≤ i) (b : Byte) :
    hostTurn (.memWrite i b) s = .refused .windowBeyondMem :=
  (if_neg (by simp [hreset])).trans (if_neg h.not_gt)

/-! ### The statement -/

/-- Settles O59: a due access is the host's turn (`HostDue.step_eq`), which refuses each of the four accesses. -/
theorem hostAccessesOutsideTheModel : Obligations.HostAccessesOutsideTheModel := by
  intro s off size i v b ts
  refine ⟨fun hshape => ?register, fun hbeyond => ?window⟩
  case register =>
    have hunaligned : ¬ alignedWord off size := by
      rintro ⟨hsize, hoff⟩
      exact hshape.elim (· hsize) (· hoff)
    refine ⟨fun hdue => ?read, fun hdue => ?write⟩ <;> obtain ⟨hstep, hreset⟩ := hdue.step_eq
    case read => exact hstep.trans (hostTurn_regRead_refused hreset hunaligned)
    case write => exact hstep.trans (hostTurn_regWrite_refused hreset hunaligned v)
  case window =>
    refine ⟨fun hdue => ?read, fun hdue => ?write⟩ <;> obtain ⟨hstep, hreset⟩ := hdue.step_eq
    case read => exact hstep.trans (hostTurn_memRead_refused hreset hbeyond)
    case write => exact hstep.trans (hostTurn_memWrite_refused hreset hbeyond b)

end Sys2Proof.Machine
end
